-- ==== Sys2Proof/Word.lean ====
section
/-! DEFINITION. The word of the block: a signed integer. Every operation of the spec is defined on the integer
value of a word and none observes its bits (00_scope.md R9), so a word is an `Int` of Lean here, and that it fits
the W bits of the hardware is a check (`Config.InRange`) and an invariant, not part of the type (log entry 1). This
file holds the bounds of a word. -/

namespace Sys2Proof

/-- `2^(W-1)`, the number of words that are not negative. -/
def wordBound (wordBits : Nat) : Nat := 2 ^ (wordBits - 1)

/-- `WMIN = -2^(W-1)` (00_scope.md R9). -/
def wordMin (wordBits : Nat) : Int := -(wordBound wordBits : Int)

/-- `WMAX = 2^(W-1) - 1` (00_scope.md R9). -/
def wordMax (wordBits : Nat) : Int := (wordBound wordBits : Int) - 1

end Sys2Proof
end

