-- ==== Sys2Proof/Config.lean ====
section
/-! DEFINITION. The implementation parameters of 00_scope.md R8. The spec leaves all but the word width open, so
they are fields of a `Config` that the state carries and no step changes: a statement about every state holds for
every choice of the parameters (log entry 2). The spec leaves no result of an instruction undefined, so there is
no opaque free value here. -/

namespace Sys2Proof

/-- The parameters of 00_scope.md R8. -/
structure Config where
  /-- `WORD_BITS` (W): the width of every memory word, queue entry and register value. -/
  wordBits : Nat
  /-- `MEM_WORDS`: the capacity of each memory and of the program store, in words. -/
  memWords : Nat
  /-- `IN_DEPTH`: the capacity of each input queue. -/
  inDepth : Nat
  /-- `OUT_DEPTH`: the capacity of each output queue. -/
  outDepth : Nat
  /-- `N_MAX`: the number of machine instances built. -/
  nMax : Nat
deriving DecidableEq, Repr

/-- `2^(W-1)`, the number of words that are not negative. -/
def Config.bound (c : Config) : Nat := wordBound c.wordBits

/-- `WMIN` (00_scope.md R9). -/
def Config.wmin (c : Config) : Int := wordMin c.wordBits

/-- `WMAX` (00_scope.md R9). -/
def Config.wmax (c : Config) : Int := wordMax c.wordBits

/-- The value is a word: it lies in `[WMIN, WMAX]` (00_scope.md R9). -/
abbrev Config.InRange (c : Config) (v : Int) : Prop := c.wmin ≤ v ∧ v ≤ c.wmax

/-- The constraints of 00_scope.md R8 on the parameters. -/
abbrev Config.Legal (c : Config) : Prop :=
  16 ≤ c.wordBits ∧ 1 ≤ c.memWords ∧ c.memWords ≤ c.bound ∧ 2 ≤ c.inDepth ∧ 1 ≤ c.outDepth ∧ 1 ≤ c.nMax

/-- The parameters of the reset state: the spec's default word width, and a choice of the model for the open
ones (DESIGN CHOICE, log entry 2). -/
def Config.standard : Config :=
  { wordBits := 64, memWords := 4096, inDepth := 16, outDepth := 16, nMax := 5 }

end Sys2Proof
end

