-- ==== Sys2Proof/Syntax.lean ====
section
/-! DEFINITION. The instructions: one constructor for each row of spec/opcode_table.json. An operand keeps its
mode digit, a destination too (30_encoding.md R107: the digit decodes but has no meaning), so that no part of an
encoding is lost. -/

namespace Sys2Proof

/-- A mode digit (30_encoding.md R103): `0` POSITION, `1` IMMEDIATE. -/
inductive Mode where
  | position
  | immediate
deriving DecidableEq, Repr

/-- A value operand: its mode and its operand word `p_k` (30_encoding.md R105, R106). -/
structure Operand where
  mode : Mode
  word : Int
deriving DecidableEq, Repr

/-- A destination operand: its mode digit, which has no meaning, and the address written
(30_encoding.md R107). -/
structure Dest where
  digit : Mode
  addr : Int
deriving DecidableEq, Repr

/-- The nine instructions (30_encoding.md R104, R116). -/
inductive Instr where
  /-- opcode 1 (41_arithmetic.md R180) -/
  | add (a b : Operand) (dst : Dest)
  /-- opcode 2 (41_arithmetic.md R182) -/
  | mult (a b : Operand) (dst : Dest)
  /-- opcode 3 (42_io.md R190) -/
  | input (dst : Dest)
  /-- opcode 4 (42_io.md R192) -/
  | output (a : Operand)
  /-- opcode 5 (43_jumps.md R200) -/
  | jumpIfTrue (cond target : Operand)
  /-- opcode 6 (43_jumps.md R202) -/
  | jumpIfFalse (cond target : Operand)
  /-- opcode 7 (44_compare.md R210) -/
  | lessThan (a b : Operand) (dst : Dest)
  /-- opcode 8 (44_compare.md R212) -/
  | equals (a b : Operand) (dst : Dest)
  /-- opcode 99 (45_halt.md R220) -/
  | halt
deriving DecidableEq, Repr

/-- The length of the instruction in words (30_encoding.md R104). -/
def Instr.length : Instr → Nat
  | .add _ _ _ => 4
  | .mult _ _ _ => 4
  | .input _ => 2
  | .output _ => 2
  | .jumpIfTrue _ _ => 3
  | .jumpIfFalse _ _ => 3
  | .lessThan _ _ _ => 4
  | .equals _ _ _ => 4
  | .halt => 1

/-- The operand words `p_1 .. p_n` (30_encoding.md R105). -/
def Instr.operandWords : Instr → List Int
  | .add a b d => [a.word, b.word, d.addr]
  | .mult a b d => [a.word, b.word, d.addr]
  | .input d => [d.addr]
  | .output a => [a.word]
  | .jumpIfTrue c t => [c.word, t.word]
  | .jumpIfFalse c t => [c.word, t.word]
  | .lessThan a b d => [a.word, b.word, d.addr]
  | .equals a b d => [a.word, b.word, d.addr]
  | .halt => []

end Sys2Proof
end

