-- ==== Sys2Proof/Machine/State.lean ====
section
/-! DEFINITION. The state of the block (10_state.md), as plain data, and the state after reset. INVENTORY.md lists
every field with the rule that names it. -/

namespace Sys2Proof.Machine

/-- One word of memory at a word address; there are no bytes (20_memory.md R71, R77). -/
abbrev Cell := Nat × Int

/-- A memory or the program store: its words by rising address, a word that reads 0 not listed (`Memory.wf`, log
entry 5). -/
abbrev Memory := List Cell

/-- `STATE` (10_state.md R36). -/
inductive EngineState where
  | running
  | suspendedOnInput
  | halted
  | faulted
deriving DecidableEq, Repr

/-- `FAULT_CAUSE` (60_exceptions.md R302). -/
inductive FaultCause where
  | noFault
  | fetchOob
  | illegalOpcode
  | illegalMode
  | truncated
  | readOob
  | writeOob
  | overflow
  | outputFull
deriving DecidableEq, Repr

/-- What `raise Fault(cause, info)` is given (60_exceptions.md R301). -/
structure Trap where
  cause : FaultCause
  info : Int
deriving DecidableEq, Repr

/-- One machine instance (10_state.md R30). Queues hold their oldest entry first. -/
structure Instance where
  /-- `mem` (10_state.md R32) -/
  mem : Memory
  /-- `L` (10_state.md R31) -/
  len : Nat
  /-- `ip`, an unbounded integer as 10_state.md R35 allows -/
  ip : Int
  /-- `IQ` (10_state.md R41) -/
  iq : List Int
  /-- `OQ` (10_state.md R42) -/
  oq : List Int
  /-- `halted` (10_state.md R38) -/
  halted : Bool
  /-- `STATE` (10_state.md R36) -/
  state : EngineState
  /-- `ACTIVE` (10_state.md R37) -/
  active : Bool
  /-- `FAULT_CAUSE` (10_state.md R40) -/
  faultCause : FaultCause
  /-- `FAULT_IP` (10_state.md R40) -/
  faultIp : Int
  /-- `FAULT_INFO` (10_state.md R40) -/
  faultInfo : Int
deriving DecidableEq, Repr

/-- `RSTATE` (10_state.md R44). -/
inductive RingState where
  | idle
  | running
  | done
  | faulted
deriving DecidableEq, Repr

/-- `RFAULT` (10_state.md R44). -/
inductive RingFault where
  | noFault
  | instanceFault
  | inputFull
deriving DecidableEq, Repr

/-- Which of its two steps the scheduler takes next (60_exceptions.md R344). -/
inductive RingPhase where
  | issue
  | collect
deriving DecidableEq, Repr

/-- The host operations (60_exceptions.md R320 to R331, R341). -/
inductive HostOp where
  | loadProgram (ws : List Int)
  | instantiate (i : Nat)
  | pushInput (i : Nat) (v : Int)
  | popOutput (i : Nat)
  | resume (i : Nat)
  /-- READ_REG of register number `r`; `i` is the instance for numbers below 0x40 and unused above. -/
  | readReg (i r : Nat)
  | readMem (i : Nat) (a : Int)
  | writeReg (r : Nat) (v : Int)
  | ringStart
deriving DecidableEq, Repr

/-- What a host operation returns (60_exceptions.md R329). -/
inductive Reply where
  | ok
  | busy
  | full
  | noValue
  | value (v : Int)
  | oob
  | illegal
  | tooLong
  | started
  | ignored
deriving DecidableEq, Repr

/-- One atomic step of one agent: the total order of 20_memory.md R85 is a sequence of these. -/
inductive Event where
  /-- a host operation -/
  | host (op : HostOp)
  /-- the engine of instance `i` takes its step -/
  | engine (i : Nat)
  /-- the scheduler takes its step -/
  | scheduler
  /-- the reset input (70_reset_and_hazards.md R380) -/
  | reset
deriving DecidableEq, Repr

/-- The state of the block (10_state.md R30, R43, R44), and the model's own `cfg`, `cur`, `turn`, `pending` and
`reply`. -/
structure State where
  /-- the parameters (00_scope.md R8); no step changes them (log entry 2) -/
  cfg : Config
  /-- the instances `0 .. N_MAX-1` (10_state.md R30) -/
  insts : List Instance
  /-- `PROG` (10_state.md R43) -/
  prog : Memory
  /-- `PLEN` (10_state.md R43) -/
  plen : Nat
  /-- `RSTATE` (10_state.md R44) -/
  rstate : RingState
  /-- `RFAULT` (10_state.md R44) -/
  rfault : RingFault
  /-- `RING_N` (10_state.md R44) -/
  ringN : Nat
  /-- `RING_CUR` (10_state.md R44) -/
  ringCur : Nat
  /-- `CARRIED` (10_state.md R44) -/
  carried : Int
  /-- `SEED` (10_state.md R44) -/
  seed : Int
  /-- `PHASE[0 .. N_MAX-1]` (10_state.md R44) -/
  phase : List Int
  /-- `RING_FAULT_INST` (10_state.md R44) -/
  ringFaultInst : Nat
  /-- the scheduler's next step, ISSUE or COLLECT (60_exceptions.md R344) -/
  rphase : RingPhase
  /-- the instance whose instruction `exec` executes (log entry 4) -/
  cur : Nat
  /-- where the fair round robin looks first (log entry 3) -/
  turn : Nat
  /-- the coming events, oldest first (log entry 3) -/
  pending : List Event
  /-- what the last host operation returned (log entry 14) -/
  reply : Option Reply
deriving DecidableEq, Repr

/-- Why the model stops with a fault. A fault of the spec is no stop: it is a next state (`Instance.raise`). -/
inductive Fault where
  /-- An agent or a host operation names an instance index that the block does not have. Raised by host
  operations, engine and scheduler steps, and `exec` when `cur` is no instance. Safe: the spec gives the block the
  instances `0 .. N_MAX-1` and no others (60_exceptions.md R360; log entry 8). -/
  | noSuchInstance (i : Nat)
deriving DecidableEq, Repr

/-- Why the model refuses a step. -/
inductive Refusal where
  /-- Raised by `exec`'s arm of an instruction that has no meaning yet. Safe. -/
  | notModelled (mnemonic : String)
  /-- Raised by PUSH_INPUT and LOAD_PROGRAM on a value outside `[WMIN, WMAX]`, which "cannot be presented"
  (92_eei_decisions.md D33). Safe (log entry 9). -/
  | notAWord (v : Int)
deriving DecidableEq, Repr

/-- An instance after reset (10_state.md R48). -/
def Instance.atReset : Instance :=
  { mem := [], len := 0, ip := 0, iq := [], oq := [], halted := false, state := .running, active := false,
    faultCause := .noFault, faultIp := 0, faultInfo := 0 }

/-- The block with parameters `c` after reset (10_state.md R48, 70_reset_and_hazards.md R380). -/
def State.resetOf (c : Config) : State :=
  { cfg := c, insts := List.replicate c.nMax Instance.atReset, prog := [], plen := 0, rstate := .idle,
    rfault := .noFault, ringN := 1, ringCur := 0, carried := 0, seed := 0, phase := List.replicate c.nMax 0,
    ringFaultInst := 0, rphase := .issue, cur := 0, turn := 0, pending := [], reply := none }

/-- The block right after reset, with the parameters of `Config.standard`. -/
def State.reset : State := State.resetOf Config.standard

end Sys2Proof.Machine
end

