-- ==== Sys2Proof/Machine/Ops.lean ====
section
/-! DEFINITION. The named operations over memory, instances and the block that the meanings, the host operations
and the scheduler share: reading and writing a word, the bound check, raising a fault, suspending, resuming,
instantiating, and running an instruction's effect on the current instance.

There is no return from a fault (60_exceptions.md R313): an instance leaves FAULTED only by `Instance.instantiate`
or reset (R304). -/

namespace Sys2Proof.Machine

/-! ### The numbers of the status fields -/

/-- The value of STATUS[1:0] (10_state.md R36). -/
def EngineState.code : EngineState → Nat
  | .running => 0
  | .suspendedOnInput => 1
  | .halted => 2
  | .faulted => 3

/-- The cause codes (60_exceptions.md R302). -/
def FaultCause.code : FaultCause → Nat
  | .noFault => 0
  | .fetchOob => 1
  | .illegalOpcode => 2
  | .illegalMode => 3
  | .truncated => 4
  | .readOob => 5
  | .writeOob => 6
  | .overflow => 7
  | .outputFull => 8

/-- The value of RING_STATUS[1:0] (10_state.md R44). -/
def RingState.code : RingState → Nat
  | .idle => 0
  | .running => 1
  | .done => 2
  | .faulted => 3

/-- The value of RING_STATUS[3:2] (10_state.md R44). -/
def RingFault.code : RingFault → Nat
  | .noFault => 0
  | .instanceFault => 1
  | .inputFull => 2

/-! ### Memory -/

/-- The word at an address; an address not listed reads 0 (log entry 5). -/
def Memory.read : Memory → Nat → Int
  | [], _ => 0
  | (b, v) :: m, a => if a = b then v else Memory.read m a

/-- Setting the word at an address, keeping the canonical form. -/
def Memory.write : Memory → Nat → Int → Memory
  | [], a, v => if v = 0 then [] else [(a, v)]
  | (b, u) :: m, a, v =>
    if a < b then (if v = 0 then (b, u) :: m else (a, v) :: (b, u) :: m)
    else if a = b then (if v = 0 then m else (a, v) :: m)
    else (b, u) :: Memory.write m a v

/-- The canonical form: addresses strictly rising, no word listed that an unlisted address reads as. -/
abbrev Memory.wf (m : Memory) : Prop :=
  List.Pairwise (fun x y : Cell => x.1 < y.1) m ∧ ∀ x ∈ m, x.2 ≠ 0

/-- The memory that holds the words of a list from address `a` on, and 0 elsewhere. -/
def Memory.ofWords : Nat → List Int → Memory
  | _, [] => []
  | a, w :: ws => if w = 0 then Memory.ofWords (a + 1) ws else (a, w) :: Memory.ofWords (a + 1) ws

/-- Setting the words from address `a` on to those of a list. -/
def Memory.writeAll : Memory → Nat → List Int → Memory
  | m, _, [] => m
  | m, a, w :: ws => Memory.writeAll (m.write a w) (a + 1) ws

/-- `dst` with its words below `n` replaced by those of `src` (10_state.md R50). -/
def Memory.copyBelow (n : Nat) (src dst : Memory) : Memory :=
  src.filter (fun x => decide (x.1 < n)) ++ dst.filter (fun x => decide (n ≤ x.1))

/-! ### One instance -/

/-- An address is in bounds exactly when `0 ≤ a < L` (20_memory.md R72). -/
def Instance.inBounds (m : Instance) (a : Int) : Bool := decide (0 ≤ a ∧ a < (m.len : Int))

/-- `MemRead(a, 1)`, for an address in bounds (00_scope.md R10). -/
def Instance.wordAt (m : Instance) (a : Int) : Int := m.mem.read a.toNat

/-- `MemWrite(a, 1, v)`, for an address in bounds (00_scope.md R10). -/
def Instance.setWord (m : Instance) (a : Int) (v : Int) : Instance :=
  { m with mem := m.mem.write a.toNat v }

/-- `ip <- ip + n`, on unbounded integers (10_state.md R35). -/
def Instance.advance (m : Instance) (n : Int) : Instance := { m with ip := m.ip + n }

/-- `ip <- t`, unchecked (43_jumps.md R204). -/
def Instance.jump (m : Instance) (t : Int) : Instance := { m with ip := t }

/-- `raise Fault(cause, info)`: what taking a fault writes, and nothing else (60_exceptions.md R301). -/
def Instance.raise (m : Instance) (t : Trap) : Instance :=
  { m with state := .faulted, active := false, faultCause := t.cause, faultIp := m.ip, faultInfo := t.info }

/-- `suspend` (40_execution_cycle.md R160). -/
def Instance.suspend (m : Instance) : Instance := { m with state := .suspendedOnInput, active := false }

/-- What HALT writes (45_halt.md R220). -/
def Instance.stop (m : Instance) : Instance := { m with state := .halted, halted := true, active := false }

/-- `push(IQ, v)` (00_scope.md R10). -/
def Instance.pushInput (m : Instance) (v : Int) : Instance := { m with iq := m.iq ++ [v] }

/-- `push(OQ, v)` (00_scope.md R10). -/
def Instance.pushOutput (m : Instance) (v : Int) : Instance := { m with oq := m.oq ++ [v] }

/-- `pop(IQ)` (00_scope.md R10). -/
def Instance.popInput (m : Instance) : Instance := { m with iq := m.iq.tail }

/-- `pop(OQ)` (00_scope.md R10). -/
def Instance.popOutput (m : Instance) : Instance := { m with oq := m.oq.tail }

/-- RESUME's table (40_execution_cycle.md R141): the instance after it and what it returns. -/
def Instance.resume (m : Instance) : Instance × Reply :=
  if m.active then (m, .ignored)
  else match m.state with
    | .running => ({ m with active := true }, .started)
    | .suspendedOnInput => ({ m with state := .running, active := true }, .started)
    | .halted => (m, .ignored)
    | .faulted => (m, .ignored)

/-- Instantiation from the program store (10_state.md R50). -/
def Instance.instantiate (prog : Memory) (plen : Nat) (m : Instance) : Instance :=
  { mem := Memory.copyBelow plen prog m.mem, len := plen, ip := 0, iq := [], oq := [], halted := false,
    state := .running, active := false, faultCause := .noFault, faultIp := 0, faultInfo := 0 }

/-- The end of a step: the effect is committed whole, or the fault is raised on the instance as it was before the
step (40_execution_cycle.md R149, R152). -/
def Instance.conclude (m : Instance) (r : Except Trap Instance) : Instance :=
  match r with
  | .ok m' => m'
  | .error t => m.raise t

/-! ### The block -/

/-- The block with instance `i` replaced. -/
def State.setInst (s : State) (i : Nat) (m : Instance) : State := { s with insts := s.insts.set i m }

/-- Acts on instance `i`; there is no other than `0 .. N_MAX-1` (60_exceptions.md R360, log entry 8). -/
def State.onInst (s : State) (i : Nat) (f : Instance → Host.Outcome State Fault Refusal) :
    Host.Outcome State Fault Refusal :=
  match s.insts[i]? with
  | some m => f m
  | none => .fault (.noSuchInstance i)

/-- Runs the effect of an instruction on the current instance: one atomic step of its engine
(40_execution_cycle.md R144, R149). -/
def State.runCur (s : State) (effect : Config → Instance → Except Trap Instance) :
    Host.Outcome State Fault Refusal :=
  s.onInst s.cur (fun m => .next (s.setInst s.cur (m.conclude (effect s.cfg m))))

/-- The block after the reset input: every field of the spec as 10_state.md R48 gives it; the parameters and the
coming events are kept (log entries 2, 3, 5). -/
def State.resetInput (s : State) : State := { State.resetOf s.cfg with pending := s.pending }

end Sys2Proof.Machine
end

