-- ==== Sys2Proof/Machine/Arbiter.lean ====
section
/-! DEFINITION. Which agent moves next. The spec fixes no order between the host, the engines and the scheduler but
asks that every step be atomic and that an active instance eventually step (20_memory.md R85, 40_execution_cycle.md
R166): the coming events of `pending` are taken first, whatever they are, and when there is none a round robin
over the engines and the scheduler decides (log entry 3). -/

namespace Sys2Proof.Machine

/-- The engine of instance `i` can move: its ACTIVE is 1 (40_execution_cycle.md R140). -/
def State.engineReady (s : State) (i : Nat) : Bool :=
  match s.insts[i]? with
  | some m => m.active
  | none => false

/-- The scheduler can move: in ring mode, unless it waits for the visited member's run to end
(60_exceptions.md R344). -/
def State.schedulerReady (s : State) : Bool :=
  decide (s.rstate = .running) && (decide (s.rphase = .issue) || !s.engineReady s.ringCur)

/-- Agent `k`: the engine of instance `k`, and the scheduler after the last of them. -/
def State.agentReady (s : State) (k : Nat) : Bool :=
  if k < s.insts.length then s.engineReady k else s.schedulerReady

/-- The agents in the order of the round robin, from `turn` on. -/
def State.rota (s : State) : List Nat :=
  (List.range (s.insts.length + 1)).map (fun k => (s.turn + k) % (s.insts.length + 1))

/-- The event in which agent `k` moves. -/
def State.agentEvent (s : State) (k : Nat) : Event := if k < s.insts.length then .engine k else .scheduler

/-- The next event and the block once it is chosen; none when no event is coming and no agent can move. -/
def State.nextEvent (s : State) : Option (Event × State) :=
  match s.pending with
  | e :: rest => some (e, { s with pending := rest })
  | [] =>
    match s.rota.find? s.agentReady with
    | some k => some (s.agentEvent k, { s with turn := k + 1 })
    | none => none

end Sys2Proof.Machine
end

