-- ==== Sys2Proof/Machine/Flags.lean ====
section
/-! DEFINITION. What instructions compute from their values: the checked sum and product and the comparison
results. The instance has no condition codes, carry or overflow flag (10_state.md R39); its only flag, `halted`,
is set by `Instance.stop`. -/

namespace Sys2Proof.Machine

/-- An exact result, or OVERFLOW with info 0 when it is no word (41_arithmetic.md R181, R183, R184). -/
def checked (c : Config) (r : Int) : Except Trap Int :=
  if c.InRange r then .ok r else .error ⟨.overflow, 0⟩

/-- The checked sum (41_arithmetic.md R180). -/
def sum (c : Config) (x y : Int) : Except Trap Int := checked c (x + y)

/-- The checked product (41_arithmetic.md R182). -/
def product (c : Config) (x y : Int) : Except Trap Int := checked c (x * y)

/-- A comparison's result: exactly 1 or 0 (44_compare.md R211). -/
def truth (b : Bool) : Int := if b then 1 else 0

/-- The signed comparison `x < y` (44_compare.md R210). -/
def isLess (x y : Int) : Except Trap Int := .ok (truth (decide (x < y)))

/-- The comparison `x = y` (44_compare.md R212). -/
def isEqual (x y : Int) : Except Trap Int := .ok (truth (decide (x = y)))

end Sys2Proof.Machine
end

