-- ==== Sys2Proof/Machine/Operands.lean ====
section
/-! DEFINITION. Every operand form: a value in POSITION or IMMEDIATE mode, and a destination; and the two shapes of
instruction that several opcodes share. -/

namespace Sys2Proof.Machine

/-- `value(k)` (30_encoding.md R106). An immediate is the whole operand word (R108). -/
def Instance.value (m : Instance) (o : Operand) : Except Trap Int :=
  match o.mode with
  | .immediate => .ok o.word
  | .position => if m.inBounds o.word then .ok (m.wordAt o.word) else .error ⟨.readOob, o.word⟩

/-- The write of a destination operand, whatever its digit (30_encoding.md R107, 20_memory.md R72). -/
def Instance.store (m : Instance) (d : Dest) (v : Int) : Except Trap Instance :=
  if m.inBounds d.addr then .ok (m.setWord d.addr v) else .error ⟨.writeOob, d.addr⟩

/-- Format F3: both values are resolved, operand 1 first, then the result is computed, then the destination is
checked and written, and `ip` advances by 4 (40_execution_cycle.md R150 orders 5, 7, 8; 20_memory.md R76). -/
def Instance.binary (m : Instance) (a b : Operand) (f : Int → Int → Except Trap Int) (d : Dest) :
    Except Trap Instance := do
  let x ← m.value a
  let y ← m.value b
  let r ← f x y
  let m' ← m.store d r
  return m'.advance 4

/-- Format F2: both operands are resolved, taken or not (43_jumps.md R203), then `ip` is set to the target or
advances by 3. -/
def Instance.branch (m : Instance) (cond target : Operand) (taken : Int → Bool) : Except Trap Instance := do
  let c ← m.value cond
  let t ← m.value target
  return if taken c then m.jump t else m.advance 3

end Sys2Proof.Machine
end

