-- ==== Sys2Proof/Machine/Arithmetic.lean ====
section
/-! DEFINITION. ADD and MULT (41_arithmetic.md). -/

namespace Sys2Proof.Machine

/-- ADD (41_arithmetic.md R180, R181). -/
def execAdd (a b : Operand) (dst : Dest) (s : State) : Host.Outcome State Fault Refusal :=
  s.runCur (fun c m => m.binary a b (sum c) dst)

/-- MULT (41_arithmetic.md R182, R183). -/
def execMult (a b : Operand) (dst : Dest) (s : State) : Host.Outcome State Fault Refusal :=
  s.runCur (fun c m => m.binary a b (product c) dst)

end Sys2Proof.Machine
end

