-- ==== Sys2Proof/Machine/Compare.lean ====
section
/-! DEFINITION. LESS_THAN and EQUALS (44_compare.md). -/

namespace Sys2Proof.Machine

/-- LESS_THAN (44_compare.md R210). -/
def execLessThan (a b : Operand) (dst : Dest) (s : State) : Host.Outcome State Fault Refusal :=
  s.runCur (fun _ m => m.binary a b isLess dst)

/-- EQUALS (44_compare.md R212). -/
def execEquals (a b : Operand) (dst : Dest) (s : State) : Host.Outcome State Fault Refusal :=
  s.runCur (fun _ m => m.binary a b isEqual dst)

end Sys2Proof.Machine
end

