-- ==== Sys2Proof/Machine/InOut.lean ====
section
/-! DEFINITION. INPUT and OUTPUT (42_io.md). -/

namespace Sys2Proof.Machine

/-- INPUT's effect (42_io.md R190): with an empty queue it suspends before the destination is checked; otherwise
the destination is checked before the queue is popped. -/
def Instance.takeInput (m : Instance) (d : Dest) : Except Trap Instance :=
  match m.iq with
  | [] => .ok m.suspend
  | v :: _ => do
    let m' ← m.store d v
    return m'.popInput.advance 2

/-- OUTPUT's effect (42_io.md R192, R193). -/
def Instance.giveOutput (m : Instance) (c : Config) (a : Operand) : Except Trap Instance := do
  let x ← m.value a
  if m.oq.length = c.outDepth then .error ⟨.outputFull, x⟩
  else .ok ((m.pushOutput x).advance 2)

/-- INPUT (42_io.md R190, R191). -/
def execInput (dst : Dest) (s : State) : Host.Outcome State Fault Refusal :=
  s.runCur (fun _ m => m.takeInput dst)

/-- OUTPUT (42_io.md R192, R193, R194). -/
def execOutput (a : Operand) (s : State) : Host.Outcome State Fault Refusal :=
  s.runCur (fun c m => m.giveOutput c a)

end Sys2Proof.Machine
end

