-- ==== Sys2Proof/Machine/Jump.lean ====
section
/-! DEFINITION. JUMP_IF_TRUE and JUMP_IF_FALSE (43_jumps.md). -/

namespace Sys2Proof.Machine

/-- JUMP_IF_TRUE (43_jumps.md R200): any nonzero condition jumps. -/
def execJumpIfTrue (cond target : Operand) (s : State) : Host.Outcome State Fault Refusal :=
  s.runCur (fun _ m => m.branch cond target (fun c => decide (c ≠ 0)))

/-- JUMP_IF_FALSE (43_jumps.md R202): only a zero condition jumps. -/
def execJumpIfFalse (cond target : Operand) (s : State) : Host.Outcome State Fault Refusal :=
  s.runCur (fun _ m => m.branch cond target (fun c => decide (c = 0)))

end Sys2Proof.Machine
end

