-- ==== Sys2Proof/Machine/System.lean ====
section
/-! DEFINITION. HALT, the only system instruction (45_halt.md). -/

namespace Sys2Proof.Machine

/-- HALT (45_halt.md R220): `ip` keeps the address of the HALT word. -/
def execHalt (s : State) : Host.Outcome State Fault Refusal :=
  s.runCur (fun _ m => .ok m.stop)

end Sys2Proof.Machine
end

