-- ==== Sys2Proof/Decode.lean ====
section
/-! DEFINITION. The decoder of 30_encoding.md R109 on a list of words, total, with a named verdict for every list
it refuses, and the encoder of R117 after it. Instruction fields are decimal digits; `quot` and `rem` truncate
(00_scope.md R10, R11), which is `Int.tdiv` and `Int.tmod`. -/

namespace Sys2Proof

/-- The opcodes (30_encoding.md R102, R116). -/
inductive Opcode where
  | add | mult | input | output | jumpIfTrue | jumpIfFalse | lessThan | equals | halt
deriving DecidableEq, Repr

/-- Every opcode, once. -/
def Opcode.all : List Opcode :=
  [.add, .mult, .input, .output, .jumpIfTrue, .jumpIfFalse, .lessThan, .equals, .halt]

/-- The opcode's value, `match` in spec/opcode_table.json. -/
def Opcode.code : Opcode → Int
  | .add => 1
  | .mult => 2
  | .input => 3
  | .output => 4
  | .jumpIfTrue => 5
  | .jumpIfFalse => 6
  | .lessThan => 7
  | .equals => 8
  | .halt => 99

/-- The opcode's number of operands `n` (30_encoding.md R104). -/
def Opcode.operands : Opcode → Nat
  | .add => 3
  | .mult => 3
  | .input => 1
  | .output => 1
  | .jumpIfTrue => 2
  | .jumpIfFalse => 2
  | .lessThan => 3
  | .equals => 3
  | .halt => 0

/-- `10^k`, the weight of decimal digit `k`. -/
def weight : Nat → Int
  | 0 => 1
  | k + 1 => 10 * weight k

/-- `digit_k(w) = (w quot 10^k) rem 10` (00_scope.md R10). -/
def digit (k : Nat) (w : Int) : Int := (w.tdiv (weight k)).tmod 10

/-- The opcode of an instruction word: the one whose code is `w rem 100` (30_encoding.md R102, R109). -/
def opcodeOf (w : Int) : Option Opcode :=
  Opcode.all.find? (fun op => decide (op.code = w.tmod 100))

/-- The mode a digit stands for; digits 2 to 9 stand for none (30_encoding.md R103). -/
def modeOf (x : Int) : Option Mode :=
  if x = 0 then some .position else if x = 1 then some .immediate else none

/-- `m_k`, the mode of operand `k ≥ 1`: digit `k + 1` of the instruction word (30_encoding.md R101). -/
def modeDigit (k : Nat) (w : Int) : Option Mode := modeOf (digit (k + 1) w)

/-- No digit above the last of `n` operands is set: `(w quot 10^(n+2)) = 0` (30_encoding.md R109). -/
def clearAbove (n : Nat) (w : Int) : Bool := decide (w.tdiv (weight (n + 2)) = 0)

/-- Why a list of words is not an instruction. -/
inductive DecodeError where
  /-- There is no word at all. -/
  | empty
  /-- `w rem 100` is no opcode (30_encoding.md R112). -/
  | illegalOpcode (w : Int)
  /-- A mode digit in 2..9, or a digit above the last operand (30_encoding.md R113). -/
  | illegalMode (w : Int)
  /-- Operand word `k` is the first one missing (40_execution_cycle.md R148). -/
  | truncated (k : Nat)
deriving DecidableEq, Repr

/-- Format F0: no operand (30_encoding.md R105). -/
def decode0 (i : Instr) (w : Int) (ws : List Int) : Except DecodeError (Instr × List Int) :=
  if clearAbove 0 w then .ok (i, ws) else .error (.illegalMode w)

/-- Formats F1v and F1d: one operand (30_encoding.md R105). -/
def decode1 (mk : Mode → Int → Instr) (w : Int) (ws : List Int) :
    Except DecodeError (Instr × List Int) :=
  match modeDigit 1 w with
  | some m1 =>
    if clearAbove 1 w then
      match ws with
      | p1 :: rest => .ok (mk m1 p1, rest)
      | [] => .error (.truncated 1)
    else .error (.illegalMode w)
  | none => .error (.illegalMode w)

/-- Format F2: two operands (30_encoding.md R105). -/
def decode2 (mk : Operand → Operand → Instr) (w : Int) (ws : List Int) :
    Except DecodeError (Instr × List Int) :=
  match modeDigit 1 w, modeDigit 2 w with
  | some m1, some m2 =>
    if clearAbove 2 w then
      match ws with
      | p1 :: p2 :: rest => .ok (mk ⟨m1, p1⟩ ⟨m2, p2⟩, rest)
      | short => .error (.truncated (short.length + 1))
    else .error (.illegalMode w)
  | _, _ => .error (.illegalMode w)

/-- Format F3: three operands, the third a destination (30_encoding.md R105). -/
def decode3 (mk : Operand → Operand → Dest → Instr) (w : Int) (ws : List Int) :
    Except DecodeError (Instr × List Int) :=
  match modeDigit 1 w, modeDigit 2 w, modeDigit 3 w with
  | some m1, some m2, some m3 =>
    if clearAbove 3 w then
      match ws with
      | p1 :: p2 :: p3 :: rest => .ok (mk ⟨m1, p1⟩ ⟨m2, p2⟩ ⟨m3, p3⟩, rest)
      | short => .error (.truncated (short.length + 1))
    else .error (.illegalMode w)
  | _, _, _ => .error (.illegalMode w)

/-- Decoding (30_encoding.md R109 for the instruction word, 40_execution_cycle.md R148 for its operand words):
the instruction that the list begins with and the words after it, or the verdict. The opcode is checked first,
then the digits, then the operand words. -/
def decode : List Int → Except DecodeError (Instr × List Int)
  | [] => .error .empty
  | w :: ws =>
    match opcodeOf w with
    | none => .error (.illegalOpcode w)
    | some .add => decode3 .add w ws
    | some .mult => decode3 .mult w ws
    | some .input => decode1 (fun m p => .input ⟨m, p⟩) w ws
    | some .output => decode1 (fun m p => .output ⟨m, p⟩) w ws
    | some .jumpIfTrue => decode2 .jumpIfTrue w ws
    | some .jumpIfFalse => decode2 .jumpIfFalse w ws
    | some .lessThan => decode3 .lessThan w ws
    | some .equals => decode3 .equals w ws
    | some .halt => decode0 .halt w ws

/-- The digit of a mode (30_encoding.md R103). -/
def Mode.toDigit : Mode → Int
  | .position => 0
  | .immediate => 1

/-- The instruction word `op + m_1·100 + m_2·1000 + m_3·10000` (30_encoding.md R105, R117); an operand the opcode
lacks has digit 0, which is POSITION's. -/
def instrWord (op : Opcode) (m1 m2 m3 : Mode) : Int :=
  op.code + m1.toDigit * weight 2 + m2.toDigit * weight 3 + m3.toDigit * weight 4

/-- The words of an instruction (30_encoding.md R117). -/
def encode : Instr → List Int
  | .add a b d => [instrWord .add a.mode b.mode d.digit, a.word, b.word, d.addr]
  | .mult a b d => [instrWord .mult a.mode b.mode d.digit, a.word, b.word, d.addr]
  | .input d => [instrWord .input d.digit .position .position, d.addr]
  | .output a => [instrWord .output a.mode .position .position, a.word]
  | .jumpIfTrue c t => [instrWord .jumpIfTrue c.mode t.mode .position, c.word, t.word]
  | .jumpIfFalse c t => [instrWord .jumpIfFalse c.mode t.mode .position, c.word, t.word]
  | .lessThan a b d => [instrWord .lessThan a.mode b.mode d.digit, a.word, b.word, d.addr]
  | .equals a b d => [instrWord .equals a.mode b.mode d.digit, a.word, b.word, d.addr]
  | .halt => [instrWord .halt .position .position .position]

/-- The integer that `wb` bits hold in two's complement (00_scope.md R9); bits above are ignored. -/
def wordOfBits (wb : Nat) (n : Nat) : Int :=
  let r := n % 2 ^ wb
  if r < 2 ^ (wb - 1) then (r : Int) else (r : Int) - (2 ^ wb : Nat)

/-- The four words of `wb` bits, the first from the least significant bits, that the low `nbits` bits of a number
hold: how the host's numbering of an instruction's bits is laid out in words (log entry 15). -/
def wordsOfBits (wb nbits w : Nat) : List Int :=
  let v := w % 2 ^ nbits
  [wordOfBits wb v, wordOfBits wb (v / 2 ^ wb), wordOfBits wb (v / 2 ^ (2 * wb)), wordOfBits wb (v / 2 ^ (3 * wb))]

/-- The instruction the decoder reads from the bits of `w`, with words of the spec's default width, 64 bits
(log entry 15). -/
def decodeTableWord (nbits w : Nat) : Option Instr :=
  match decode (wordsOfBits Config.standard.wordBits nbits w) with
  | .ok (i, _) => some i
  | .error _ => none

end Sys2Proof
end

