-- ==== Sys2Proof/Machine/Fetch.lean ====
section
/-! DEFINITION. Fetching an instruction: the words at `ip`, decoded, or the fault that stops the fetch
(40_execution_cycle.md R143, R145, R146, R148). -/

namespace Sys2Proof.Machine

/-- The words from `ip` on that an instruction can take: up to four, as far as they are in bounds. -/
def Instance.window (m : Instance) : List Int :=
  (([0, 1, 2, 3].map (fun k : Int => m.ip + k)).takeWhile m.inBounds).map m.wordAt

/-- The fault of a fetch that the decoder refuses (60_exceptions.md R302, causes 1 to 4). -/
def Instance.fetchTrap (m : Instance) : DecodeError → Trap
  | .empty => ⟨.fetchOob, m.ip⟩
  | .illegalOpcode w => ⟨.illegalOpcode, w⟩
  | .illegalMode w => ⟨.illegalMode, w⟩
  | .truncated k => ⟨.truncated, m.ip + k⟩

/-- The instruction at `ip`, or the fault of fetching it (40_execution_cycle.md R143, R150 orders 1 to 4). -/
def Instance.fetch (m : Instance) : Except Trap Instr :=
  match decode m.window with
  | .ok (i, _) => .ok i
  | .error e => .error (m.fetchTrap e)

end Sys2Proof.Machine
end

