-- ==== Sys2Proof/Machine/HostOps.lean ====
section
/-! DEFINITION. The host operations and the register map (60_exceptions.md R320 to R331, R341; 10_state.md R45 to
R47). Each is one atomic step that leaves what it returns in `reply`. -/

namespace Sys2Proof.Machine

/-- The state after a host operation that returns `r`. -/
def State.answer (s : State) (r : Reply) : State := { s with reply := some r }

/-- An operation that ring mode turns away (60_exceptions.md R328). -/
def State.unlessRing (s : State) (k : Host.Outcome State Fault Refusal) : Host.Outcome State Fault Refusal :=
  if s.rstate = .running then .next (s.answer .busy) else k

/-! ### The register map -/

/-- STATUS (10_state.md R45). -/
def Instance.status (m : Instance) : Int :=
  (m.state.code : Int) + (if m.active then 4 else 0) + (if m.halted then 8 else 0)

/-- The registers 0x00 to 0x07 of an instance (10_state.md R45). -/
def Instance.register (m : Instance) (r : Nat) : Option Int :=
  match r with
  | 0 => some m.status
  | 1 => some m.ip
  | 2 => some m.len
  | 3 => some m.faultCause.code
  | 4 => some m.faultIp
  | 5 => some m.faultInfo
  | 6 => some m.iq.length
  | 7 => some m.oq.length
  | _ => none

/-- RING_STATUS (10_state.md R46). -/
def State.ringStatus (s : State) : Int := (s.rstate.code : Int) + 4 * s.rfault.code

/-- The shared registers, 0x40 and up (10_state.md R46). -/
def State.sharedRegister (s : State) (r : Nat) : Option Int :=
  if 128 ≤ r then s.phase[r - 128]?
  else match r with
    | 64 => some s.ringStatus
    | 65 => some s.ringN
    | 66 => some s.ringCur
    | 67 => some s.carried
    | 68 => some s.seed
    | 69 => some s.ringFaultInst
    | 70 => some s.plen
    | _ => none

/-- What reading a register returns (60_exceptions.md R325). -/
def regReply : Option Int → Reply
  | some v => .value v
  | none => .illegal

/-! ### The operations -/

/-- LOAD_PROGRAM (60_exceptions.md R330); words that do not fit cannot be presented (log entry 9). -/
def hostLoadProgram (ws : List Int) (s : State) : Host.Outcome State Fault Refusal :=
  s.unlessRing
    (match ws.find? (fun w => decide (¬ s.cfg.InRange w)) with
     | some w => .refused (.notAWord w)
     | none =>
       if s.cfg.memWords < ws.length then .next (s.answer .tooLong)
       else .next (State.answer { s with
         prog := Memory.copyBelow ws.length (Memory.ofWords 0 ws) s.prog, plen := ws.length } .ok))

/-- INSTANTIATE (60_exceptions.md R331). -/
def hostInstantiate (i : Nat) (s : State) : Host.Outcome State Fault Refusal :=
  s.unlessRing (s.onInst i (fun m =>
    if m.active then .next (s.answer .busy)
    else .next ((s.setInst i (m.instantiate s.prog s.plen)).answer .ok)))

/-- PUSH_INPUT (60_exceptions.md R320); a value that does not fit cannot be presented (log entry 9). -/
def hostPushInput (i : Nat) (v : Int) (s : State) : Host.Outcome State Fault Refusal :=
  s.unlessRing (s.onInst i (fun m =>
    if s.cfg.InRange v then
      if m.iq.length = s.cfg.inDepth then .next (s.answer .full)
      else .next ((s.setInst i (m.pushInput v)).answer .ok)
    else .refused (.notAWord v)))

/-- POP_OUTPUT (60_exceptions.md R321). -/
def hostPopOutput (i : Nat) (s : State) : Host.Outcome State Fault Refusal :=
  s.unlessRing (s.onInst i (fun m =>
    match m.oq with
    | [] => .next (s.answer .noValue)
    | v :: _ => .next ((s.setInst i m.popOutput).answer (.value v))))

/-- RESUME (60_exceptions.md R322). -/
def hostResume (i : Nat) (s : State) : Host.Outcome State Fault Refusal :=
  s.unlessRing (s.onInst i (fun m => .next ((s.setInst i m.resume.1).answer m.resume.2)))

/-- READ_REG, accepted at any time (60_exceptions.md R325). -/
def hostReadReg (i r : Nat) (s : State) : Host.Outcome State Fault Refusal :=
  if r < 64 then s.onInst i (fun m => .next (s.answer (regReply (m.register r))))
  else .next (s.answer (regReply (s.sharedRegister r)))

/-- READ_MEM (60_exceptions.md R326). -/
def hostReadMem (i : Nat) (a : Int) (s : State) : Host.Outcome State Fault Refusal :=
  s.unlessRing (s.onInst i (fun m =>
    if m.active then .next (s.answer .busy)
    else if m.inBounds a then .next (s.answer (.value (m.wordAt a)))
    else .next (s.answer .oob)))

/-- WRITE_REG (60_exceptions.md R327, 10_state.md R47): RING_N, SEED and PHASE[i] only. -/
def hostWriteReg (r : Nat) (v : Int) (s : State) : Host.Outcome State Fault Refusal :=
  s.unlessRing
    (if r = 65 then
      if 1 ≤ v ∧ v ≤ (s.cfg.nMax : Int) then .next (State.answer { s with ringN := v.toNat } .ok)
      else .next (s.answer .illegal)
    else if r = 68 then
      if s.cfg.InRange v then .next (State.answer { s with seed := v } .ok) else .next (s.answer .illegal)
    else if 128 ≤ r ∧ r < 128 + s.cfg.nMax then
      if s.cfg.InRange v then .next (State.answer { s with phase := s.phase.set (r - 128) v } .ok)
      else .next (s.answer .illegal)
    else .next (s.answer .illegal))

/-- A ring member as RING_START leaves it: instantiated, its phase queued (60_exceptions.md R341). -/
def State.ringMember (s : State) (j : Nat) (m : Instance) : Instance :=
  if j < s.ringN then (m.instantiate s.prog s.plen).pushInput (s.phase.getD j 0) else m

/-- RING_START may go ahead (60_exceptions.md R341). -/
def State.ringStartLegal (s : State) : Bool :=
  decide (1 ≤ s.ringN) && decide (s.ringN ≤ s.cfg.nMax) && (s.insts.take s.ringN).all (fun m => !m.active)

/-- RING_START (60_exceptions.md R341). -/
def hostRingStart (s : State) : Host.Outcome State Fault Refusal :=
  s.unlessRing
    (if s.ringStartLegal then
      .next (State.answer { s with
        insts := s.insts.mapIdx s.ringMember, carried := s.seed, ringCur := 0, rfault := .noFault,
        ringFaultInst := 0, rstate := .running, rphase := .issue } .ok)
    else .next (s.answer .illegal))

/-- One host operation (60_exceptions.md R324). -/
def hostStep (op : HostOp) (s : State) : Host.Outcome State Fault Refusal :=
  match op with
  | .loadProgram ws => hostLoadProgram ws s
  | .instantiate i => hostInstantiate i s
  | .pushInput i v => hostPushInput i v s
  | .popOutput i => hostPopOutput i s
  | .resume i => hostResume i s
  | .readReg i r => hostReadReg i r s
  | .readMem i a => hostReadMem i a s
  | .writeReg r v => hostWriteReg r v s
  | .ringStart => hostRingStart s

end Sys2Proof.Machine
end

