-- ==== Sys2Proof/Machine/Ring.lean ====
section
/-! DEFINITION. The scheduler and the ring multiplexer (60_exceptions.md R340 to R352). -/

namespace Sys2Proof.Machine

/-- ISSUE of a visit (60_exceptions.md R344): a HALTED member is neither pushed nor resumed; a full input queue
stops the ring. -/
def State.ringIssue (s : State) : Host.Outcome State Fault Refusal :=
  s.onInst s.ringCur (fun m =>
    if m.state = .halted then .next { s with rphase := .collect }
    else if m.iq.length = s.cfg.inDepth then
      .next { s with rstate := .faulted, rfault := .inputFull, ringFaultInst := s.ringCur }
    else .next { s.setInst s.ringCur (m.pushInput s.carried).resume.1 with rphase := .collect })

/-- `CARRIED <- head(OQ_i); pop(OQ_i)`, or nothing when `OQ_i` is empty (60_exceptions.md R344, R348). -/
def State.ringPop (s : State) (m : Instance) : State :=
  match m.oq with
  | [] => s
  | v :: _ => { s.setInst s.ringCur m.popOutput with carried := v }

/-- Every ring member is HALTED (60_exceptions.md R345). -/
def State.ringAllHalted (s : State) : Bool :=
  (s.insts.take s.ringN).all (fun m => decide (m.state = .halted))

/-- The end of a visit: DONE when every member is HALTED, else the next member (60_exceptions.md R344, R345). -/
def State.ringAdvance (s : State) : State :=
  if s.ringAllHalted then { s with rstate := .done }
  else { s with ringCur := (s.ringCur + 1) % s.ringN, rphase := .issue }

/-- COLLECT of a visit (60_exceptions.md R344, R346); until the member's run has ended the scheduler waits. -/
def State.ringCollect (s : State) : Host.Outcome State Fault Refusal :=
  s.onInst s.ringCur (fun m =>
    if m.active then .next s
    else if m.state = .faulted then
      .next { s with rstate := .faulted, rfault := .instanceFault, ringFaultInst := s.ringCur }
    else .next (s.ringPop m).ringAdvance)

/-- The scheduler's step; outside ring mode it takes none (60_exceptions.md R340). -/
def State.schedulerStep (s : State) : Host.Outcome State Fault Refusal :=
  if s.rstate = .running then
    match s.rphase with
    | .issue => s.ringIssue
    | .collect => s.ringCollect
  else .next s

end Sys2Proof.Machine
end

