-- ==== Sys2Proof/Machine/Engine.lean ====
section
/-! DEFINITION. The step of an execution engine, and of whichever agent an event names. -/

namespace Sys2Proof.Machine

/-- One step of the engine of instance `i` (40_execution_cycle.md R143): fetch and decode, then execute; an
instance that is not active takes no step (R140). -/
def State.engineStep (s : State) (i : Nat) : Host.Outcome State Fault Refusal :=
  s.onInst i (fun m =>
    if m.active then
      match m.fetch with
      | .ok ins => exec ins { s with cur := i }
      | .error t => .next (State.setInst { s with cur := i } i (m.raise t))
    else .next s)

/-- The step of the agent that an event names. -/
def State.fire (s : State) (e : Event) : Host.Outcome State Fault Refusal :=
  match e with
  | .host op => hostStep op s
  | .engine i => s.engineStep i
  | .scheduler => s.schedulerStep
  | .reset => .next s.resetInput

end Sys2Proof.Machine
end

