-- ==== Sys2Proof/Machine/Step.lean ====
section
/-! DEFINITION. One step of the block: the next event of the total order of 20_memory.md R85. -/

namespace Sys2Proof.Machine

/-- One step of the block. When no event is coming and no agent can move, nothing changes (log entry 7). -/
def step (s : State) : Host.Outcome State Fault Refusal :=
  match s.nextEvent with
  | some (e, t) => t.fire e
  | none => .next s

/-- The block with the instruction of the bits `w` placed where the next step fetches it: the current instance's
memory holds its four words from `ip` on, the instance is active, and the next event is its engine's step
(log entry 15). -/
def State.withFetchWord (s : State) (nbits w : Nat) : State :=
  match s.insts[s.cur]? with
  | some m =>
    { s.setInst s.cur { m with
        mem := m.mem.writeAll m.ip.toNat (wordsOfBits s.cfg.wordBits nbits w), len := max m.len (m.ip.toNat + 4),
        ip := (m.ip.toNat : Int), state := .running, halted := false, active := true } with
      pending := .engine s.cur :: s.pending }
  | none => s

end Sys2Proof.Machine
end

