-- ==== Sys2Proof/WellFormed.lean ====
section
/-! DEFINITION. Which terms of `Instr` are instructions of a machine with given parameters. The syntax already
rules out every illegal opcode and mode digit; what is left to check is that each operand word is a word,
"any integer in `[WMIN, WMAX]`" (30_encoding.md R105). An address out of bounds is well formed: it faults when
the instruction runs. -/

namespace Sys2Proof

/-- A value operand whose operand word is a word. -/
def Operand.wellFormed (c : Config) (o : Operand) : Bool := decide (c.InRange o.word)

/-- A destination whose address is a word. -/
def Dest.wellFormed (c : Config) (d : Dest) : Bool := decide (c.InRange d.addr)

/-- Every operand word of the instruction is a word (30_encoding.md R105). -/
def Instr.wellFormed (c : Config) : Instr → Bool
  | .add a b d => a.wellFormed c && b.wellFormed c && d.wellFormed c
  | .mult a b d => a.wellFormed c && b.wellFormed c && d.wellFormed c
  | .input d => d.wellFormed c
  | .output a => a.wellFormed c
  | .jumpIfTrue x t => x.wellFormed c && t.wellFormed c
  | .jumpIfFalse x t => x.wellFormed c && t.wellFormed c
  | .lessThan a b d => a.wellFormed c && b.wellFormed c && d.wellFormed c
  | .equals a b d => a.wellFormed c && b.wellFormed c && d.wellFormed c
  | .halt => true

end Sys2Proof
end

