-- ==== Sys2Proof/Safety.lean ====
section
/-! DEFINITION. The terms in which claims about the block are stated: the table of legal words, what an instruction
stores to, the invariant of the block, the invariant of a ring run, and when two ring runs are alike. -/

namespace Sys2Proof

/-- The opcode of an instruction. -/
def Instr.opcode : Instr → Opcode
  | .add _ _ _ => .add
  | .mult _ _ _ => .mult
  | .input _ => .input
  | .output _ => .output
  | .jumpIfTrue _ _ => .jumpIfTrue
  | .jumpIfFalse _ _ => .jumpIfFalse
  | .lessThan _ _ _ => .lessThan
  | .equals _ _ _ => .equals
  | .halt => .halt

/-- The 45 legal instruction words, by opcode (30_encoding.md R110, `legal_words` of spec/opcode_table.json). -/
def legalWords : Opcode → List Int
  | .add => [1, 101, 1001, 1101, 10001, 10101, 11001, 11101]
  | .mult => [2, 102, 1002, 1102, 10002, 10102, 11002, 11102]
  | .input => [3, 103]
  | .output => [4, 104]
  | .jumpIfTrue => [5, 105, 1005, 1105]
  | .jumpIfFalse => [6, 106, 1006, 1106]
  | .lessThan => [7, 107, 1007, 1107, 10007, 10107, 11007, 11107]
  | .equals => [8, 108, 1008, 1108, 10008, 10108, 11008, 11108]
  | .halt => [99]

/-- The words that the decoder reads as an instruction with this opcode, given enough operand words, are its legal
words and no others. -/
def EncodedExactly (op : Opcode) : Prop :=
  ∀ (w : Int) (ps : List Int), ps.length = 3 →
    ((∃ i rest, decode (w :: ps) = .ok (i, rest) ∧ i.opcode = op) ↔ w ∈ legalWords op)

/-- `ip` and what a fault saves of it: a word, or at most 4 more (10_state.md R35). -/
abbrev Config.NearRange (c : Config) (v : Int) : Prop := c.wmin ≤ v ∧ v ≤ c.wmax + 4

namespace Machine

/-! ### The invariant of the block -/

/-- Every listed word is a word and lies within the capacity (10_state.md R32, 00_scope.md R9). -/
def Memory.Holds (c : Config) (m : Memory) : Prop := ∀ x ∈ m, x.1 < c.memWords ∧ c.InRange x.2

/-- What holds of every instance of a block that runs. -/
structure Instance.Ok (c : Config) (m : Instance) : Prop where
  /-- the memory is in its canonical form -/
  memWf : m.mem.wf
  /-- the memory holds words (10_state.md R32) -/
  memHolds : m.mem.Holds c
  /-- `0 ≤ L ≤ MEM_WORDS` (10_state.md R31) -/
  lenFits : m.len ≤ c.memWords
  /-- `ip` never wraps (10_state.md R35) -/
  ipNear : c.NearRange m.ip
  /-- `IQ` holds at most IN_DEPTH entries (10_state.md R41) -/
  iqFits : m.iq.length ≤ c.inDepth
  /-- the entries of `IQ` are words (10_state.md R41) -/
  iqWords : ∀ v ∈ m.iq, c.InRange v
  /-- `OQ` holds at most OUT_DEPTH entries (10_state.md R42) -/
  oqFits : m.oq.length ≤ c.outDepth
  /-- the entries of `OQ` are words (10_state.md R42) -/
  oqWords : ∀ v ∈ m.oq, c.InRange v
  /-- `halted` equals `STATE = HALTED` (10_state.md R38) -/
  haltedFlag : m.halted = true ↔ m.state = .halted
  /-- while ACTIVE, STATE = RUNNING (10_state.md R37) -/
  activeRuns : m.active = true → m.state = .running
  /-- a faulted instance has a cause (10_state.md R40) -/
  faultHasCause : m.state = .faulted → m.faultCause ≠ .noFault
  /-- the fault registers are 0 until a fault is raised (10_state.md R40, R48, R50) -/
  faultClear : m.state ≠ .faulted → m.faultCause = .noFault ∧ m.faultIp = 0 ∧ m.faultInfo = 0
  /-- FAULT_IP is a value of `ip` (10_state.md R40) -/
  faultIpNear : c.NearRange m.faultIp
  /-- FAULT_INFO is a word or a value of `ip` (10_state.md R40) -/
  faultInfoNear : c.NearRange m.faultInfo

/-- The invariant of the block: every field is legal and the parameters are. -/
structure State.Ok (s : State) : Prop where
  /-- the parameters meet their constraints (00_scope.md R8) -/
  legal : s.cfg.Legal
  /-- there are N_MAX instances (10_state.md R30) -/
  instCount : s.insts.length = s.cfg.nMax
  /-- every instance is as it should be -/
  instOk : ∀ m ∈ s.insts, m.Ok s.cfg
  /-- the program store is in its canonical form -/
  progWf : s.prog.wf
  /-- the program store holds words (10_state.md R43) -/
  progHolds : s.prog.Holds s.cfg
  /-- `0 ≤ PLEN ≤ MEM_WORDS` (10_state.md R43) -/
  plenFits : s.plen ≤ s.cfg.memWords
  /-- RING_N is in `1..N_MAX` (10_state.md R44) -/
  ringNLegal : 1 ≤ s.ringN ∧ s.ringN ≤ s.cfg.nMax
  /-- RING_CUR is an instance (log entry 13) -/
  ringCurLegal : s.ringCur < s.cfg.nMax
  /-- in ring mode RING_CUR is a member (10_state.md R44) -/
  ringCurMember : s.rstate = .running → s.ringCur < s.ringN
  /-- CARRIED is a word (10_state.md R44) -/
  carriedWord : s.cfg.InRange s.carried
  /-- SEED is a word (10_state.md R44) -/
  seedWord : s.cfg.InRange s.seed
  /-- there are N_MAX phases (10_state.md R44) -/
  phaseCount : s.phase.length = s.cfg.nMax
  /-- the phases are words (10_state.md R44) -/
  phaseWords : ∀ v ∈ s.phase, s.cfg.InRange v
  /-- RING_FAULT_INST is an instance (10_state.md R46) -/
  ringFaultInstLegal : s.ringFaultInst < s.cfg.nMax
  /-- RFAULT is 0 exactly while the ring has not faulted (60_exceptions.md R341, R344) -/
  ringFaultCause : s.rfault = .noFault ↔ s.rstate ≠ .faulted

/-! ### The invariant of a ring run (60_exceptions.md R349) -/

/-- A member between its visits: not yet visited, with its phase queued; suspended, its queue empty; or halted. -/
def Instance.Waiting (m : Instance) : Prop :=
  m.active = false ∧
    (m.state = .halted ∨ (m.state = .running ∧ m.iq.length = 1) ∨ (m.state = .suspendedOnInput ∧ m.iq = []))

/-- The member being visited, from ISSUE to COLLECT: once its run has ended it is halted, faulted, or suspended on an
empty queue. -/
def Instance.Visited (m : Instance) : Prop :=
  m.active = false →
    (m.state = .halted ∨ m.state = .faulted ∨ (m.state = .suspendedOnInput ∧ m.iq = []))

/-- The ring has not met a full input queue, and in ring mode every member is where its visits leave it. -/
structure State.RingOk (s : State) : Prop where
  neverFull : s.rfault ≠ .inputFull
  members : s.rstate = .running → ∀ j m, j < s.ringN → s.insts[j]? = some m →
    if j = s.ringCur ∧ s.rphase = .collect then m.Visited else m.Waiting

/-! ### When two ring runs are alike (60_exceptions.md R347) -/

/-- Two instances, their memories in canonical form, that differ at most in words that neither can reach. -/
def Instance.Alike (m n : Instance) : Prop :=
  m.mem.wf ∧ n.mem.wf ∧ n = { m with mem := n.mem } ∧ ∀ a : Nat, a < m.len → n.mem.read a = m.mem.read a

/-- Two blocks whose ring runs are at the same point, with members that are alike. Instances outside the ring, the
program store, the host's registers and the model's own fields may differ. -/
structure State.RingAlike (s t : State) : Prop where
  cfg : t.cfg = s.cfg
  rstate : t.rstate = s.rstate
  rfault : t.rfault = s.rfault
  ringN : t.ringN = s.ringN
  ringCur : t.ringCur = s.ringCur
  carried : t.carried = s.carried
  ringFaultInst : t.ringFaultInst = s.ringFaultInst
  rphase : t.rphase = s.rphase
  members : ∀ j, j < s.ringN → ∃ m n, s.insts[j]? = some m ∧ t.insts[j]? = some n ∧ m.Alike n

/-! ### What a step may touch -/

/-- From `s` to `s'` only instance `i` has changed, from `m` to `m'`. -/
structure State.OnlyInst (s s' : State) (i : Nat) (m m' : Instance) : Prop where
  shared : s' = { s with insts := s'.insts }
  others : ∀ j, j ≠ i → s'.insts[j]? = s.insts[j]?
  before : s.insts[i]? = some m
  after : s'.insts[i]? = some m'

/-- The instance stopped with a fault and nothing else happened to it (60_exceptions.md R301). -/
def Instance.FaultedAs (m m' : Instance) (cause : FaultCause) (info : Int) : Prop :=
  m' = { m with state := .faulted, active := false, faultCause := cause, faultIp := m.ip, faultInfo := info }

/-- The event instantiates instance `i` or resets the block: the only ways out of HALTED and FAULTED
(10_state.md R36, 60_exceptions.md R304). -/
def State.Renews (s : State) (e : Event) (i : Nat) : Prop :=
  e = .host (.instantiate i) ∨ (e = .host .ringStart ∧ i < s.ringN) ∨ e = .reset

/-- The event names an instance that exists and values that are words (log entries 8, 9). -/
def Event.Presentable (c : Config) : Event → Prop
  | .host (.loadProgram ws) => ∀ w ∈ ws, c.InRange w
  | .host (.instantiate i) => i < c.nMax
  | .host (.pushInput i v) => i < c.nMax ∧ c.InRange v
  | .host (.popOutput i) => i < c.nMax
  | .host (.resume i) => i < c.nMax
  | .host (.readReg i r) => r < 64 → i < c.nMax
  | .host (.readMem i _) => i < c.nMax
  | .host (.writeReg _ _) => True
  | .host .ringStart => True
  | .engine i => i < c.nMax
  | .scheduler => True
  | .reset => True

/-- How many agents the round robin asks before agent `i`. -/
def State.waits (s : State) (i : Nat) : Nat :=
  (i + (s.insts.length + 1) - s.turn % (s.insts.length + 1)) % (s.insts.length + 1)

end Machine

end Sys2Proof
end

