-- ==== Sys2Proof/Certificates/Slice0/Obligations.lean ====
section
/-! DEFINITION. What is claimed of the model, for the provers. Every statement holds for every choice of the
parameters of 00_scope.md R8, since they are fields of the state. Where the spec marks a rule as its own decision
(92_eei_decisions.md) the statement says what the rule says. -/

open Sys2Proof Sys2Proof.Machine

/-! ### Encoding -/

/-- 30_encoding.md R109 and R117: decoding the words of any instruction, whatever follows them, gives that
instruction and what follows. -/
def Obligations.DecodeOfEncodeIsTheInstruction : Prop :=
  ∀ (i : Instr) (rest : List Int), decode (encode i ++ rest) = .ok (i, rest)

/-- 30_encoding.md R109 and R117: what decodes is the encoding of what it decodes to; no digit of a word is dropped,
and no two lists of words decode to one instruction and rest. -/
def Obligations.EncodeOfDecodeIsTheWords : Prop :=
  ∀ (ws : List Int) (i : Instr) (rest : List Int), decode ws = .ok (i, rest) → encode i ++ rest = ws

/-- 30_encoding.md R110: the legal instruction words are exactly the 45 of its table, opcode by opcode; every other
integer is illegal, with one of the two verdicts. -/
def Obligations.LegalWordsAreExactlyTheFortyFive : Prop :=
  (∀ op, EncodedExactly op) ∧
  ∀ (w : Int) (ws : List Int), (∀ op, w ∉ legalWords op) →
    decode (w :: ws) = .error (.illegalOpcode w) ∨ decode (w :: ws) = .error (.illegalMode w)

/-- 30_encoding.md R112: a negative word, 0, and every word with `w rem 100` = 0 or in 9..98 is ILLEGAL_OPCODE. -/
def Obligations.NegativeAndUnknownOpcodesAreIllegal : Prop :=
  ∀ (w : Int) (ws : List Int), (w < 0 ∨ w.tmod 100 = 0 ∨ (9 ≤ w.tmod 100 ∧ w.tmod 100 ≤ 98)) →
    decode (w :: ws) = .error (.illegalOpcode w)

/-- 30_encoding.md R113: with a legal opcode, a mode digit in 2..9 of one of the operands, the destination's
included, or a nonzero digit above the last operand, is ILLEGAL_MODE; and the rule's four examples. -/
def Obligations.BadDigitsAreIllegalModes : Prop :=
  (∀ (op : Opcode) (w : Int) (ws : List Int), w.tmod 100 = op.code →
    ((∃ k, 1 ≤ k ∧ k ≤ op.operands ∧ 2 ≤ digit (k + 1) w ∧ digit (k + 1) w ≤ 9) ∨
      (∃ k, op.operands + 2 ≤ k ∧ digit k w ≠ 0)) →
    decode (w :: ws) = .error (.illegalMode w)) ∧
  ∀ ws : List Int, ∀ w ∈ [199, 204, 100001, 21101], decode (w :: ws) = .error (.illegalMode w)

/-- Words written out from 30_encoding.md R105 and 95_test_vectors.md part 2.1 decode to what they stand for. -/
def Obligations.SampleWordsDecode : Prop :=
  decode [1002, 4, 3, 4] = .ok (.mult ⟨.position, 4⟩ ⟨.immediate, 3⟩ ⟨.position, 4⟩, []) ∧
  decode [11101, -5, 3, 5] = .ok (.add ⟨.immediate, -5⟩ ⟨.immediate, 3⟩ ⟨.immediate, 5⟩, []) ∧
  decode [103, 7, 99] = .ok (.input ⟨.immediate, 7⟩, [99]) ∧
  decode [104, -7] = .ok (.output ⟨.immediate, -7⟩, []) ∧
  decode [1105, 1, 7] = .ok (.jumpIfTrue ⟨.immediate, 1⟩ ⟨.immediate, 7⟩, []) ∧
  decode [106, 0, 9] = .ok (.jumpIfFalse ⟨.immediate, 0⟩ ⟨.position, 9⟩, []) ∧
  decode [1107, -3, 2, 5] = .ok (.lessThan ⟨.immediate, -3⟩ ⟨.immediate, 2⟩ ⟨.position, 5⟩, []) ∧
  decode [1008, 5, 7, 5] = .ok (.equals ⟨.position, 5⟩ ⟨.immediate, 7⟩ ⟨.position, 5⟩, []) ∧
  decode [99] = .ok (.halt, []) ∧
  decode [-99] = .error (.illegalOpcode (-99)) ∧
  decode [1004, 0, 99] = .error (.illegalMode 1004) ∧
  decode [1, 0, 0] = .error (.truncated 3)

/-! ### Operands -/

/-- 30_encoding.md R106: an immediate is the operand word; a position operand in bounds is the word at that address;
out of bounds it is READ_OOB with the address. -/
def Obligations.ValueOperandResolution : Prop :=
  ∀ (m : Instance) (p : Int),
    m.value ⟨.immediate, p⟩ = .ok p ∧
    (0 ≤ p ∧ p < m.len → m.value ⟨.position, p⟩ = .ok (m.mem.read p.toNat)) ∧
    (¬ (0 ≤ p ∧ p < m.len) → m.value ⟨.position, p⟩ = .error ⟨.readOob, p⟩)

/-- 30_encoding.md R107: a destination is an address whatever its digit, in every instruction that has one: the
instruction with the other digit does the same. -/
def Obligations.DestinationDigitIsIgnored : Prop :=
  ∀ (s : State) (a b : Operand) (p : Int) (d e : Mode),
    exec (.add a b ⟨d, p⟩) s = exec (.add a b ⟨e, p⟩) s ∧
    exec (.mult a b ⟨d, p⟩) s = exec (.mult a b ⟨e, p⟩) s ∧
    exec (.input ⟨d, p⟩) s = exec (.input ⟨e, p⟩) s ∧
    exec (.lessThan a b ⟨d, p⟩) s = exec (.lessThan a b ⟨e, p⟩) s ∧
    exec (.equals a b ⟨d, p⟩) s = exec (.equals a b ⟨e, p⟩) s

/-! ### What each instruction does -/

/-- The rule of a three-operand instruction that computes `r x y` from its values, in the order of
40_execution_cycle.md R150: READ_OOB of operand 1, of operand 2, OVERFLOW where `mayOverflow`, WRITE_OOB, and
otherwise the write of the result, which then reads back, and `ip + 4`, with nothing else changed. -/
def ThreeOperandRule (i : Operand → Operand → Dest → Instr) (mayOverflow : Bool) (r : Int → Int → Int) : Prop :=
  ∀ (s : State) (m : Instance) (a b : Operand) (d : Dest), s.insts[s.cur]? = some m →
    (∀ t, m.value a = .error t → exec (i a b d) s = .next (s.setInst s.cur (m.raise t))) ∧
    (∀ x t, m.value a = .ok x → m.value b = .error t →
      exec (i a b d) s = .next (s.setInst s.cur (m.raise t))) ∧
    (∀ x y, m.value a = .ok x → m.value b = .ok y → mayOverflow = true → ¬ s.cfg.InRange (r x y) →
      exec (i a b d) s = .next (s.setInst s.cur (m.raise ⟨.overflow, 0⟩))) ∧
    (∀ x y, m.value a = .ok x → m.value b = .ok y → (mayOverflow = true → s.cfg.InRange (r x y)) →
      ¬ (0 ≤ d.addr ∧ d.addr < m.len) →
      exec (i a b d) s = .next (s.setInst s.cur (m.raise ⟨.writeOob, d.addr⟩))) ∧
    (∀ x y, m.value a = .ok x → m.value b = .ok y → (mayOverflow = true → s.cfg.InRange (r x y)) →
      0 ≤ d.addr ∧ d.addr < m.len →
      exec (i a b d) s =
        .next (s.setInst s.cur { m with mem := m.mem.write d.addr.toNat (r x y), ip := m.ip + 4 }) ∧
      (m.mem.wf → (m.mem.write d.addr.toNat (r x y)).read d.addr.toNat = r x y))

/-- 41_arithmetic.md R180, R181: ADD, with its legal words. -/
def Obligations.AddFollowsItsRule : Prop :=
  EncodedExactly .add ∧ ThreeOperandRule .add true (fun x y => x + y)

/-- 41_arithmetic.md R182, R183: MULT, with its legal words. -/
def Obligations.MultFollowsItsRule : Prop :=
  EncodedExactly .mult ∧ ThreeOperandRule .mult true (fun x y => x * y)

/-- 44_compare.md R210, R211: LESS_THAN, with its legal words; it cannot overflow. -/
def Obligations.LessThanFollowsItsRule : Prop :=
  EncodedExactly .lessThan ∧ ThreeOperandRule .lessThan false (fun x y => if x < y then 1 else 0)

/-- 44_compare.md R212, R211: EQUALS, with its legal words; it cannot overflow. -/
def Obligations.EqualsFollowsItsRule : Prop :=
  EncodedExactly .equals ∧ ThreeOperandRule .equals false (fun x y => if x = y then 1 else 0)

/-- 42_io.md R190, R191: INPUT suspends on an empty queue, whatever its destination; with a value it checks the
destination before popping, and otherwise writes the oldest value and takes it from the queue. -/
def Obligations.InputFollowsItsRule : Prop :=
  EncodedExactly .input ∧
  ∀ (s : State) (m : Instance) (d : Dest), s.insts[s.cur]? = some m →
    (m.iq = [] → exec (.input d) s =
      .next (s.setInst s.cur { m with state := .suspendedOnInput, active := false })) ∧
    (∀ v rest, m.iq = v :: rest → ¬ (0 ≤ d.addr ∧ d.addr < m.len) →
      exec (.input d) s = .next (s.setInst s.cur (m.raise ⟨.writeOob, d.addr⟩))) ∧
    (∀ v rest, m.iq = v :: rest → 0 ≤ d.addr ∧ d.addr < m.len →
      exec (.input d) s =
        .next (s.setInst s.cur { m with mem := m.mem.write d.addr.toNat v, iq := rest, ip := m.ip + 2 }) ∧
      (m.mem.wf → (m.mem.write d.addr.toNat v).read d.addr.toNat = v))

/-- 42_io.md R192: OUTPUT appends its value at the tail of the queue; READ_OOB, or OUTPUT_FULL with the value it
would have pushed, stop it. -/
def Obligations.OutputFollowsItsRule : Prop :=
  EncodedExactly .output ∧
  ∀ (s : State) (m : Instance) (a : Operand), s.insts[s.cur]? = some m →
    (∀ t, m.value a = .error t → exec (.output a) s = .next (s.setInst s.cur (m.raise t))) ∧
    (∀ x, m.value a = .ok x → m.oq.length = s.cfg.outDepth →
      exec (.output a) s = .next (s.setInst s.cur (m.raise ⟨.outputFull, x⟩))) ∧
    (∀ x, m.value a = .ok x → m.oq.length ≠ s.cfg.outDepth →
      exec (.output a) s = .next (s.setInst s.cur { m with oq := m.oq ++ [x], ip := m.ip + 2 }))

/-- The rule of a conditional jump that is taken when `taken c` holds of its condition: both operands are resolved,
taken or not (43_jumps.md R203); the target is written to `ip` unchecked. -/
def JumpRule (i : Operand → Operand → Instr) (taken : Int → Prop) : Prop :=
  ∀ (s : State) (m : Instance) (cond target : Operand), s.insts[s.cur]? = some m →
    (∀ t, m.value cond = .error t → exec (i cond target) s = .next (s.setInst s.cur (m.raise t))) ∧
    (∀ c t, m.value cond = .ok c → m.value target = .error t →
      exec (i cond target) s = .next (s.setInst s.cur (m.raise t))) ∧
    (∀ c t, m.value cond = .ok c → m.value target = .ok t → taken c →
      exec (i cond target) s = .next (s.setInst s.cur { m with ip := t })) ∧
    (∀ c t, m.value cond = .ok c → m.value target = .ok t → ¬ taken c →
      exec (i cond target) s = .next (s.setInst s.cur { m with ip := m.ip + 3 }))

/-- 43_jumps.md R200, R203: JUMP_IF_TRUE, with its legal words; any nonzero condition jumps. -/
def Obligations.JumpIfTrueFollowsItsRule : Prop :=
  EncodedExactly .jumpIfTrue ∧ JumpRule .jumpIfTrue (fun c => c ≠ 0)

/-- 43_jumps.md R202, R203: JUMP_IF_FALSE, with its legal words; only a zero condition jumps. -/
def Obligations.JumpIfFalseFollowsItsRule : Prop :=
  EncodedExactly .jumpIfFalse ∧ JumpRule .jumpIfFalse (fun c => c = 0)

/-- 45_halt.md R220: HALT sets STATE and `halted`, clears ACTIVE and keeps `ip`; afterwards RESUME is IGNORED and
changes nothing; its only legal word is 99. -/
def Obligations.HaltFollowsItsRule : Prop :=
  EncodedExactly .halt ∧
  ∀ (s : State) (m : Instance), s.insts[s.cur]? = some m →
    exec .halt s = .next (s.setInst s.cur { m with state := .halted, halted := true, active := false }) ∧
    Instance.resume { m with state := .halted, halted := true, active := false } =
      ({ m with state := .halted, halted := true, active := false }, .ignored)

/-- 43_jumps.md R204: a taken jump writes its target to `ip` without checking it; when the target is out of bounds the
next step of that engine raises FETCH_OOB with FAULT_IP and info the target. -/
def Obligations.JumpTargetIsCheckedAtTheNextFetch : Prop :=
  ∀ (s : State) (m : Instance) (c : Int) (cond target : Operand) (t : Int), s.insts[s.cur]? = some m →
    m.active = true → m.value cond = .ok c → m.value target = .ok t → ¬ (0 ≤ t ∧ t < m.len) →
    (c ≠ 0 → ∃ u, exec (.jumpIfTrue cond target) s = .next u ∧
      u.insts[s.cur]? = some { m with ip := t } ∧
      ∃ v, u.engineStep s.cur = .next v ∧ v.insts[s.cur]? = some
        { m with ip := t, state := .faulted, active := false, faultCause := .fetchOob, faultIp := t, faultInfo := t }) ∧
    (c = 0 → ∃ u, exec (.jumpIfFalse cond target) s = .next u ∧
      u.insts[s.cur]? = some { m with ip := t } ∧
      ∃ v, u.engineStep s.cur = .next v ∧ v.insts[s.cur]? = some
        { m with ip := t, state := .faulted, active := false, faultCause := .fetchOob, faultIp := t, faultInfo := t })

/-! ### What each instruction leaves alone -/

/-- The frame of ADD, MULT, LESS_THAN and EQUALS: only the current instance changes; its queues, `L` and `halted` do
not; a completed one changes `ip` and the one word at its destination address, a faulting one the status and fault
registers and nothing else. -/
def Obligations.FrameOfThreeOperandInstructions : Prop :=
  ∀ (s s' : State) (a b : Operand) (d : Dest) (i : Instr),
    i = .add a b d ∨ i = .mult a b d ∨ i = .lessThan a b d ∨ i = .equals a b d →
    exec i s = .next s' →
    ∃ m m', s.OnlyInst s' s.cur m m' ∧
      ((∃ cause info, m.FaultedAs m' cause info ∧
          (cause = .readOob ∨ cause = .overflow ∨ cause = .writeOob)) ∨
        (m' = { m with mem := m'.mem, ip := m.ip + 4 } ∧ 0 ≤ d.addr ∧ d.addr < m.len ∧
          ∀ x : Nat, (x : Int) ≠ d.addr → m'.mem.read x = m.mem.read x))

/-- The frame of INPUT: only the current instance changes; a suspended one changes STATE and ACTIVE alone, a faulting
one the status and fault registers alone, a completed one `ip`, the input queue and the one word at its destination
address. -/
def Obligations.FrameOfInput : Prop :=
  ∀ (s s' : State) (d : Dest), exec (.input d) s = .next s' →
    ∃ m m', s.OnlyInst s' s.cur m m' ∧
      ((m.iq = [] ∧ m' = { m with state := .suspendedOnInput, active := false }) ∨
        m.FaultedAs m' .writeOob d.addr ∨
        (m' = { m with mem := m'.mem, iq := m.iq.tail, ip := m.ip + 2 } ∧ 0 ≤ d.addr ∧ d.addr < m.len ∧
          ∀ x : Nat, (x : Int) ≠ d.addr → m'.mem.read x = m.mem.read x))

/-- The frame of OUTPUT, JUMP_IF_TRUE, JUMP_IF_FALSE and HALT, which store nothing: only the current instance
changes, and no word of its memory, nor `L`, nor the input queue; only OUTPUT changes the output queue, by one value
at its tail, and only HALT the `halted` flag. -/
def Obligations.FrameOfInstructionsThatStoreNothing : Prop :=
  ∀ (s s' : State) (a b : Operand),
    (exec (.output a) s = .next s' → ∃ m m', s.OnlyInst s' s.cur m m' ∧
      ((∃ cause info, m.FaultedAs m' cause info ∧ (cause = .readOob ∨ cause = .outputFull)) ∨
        ∃ x, m' = { m with oq := m.oq ++ [x], ip := m.ip + 2 })) ∧
    (exec (.jumpIfTrue a b) s = .next s' ∨ exec (.jumpIfFalse a b) s = .next s' →
      ∃ m m', s.OnlyInst s' s.cur m m' ∧
        ((∃ info, m.FaultedAs m' .readOob info) ∨ m' = { m with ip := m'.ip })) ∧
    (exec .halt s = .next s' → ∃ m m', s.OnlyInst s' s.cur m m' ∧
      m' = { m with state := .halted, halted := true, active := false })

/-! ### The engine's step -/

/-- 40_execution_cycle.md R143, R149: when the next event is the step of an engine whose instance is active and the
words at its `ip` decode to an instruction, the step is that instruction's `exec` on that instance. Nothing is added
around it: every instruction sets `ip` itself. -/
def Obligations.StepRunsTheDecodedInstruction : Prop :=
  ∀ (s t : State) (k : Nat) (m : Instance) (i : Instr) (rest : List Int),
    s.nextEvent = some (.engine k, t) → t.insts[k]? = some m → m.active = true →
    decode m.window = .ok (i, rest) → step s = exec i { t with cur := k }

/-- The words that are decoded are those in bounds from `ip` on, as far as the longest instruction reaches
(40_execution_cycle.md R145, R148; 20_memory.md R87: they are read from the memory as it is now). -/
def Obligations.WindowIsTheWordsAtIp : Prop :=
  ∀ (m : Instance) (k : Nat), k < 4 →
    (0 ≤ m.ip → m.ip + k < m.len → m.window[k]? = some (m.mem.read (m.ip.toNat + k))) ∧
    (¬ (0 ≤ m.ip ∧ m.ip + k < m.len) → m.window[k]? = none)

/-- 40_execution_cycle.md R145, R146, R148 and orders 1 to 4 of R150: the faults of an engine's step before the
instruction executes, each the first that applies. -/
def Obligations.FetchFaultsInOrder : Prop :=
  ∀ (s t : State) (k : Nat) (m : Instance),
    s.nextEvent = some (.engine k, t) → t.insts[k]? = some m → m.active = true →
    let stops := fun (c : FaultCause) (info : Int) =>
      step s = .next (State.setInst { t with cur := k } k (m.raise ⟨c, info⟩))
    let w := m.mem.read m.ip.toNat
    (¬ (0 ≤ m.ip ∧ m.ip < m.len) → stops .fetchOob m.ip) ∧
    (0 ≤ m.ip ∧ m.ip < m.len → (∀ op : Opcode, op.code ≠ w.tmod 100) → stops .illegalOpcode w) ∧
    (0 ≤ m.ip ∧ m.ip < m.len → ∀ op : Opcode, op.code = w.tmod 100 → w ∉ legalWords op → stops .illegalMode w) ∧
    (0 ≤ m.ip ∧ m.ip < m.len → ∀ op : Opcode, w ∈ legalWords op →
      ∀ j : Nat, 1 ≤ j → j ≤ op.operands → (m.len : Int) ≤ m.ip + j → m.ip + (j - 1 : Nat) < m.len →
      stops .truncated (m.ip + j))

/-- 60_exceptions.md R301, 40_execution_cycle.md R152: a step that leaves its instance FAULTED wrote STATE, ACTIVE,
FAULT_CAUSE, FAULT_IP (the `ip` the step started with) and FAULT_INFO and nothing else of it, and no other instance;
its engine takes no further step. -/
def Obligations.FaultsArePrecise : Prop :=
  ∀ (s t s' : State) (k : Nat) (m m' : Instance),
    s.nextEvent = some (.engine k, t) → t.insts[k]? = some m → m.active = true → m.state = .running →
    step s = .next s' → s'.insts[k]? = some m' → m'.state = .faulted →
    m.FaultedAs m' m'.faultCause m'.faultInfo ∧ m'.faultCause ≠ .noFault ∧
      (∀ j, j ≠ k → s'.insts[j]? = s.insts[j]?) ∧ s' = { t with cur := k, insts := s'.insts } ∧
      s'.engineStep k = .next s'

/-- 40_execution_cycle.md R160, R161: a step that leaves its instance SUSPENDED_ON_INPUT was an INPUT that found the
input queue empty, and wrote STATE and ACTIVE and nothing else, of it or of the rest of the block. -/
def Obligations.OnlyAnInputFacingAnEmptyQueueSuspends : Prop :=
  ∀ (s t s' : State) (k : Nat) (m m' : Instance),
    s.nextEvent = some (.engine k, t) → t.insts[k]? = some m → m.active = true → m.state = .running →
    step s = .next s' → s'.insts[k]? = some m' → m'.state = .suspendedOnInput →
    (∃ d rest, decode m.window = .ok (.input d, rest)) ∧ m.iq = [] ∧
      m' = { m with state := .suspendedOnInput, active := false } ∧ (∀ j, j ≠ k → s'.insts[j]? = s.insts[j]?) ∧
      s' = { t with cur := k, insts := s'.insts }

/-- 40_execution_cycle.md R163: resuming a suspended instance whose input queue is still empty and stepping its engine
suspends it again at the same instruction, and leaves the whole block as it was. Of the model's own fields, the two
events are gone from `pending`, `cur` names the instance and `reply` holds STARTED. -/
def Obligations.RetriedInputSuspendsAgainUnchanged : Prop :=
  ∀ (s : State) (k : Nat) (m : Instance) (d : Dest) (rest : List Int) (later : List Event),
    s.rstate ≠ .running → s.insts[k]? = some m → m.state = .suspendedOnInput → m.active = false → m.iq = [] →
    decode m.window = .ok (.input d, rest) →
    s.pending = .host (.resume k) :: .engine k :: later →
    ∃ u v, step s = .next u ∧ u.reply = some .started ∧ step u = .next v ∧
      v = { s with pending := later, cur := k, reply := some .started }

/-- 10_state.md R38: over any step, `halted` is set only by a HALT that the instance's engine executes, and cleared
only by instantiation or reset. -/
def Obligations.HaltedFlagIsSetByHaltAlone : Prop :=
  ∀ (s s' : State) (k : Nat) (m m' : Instance), step s = .next s' → s.insts[k]? = some m → s'.insts[k]? = some m' →
    (m.halted = false → m'.halted = true →
      ∃ t rest, s.nextEvent = some (.engine k, t) ∧ m.active = true ∧ decode m.window = .ok (.halt, rest)) ∧
    (m.halted = true → m'.halted = false → ∃ e t, s.nextEvent = some (e, t) ∧ s.Renews e k)

/-- 10_state.md R36, 60_exceptions.md R304: an inactive HALTED or FAULTED instance keeps everything but its queues over
any step that is neither its instantiation nor a reset. -/
def Obligations.HaltedAndFaultedAreAbsorbing : Prop :=
  ∀ (s s' : State) (k : Nat) (m m' : Instance), step s = .next s' → s.insts[k]? = some m → s'.insts[k]? = some m' →
    m.active = false → m.state = .halted ∨ m.state = .faulted →
    m' = { m with iq := m'.iq, oq := m'.oq } ∨ ∃ e t, s.nextEvent = some (e, t) ∧ s.Renews e k

/-- 20_memory.md R83 and 10_state.md R31: over any step, a word of an instance's memory changes only by its own
engine's step or its renewal, and `L` only by its renewal. -/
def Obligations.OnlyItsEngineWritesAnInstancesMemory : Prop :=
  ∀ (s s' : State) (k : Nat) (m m' : Instance), step s = .next s' → s.insts[k]? = some m → s'.insts[k]? = some m' →
    (m'.mem ≠ m.mem → ∃ e t, s.nextEvent = some (e, t) ∧ (e = .engine k ∨ s.Renews e k)) ∧
    (m'.len ≠ m.len → ∃ e t, s.nextEvent = some (e, t) ∧ s.Renews e k)

/-- 10_state.md R41, R42, 42_io.md R194: over any step that does not renew the instance, each queue is as before, or
makes one move, by the agent the rules name. The input queue gains a value at its tail from PUSH_INPUT of that instance
or, the carried value, from the scheduler's ISSUE at RING_CUR; it loses its oldest to an INPUT of its own engine. The
output queue loses its oldest to POP_OUTPUT of that instance, which returns it, or to the scheduler's COLLECT at
RING_CUR, which carries it; it gains the operand's value at its tail from an OUTPUT of its own engine. -/
def Obligations.QueuesAreStrictFifos : Prop :=
  ∀ (s s' : State) (k : Nat) (m m' : Instance), step s = .next s' → s.insts[k]? = some m → s'.insts[k]? = some m' →
    (∃ e t, s.nextEvent = some (e, t) ∧ s.Renews e k) ∨
    ((m'.iq = m.iq ∨
        (∃ t v, s.nextEvent = some (.host (.pushInput k v), t) ∧ m'.iq = m.iq ++ [v]) ∨
        (∃ t, s.nextEvent = some (.scheduler, t) ∧ s.rstate = .running ∧ s.rphase = .issue ∧ k = s.ringCur ∧
          m'.iq = m.iq ++ [s.carried]) ∨
        (∃ t d rest v, s.nextEvent = some (.engine k, t) ∧ decode m.window = .ok (.input d, rest) ∧
          m.iq = v :: m'.iq)) ∧
      (m'.oq = m.oq ∨
        (∃ t v, s.nextEvent = some (.host (.popOutput k), t) ∧ m.oq = v :: m'.oq ∧ s'.reply = some (.value v)) ∨
        (∃ t v, s.nextEvent = some (.scheduler, t) ∧ s.rstate = .running ∧ s.rphase = .collect ∧ k = s.ringCur ∧
          m.oq = v :: m'.oq ∧ s'.carried = v) ∨
        (∃ t a rest v, s.nextEvent = some (.engine k, t) ∧ decode m.window = .ok (.output a, rest) ∧
          m.value a = .ok v ∧ m'.oq = m.oq ++ [v])))

/-- 60_exceptions.md R360: the steps of the engines of two different instances commute. -/
def Obligations.EngineStepsOfDifferentInstancesCommute : Prop :=
  ∀ (s a b : State) (i j : Nat), i ≠ j → s.engineStep i = .next a → a.engineStep j = .next b →
    ∃ c d, s.engineStep j = .next c ∧ c.engineStep i = .next d ∧ d.insts = b.insts ∧
      { d with cur := b.cur } = b

/-- 40_execution_cycle.md R168: an engine's step is determined by its instance, and of the output queue by its length
alone: with other values waiting in a queue of the same length, in a block that is otherwise arbitrary, the same
effects and the same output follow. -/
def Obligations.EngineStepIsDeterminedByItsInstance : Prop :=
  ∀ (s t s' : State) (k : Nat) (m : Instance) (q : List Int),
    s.insts[k]? = some m → t.insts[k]? = some { m with oq := q } → q.length = m.oq.length → s.cfg = t.cfg →
    s.engineStep k = .next s' →
    ∃ t' m' out, t.engineStep k = .next t' ∧ s'.insts[k]? = some m' ∧ m'.oq = m.oq ++ out ∧
      t'.insts[k]? = some { m' with oq := q ++ out }

/-! ### The host -/

/-- 60_exceptions.md R322, 40_execution_cycle.md R141: RESUME: BUSY in ring mode, else row by row of the table. -/
def Obligations.ResumeFollowsItsTable : Prop :=
  ∀ (s : State) (k : Nat) (m : Instance), s.insts[k]? = some m →
    (s.rstate = .running → hostStep (.resume k) s = .next (s.answer .busy)) ∧
    (s.rstate ≠ .running → m.state = .running → m.active = false →
      hostStep (.resume k) s = .next ((s.setInst k { m with active := true }).answer .started)) ∧
    (s.rstate ≠ .running → m.state = .suspendedOnInput → m.active = false →
      hostStep (.resume k) s =
        .next ((s.setInst k { m with state := .running, active := true }).answer .started)) ∧
    (s.rstate ≠ .running → m.state = .running → m.active = true →
      hostStep (.resume k) s = .next (s.answer .ignored)) ∧
    (s.rstate ≠ .running → m.state = .halted → m.active = false →
      hostStep (.resume k) s = .next (s.answer .ignored)) ∧
    (s.rstate ≠ .running → m.state = .faulted → m.active = false →
      hostStep (.resume k) s = .next (s.answer .ignored))

/-- 60_exceptions.md R320: PUSH_INPUT of a word: BUSY in ring mode, FULL when IN_DEPTH entries wait, else one entry at
the tail; in every STATE, active or not. -/
def Obligations.PushInputFollowsItsRule : Prop :=
  ∀ (s : State) (k : Nat) (m : Instance) (v : Int), s.insts[k]? = some m → s.cfg.InRange v →
    (s.rstate = .running → hostStep (.pushInput k v) s = .next (s.answer .busy)) ∧
    (s.rstate ≠ .running → m.iq.length = s.cfg.inDepth →
      hostStep (.pushInput k v) s = .next (s.answer .full)) ∧
    (s.rstate ≠ .running → m.iq.length ≠ s.cfg.inDepth →
      hostStep (.pushInput k v) s = .next ((s.setInst k { m with iq := m.iq ++ [v] }).answer .ok))

/-- 60_exceptions.md R321: POP_OUTPUT: BUSY in ring mode, NONE when no output waits, else the oldest is taken; in every
STATE, active or not. -/
def Obligations.PopOutputFollowsItsRule : Prop :=
  ∀ (s : State) (k : Nat) (m : Instance), s.insts[k]? = some m →
    (s.rstate = .running → hostStep (.popOutput k) s = .next (s.answer .busy)) ∧
    (s.rstate ≠ .running → m.oq = [] → hostStep (.popOutput k) s = .next (s.answer .noValue)) ∧
    (∀ v rest, s.rstate ≠ .running → m.oq = v :: rest →
      hostStep (.popOutput k) s = .next ((s.setInst k { m with oq := rest }).answer (.value v)))

/-- 60_exceptions.md R326: READ_MEM: BUSY in ring mode or while the instance is active, OOB outside `[0, L)`, else the
word; it changes nothing but what it returns. And no host operation but an instantiation writes a memory. -/
def Obligations.ReadMemFollowsItsRule : Prop :=
  ∀ (s : State) (k : Nat) (m : Instance) (a : Int), s.insts[k]? = some m →
    (s.rstate = .running ∨ m.active = true → hostStep (.readMem k a) s = .next (s.answer .busy)) ∧
    (s.rstate ≠ .running → m.active = false → ¬ (0 ≤ a ∧ a < m.len) →
      hostStep (.readMem k a) s = .next (s.answer .oob)) ∧
    (s.rstate ≠ .running → m.active = false → 0 ≤ a ∧ a < m.len →
      hostStep (.readMem k a) s = .next (s.answer (.value (m.mem.read a.toNat)))) ∧
    (∀ (op : HostOp) (s' : State) (m' : Instance), op ≠ .instantiate k → op ≠ .ringStart →
      hostStep op s = .next s' → s'.insts[k]? = some m' → m'.mem = m.mem)

/-- 10_state.md R45: the registers of an instance, the reserved numbers 0x08 to 0x3F, and that none of them can be
written. Reading has no side effect and is accepted in ring mode too (60_exceptions.md R325). -/
def Obligations.InstanceRegisterMap : Prop :=
  ∀ (s : State) (k : Nat) (m : Instance), s.insts[k]? = some m →
    (let reads := fun (r : Nat) (v : Int) => hostStep (.readReg k r) s = .next (s.answer (.value v))
     reads 0x00 ((m.state.code : Int) + (if m.active then 4 else 0) + (if m.halted then 8 else 0)) ∧
     reads 0x01 m.ip ∧ reads 0x02 m.len ∧ reads 0x03 m.faultCause.code ∧ reads 0x04 m.faultIp ∧
     reads 0x05 m.faultInfo ∧ reads 0x06 m.iq.length ∧ reads 0x07 m.oq.length) ∧
    (∀ r, 8 ≤ r → r < 64 → hostStep (.readReg k r) s = .next (s.answer .illegal)) ∧
    (∀ r v, r < 64 → s.rstate ≠ .running → hostStep (.writeReg r v) s = .next (s.answer .illegal))

/-- 10_state.md R46, 60_exceptions.md R325: what READ_REG returns for the shared registers and the reserved numbers
from 0x40 up. -/
def Obligations.SharedRegisterMap : Prop :=
  ∀ (s : State) (k : Nat),
    (let reads := fun (r : Nat) (v : Int) => hostStep (.readReg k r) s = .next (s.answer (.value v))
     reads 0x40 ((s.rstate.code : Int) + 4 * s.rfault.code) ∧ reads 0x41 s.ringN ∧ reads 0x42 s.ringCur ∧
     reads 0x43 s.carried ∧ reads 0x44 s.seed ∧ reads 0x45 s.ringFaultInst ∧ reads 0x46 s.plen ∧
     ∀ i v, s.phase[i]? = some v → reads (0x80 + i) v) ∧
    (∀ r, 0x47 ≤ r → r < 0x80 ∨ 0x80 + s.phase.length ≤ r →
      hostStep (.readReg k r) s = .next (s.answer .illegal))

/-- 10_state.md R47, 60_exceptions.md R327: WRITE_REG: BUSY in ring mode; else RING_N, SEED and PHASE[i] with a legal
value are written and return OK; an illegal value and every other number return ILLEGAL and change nothing. -/
def Obligations.WriteRegFollowsItsRule : Prop :=
  ∀ (s : State) (v : Int),
    (s.rstate = .running → ∀ r, r = 0x41 ∨ r = 0x44 ∨ (0x80 ≤ r ∧ r < 0x80 + s.cfg.nMax) →
      hostStep (.writeReg r v) s = .next (s.answer .busy)) ∧
    (s.rstate ≠ .running → 1 ≤ v ∧ v ≤ s.cfg.nMax →
      hostStep (.writeReg 0x41 v) s = .next (State.answer { s with ringN := v.toNat } .ok)) ∧
    (s.rstate ≠ .running → ¬ (1 ≤ v ∧ v ≤ s.cfg.nMax) →
      hostStep (.writeReg 0x41 v) s = .next (s.answer .illegal)) ∧
    (s.rstate ≠ .running → s.cfg.InRange v →
      hostStep (.writeReg 0x44 v) s = .next (State.answer { s with seed := v } .ok)) ∧
    (s.rstate ≠ .running → ∀ i, i < s.cfg.nMax → s.cfg.InRange v →
      hostStep (.writeReg (0x80 + i) v) s = .next (State.answer { s with phase := s.phase.set i v } .ok)) ∧
    (s.rstate ≠ .running → ∀ r, ¬ s.cfg.InRange v → r ≠ 0x41 →
      hostStep (.writeReg r v) s = .next (s.answer .illegal)) ∧
    (s.rstate ≠ .running → ∀ r, r ≠ 0x41 → r ≠ 0x44 → ¬ (0x80 ≤ r ∧ r < 0x80 + s.cfg.nMax) →
      hostStep (.writeReg r v) s = .next (s.answer .illegal))

/-- In ring mode every host operation but READ_REG returns BUSY and changes nothing; READ_REG answers. It rests on
60_exceptions.md R328, and where it goes further it is the model's choice: BUSY for WRITE_REG of a read-only or
reserved number, where 10_state.md R45 and 60_exceptions.md R327 say ILLEGAL (log entry 11, DEDUCED, unsafe), and BUSY
before an unknown index or a value that is no word is looked at (log entries 8, 9 and 11). -/
def Obligations.RingModeAnswersBusy : Prop :=
  ∀ s : State, s.rstate = .running →
    (∀ op : HostOp, (∀ i r, op ≠ .readReg i r) → hostStep op s = .next (s.answer .busy)) ∧
    (∀ i r, i < s.insts.length → ∃ a, a ≠ .busy ∧ hostStep (.readReg i r) s = .next (s.answer a))

/-- 60_exceptions.md R330: LOAD_PROGRAM of words: BUSY in ring mode, TOO_LONG beyond MEM_WORDS, else the store reads
as the words, keeps what it held beyond them, and PLEN is their number; no instance is touched. -/
def Obligations.LoadProgramFollowsItsRule : Prop :=
  ∀ (s : State) (ws : List Int), (∀ w ∈ ws, s.cfg.InRange w) →
    (s.rstate = .running → hostStep (.loadProgram ws) s = .next (s.answer .busy)) ∧
    (s.rstate ≠ .running → s.cfg.memWords < ws.length →
      hostStep (.loadProgram ws) s = .next (s.answer .tooLong)) ∧
    (s.rstate ≠ .running → ws.length ≤ s.cfg.memWords →
      ∃ p : Memory, hostStep (.loadProgram ws) s =
          .next (State.answer { s with prog := p, plen := ws.length } .ok) ∧
        (∀ j w, ws[j]? = some w → p.read j = w) ∧ (∀ j, ws.length ≤ j → p.read j = s.prog.read j))

/-- 60_exceptions.md R331, 10_state.md R50: INSTANTIATE: BUSY in ring mode or while active, else the instance is a
fresh one whose memory reads as the program store below PLEN and as before from it on. -/
def Obligations.InstantiateFollowsItsRule : Prop :=
  ∀ (s : State) (k : Nat) (m : Instance), s.insts[k]? = some m →
    (s.rstate = .running ∨ m.active = true → hostStep (.instantiate k) s = .next (s.answer .busy)) ∧
    (s.rstate ≠ .running → m.active = false →
      ∃ p : Memory,
        hostStep (.instantiate k) s = .next ((s.setInst k
          { mem := p, len := s.plen, ip := 0, iq := [], oq := [], halted := false, state := .running, active := false,
            faultCause := .noFault, faultIp := 0, faultInfo := 0 }).answer .ok) ∧
        (∀ a, a < s.plen → p.read a = s.prog.read a) ∧ (∀ a, s.plen ≤ a → p.read a = m.mem.read a))

/-! ### The ring -/

/-- 60_exceptions.md R341: RING_START: BUSY in ring mode, ILLEGAL with RING_N out of range or an active member, else
every member is instantiated with its phase queued and the ring runs from member 0 with SEED carried; instances outside
the ring stay as they are. -/
def Obligations.RingStartFollowsItsRule : Prop :=
  ∀ s : State,
    (s.rstate = .running → hostStep .ringStart s = .next (s.answer .busy)) ∧
    (s.rstate ≠ .running →
      (¬ (1 ≤ s.ringN ∧ s.ringN ≤ s.cfg.nMax) ∨
        ∃ j m, j < s.ringN ∧ s.insts[j]? = some m ∧ m.active = true) →
      hostStep .ringStart s = .next (s.answer .illegal)) ∧
    (s.rstate ≠ .running → 1 ≤ s.ringN ∧ s.ringN ≤ s.cfg.nMax →
      (∀ j m, j < s.ringN → s.insts[j]? = some m → m.active = false) →
      ∃ ms : List Instance,
        hostStep .ringStart s = .next (State.answer { s with
          insts := ms, carried := s.seed, ringCur := 0, rfault := .noFault, ringFaultInst := 0,
          rstate := .running, rphase := .issue } .ok) ∧
        (∀ j m v, j < s.ringN → s.insts[j]? = some m → s.phase[j]? = some v →
          ms[j]? = some { m.instantiate s.prog s.plen with iq := [v] }) ∧
        (∀ j, s.ringN ≤ j → ms[j]? = s.insts[j]?))

/-- 60_exceptions.md R344, with R345, R346 and R348: a visit. ISSUE: a HALTED member is neither pushed nor resumed; a
full input queue stops the ring; else the carried value is pushed and the member resumed. COLLECT: while the member is
active the scheduler waits; a faulted member stops the ring; else the oldest output becomes the carried value, the
outputs after it staying queued, and the ring is DONE when every member is HALTED and goes on to the next member when
not. -/
def Obligations.RingVisitFollowsItsRule : Prop :=
  ∀ (s : State) (m : Instance), s.rstate = .running → s.insts[s.ringCur]? = some m →
    (s.rphase = .issue →
      (m.state = .halted → s.schedulerStep = .next { s with rphase := .collect }) ∧
      (m.state ≠ .halted → m.iq.length = s.cfg.inDepth → s.schedulerStep =
        .next { s with rstate := .faulted, rfault := .inputFull, ringFaultInst := s.ringCur }) ∧
      (m.active = false → m.state = .running ∨ m.state = .suspendedOnInput → m.iq.length ≠ s.cfg.inDepth →
        s.schedulerStep = .next { s.setInst s.ringCur
          { m with iq := m.iq ++ [s.carried], state := .running, active := true } with rphase := .collect })) ∧
    (s.rphase = .collect →
      (m.active = true → s.schedulerStep = .next s) ∧
      (m.active = false → m.state = .faulted → s.schedulerStep =
        .next { s with rstate := .faulted, rfault := .instanceFault, ringFaultInst := s.ringCur }) ∧
      (m.active = false → m.state ≠ .faulted →
        ∃ u : State,
          (m.oq = [] → u = s) ∧
          (∀ v rest, m.oq = v :: rest → u = { s.setInst s.ringCur { m with oq := rest } with carried := v }) ∧
          ((∀ j n, j < s.ringN → s.insts[j]? = some n → n.state = .halted) →
            s.schedulerStep = .next { u with rstate := .done }) ∧
          ((∃ j n, j < s.ringN ∧ s.insts[j]? = some n ∧ n.state ≠ .halted) →
            s.schedulerStep = .next { u with ringCur := (s.ringCur + 1) % s.ringN, rphase := .issue })))

/-- 60_exceptions.md R345: only a scheduler's step, of a ring all of whose members are HALTED, makes RSTATE DONE. -/
def Obligations.RingIsDoneOnlyWhenAllHalted : Prop :=
  ∀ s s' : State, step s = .next s' → s.rstate ≠ .done → s'.rstate = .done →
    (∃ t, s.nextEvent = some (.scheduler, t)) ∧ s.rstate = .running ∧ s'.ringN = s.ringN ∧
      ∀ j m, j < s'.ringN → s'.insts[j]? = some m → m.state = .halted

/-- 60_exceptions.md R352: no step of the scheduler and no RING_START touches an instance outside the ring. -/
def Obligations.InstancesOutsideTheRingAreUntouched : Prop :=
  ∀ (s s' : State) (k : Nat), s.ringN ≤ k → (s.rstate = .running → s.ringCur < s.ringN) →
    s.schedulerStep = .next s' ∨ hostStep .ringStart s = .next s' → s'.insts[k]? = s.insts[k]?

/-- 60_exceptions.md R347: two blocks that agree on the parameters, the program store and the ring's registers are
alike right after RING_START, and each step of the scheduler or of a member's engine keeps them alike, whatever their
instances held before and whatever else they hold. -/
def Obligations.RingRunsAreDeterministic : Prop :=
  (∀ s t s' : State, s.Ok → t.Ok → s.cfg = t.cfg → s.plen = t.plen →
    (∀ a, a < s.plen → s.prog.read a = t.prog.read a) → s.ringN = t.ringN → s.seed = t.seed → s.phase = t.phase →
    t.rstate ≠ .running → (∀ (j : Nat) (m : Instance), j < t.ringN → t.insts[j]? = some m → m.active = false) →
    hostStep .ringStart s = .next s' → s'.reply = some .ok →
    ∃ t', hostStep .ringStart t = .next t' ∧ s'.RingAlike t') ∧
  (∀ s t s' : State, ∀ e : Event, s.RingAlike t → (s.rstate = .running → s.ringCur < s.ringN) →
    e = .scheduler ∨ (∃ j, j < s.ringN ∧ e = .engine j) → s.fire e = .next s' →
    ∃ t', t.fire e = .next t' ∧ s'.RingAlike t')

/-! ### Reset -/

/-- 10_state.md R48, 70_reset_and_hazards.md R380: what the reset input leaves, for every state before it. The
scheduler's phase and the model's own fields are not part of the rule (log entries 3, 4, 12, 14). -/
def Obligations.ResetLeavesTheStatedValues : Prop :=
  ∀ s : State, s.fire .reset = .next s.resetInput ∧
    (let t := s.resetInput
     t.insts.length = s.cfg.nMax ∧
     (∀ (k : Nat) (m : Instance), t.insts[k]? = some m → m.len = 0 ∧ m.ip = 0 ∧ m.iq = [] ∧ m.oq = [] ∧ m.halted = false ∧
       m.state = .running ∧ m.active = false ∧ m.faultCause = .noFault ∧ m.faultIp = 0 ∧ m.faultInfo = 0) ∧
     t.plen = 0 ∧ t.rstate = .idle ∧ t.rfault = .noFault ∧ t.ringN = 1 ∧ t.ringCur = 0 ∧ t.carried = 0 ∧
     t.seed = 0 ∧ t.phase.length = s.cfg.nMax ∧ (∀ v ∈ t.phase, v = 0) ∧ t.ringFaultInst = 0)

/-- 70_reset_and_hazards.md R382: right after reset, RESUME of any instance starts it, and its engine's step faults
with FETCH_OOB, FAULT_IP 0 and info 0. -/
def Obligations.ResumeAfterResetFaultsAtTheFetch : Prop :=
  ∀ (c : Config) (k : Nat), k < c.nMax →
    ∃ (u v : State) (m : Instance), step { State.resetOf c with pending := [.host (.resume k), .engine k] } = .next u ∧
      u.reply = some .started ∧ step u = .next v ∧ v.insts[k]? = some m ∧
      m.state = .faulted ∧ m.active = false ∧ m.faultCause = .fetchOob ∧ m.faultIp = 0 ∧ m.faultInfo = 0

/-! ### The whole machine -/

/-- The block's invariant (10_state.md R30 to R46, memories in canonical form) is kept by every step from every state
that has it. -/
def Obligations.EveryStepKeepsTheBlockLegal : Prop :=
  ∀ s s' : State, s.Ok → step s = .next s' → s'.Ok

/-- The reset state has the block's invariant, for all parameters that meet their constraints, and so does
`State.reset`; and no ring has run. -/
def Obligations.ResetStateIsLegal : Prop :=
  (∀ c : Config, c.Legal → (State.resetOf c).Ok ∧ (State.resetOf c).RingOk) ∧ State.reset.Ok ∧ State.reset.RingOk

/-- 60_exceptions.md R349: in ring mode the members are always where their visits leave them, so that the ring never
meets a full input queue: RFAULT is never 2. -/
def Obligations.TheRingNeverMeetsAFullInputQueue : Prop :=
  ∀ s s' : State, s.Ok → s.RingOk → step s = .next s' → s'.RingOk

/-- From a legal block, every step with a presentable event completes: no instruction, no scheduler step and no host
operation ends in a stop of the model. The stops left are those of log entries 8 and 9. -/
def Obligations.EveryPresentableStepCompletes : Prop :=
  ∀ s : State, s.Ok → (∀ e ∈ s.pending.head?, e.Presentable s.cfg) → ∃ s', step s = .next s'

/-- The model's own stops (DESIGN CHOICE, log entries 8 and 9): an instruction, engine step or host operation of an
instance index that does not exist, and a host value that is no word; none of them depends on a program's data. -/
def Obligations.UnknownInstancesAndNonWordsStop : Prop :=
  (∀ (i : Instr) (s : State), s.insts[s.cur]? = none → exec i s = .fault (.noSuchInstance s.cur)) ∧
  (∀ (s : State) (k : Nat), s.insts[k]? = none → s.engineStep k = .fault (.noSuchInstance k)) ∧
  (∀ (s : State) (k : Nat) (v : Int) (a : Int), s.rstate ≠ .running → s.insts[k]? = none →
    hostStep (.instantiate k) s = .fault (.noSuchInstance k) ∧
    hostStep (.pushInput k v) s = .fault (.noSuchInstance k) ∧
    hostStep (.popOutput k) s = .fault (.noSuchInstance k) ∧
    hostStep (.resume k) s = .fault (.noSuchInstance k) ∧
    hostStep (.readMem k a) s = .fault (.noSuchInstance k)) ∧
  (∀ (s : State) (k r : Nat), s.insts[k]? = none → r < 64 →
    hostStep (.readReg k r) s = .fault (.noSuchInstance k)) ∧
  (∀ (s : State) (k : Nat) (m : Instance) (v : Int), s.rstate ≠ .running → s.insts[k]? = some m →
    ¬ s.cfg.InRange v → hostStep (.pushInput k v) s = .refused (.notAWord v)) ∧
  (∀ (s : State) (ws : List Int), s.rstate ≠ .running → (∃ w ∈ ws, ¬ s.cfg.InRange w) →
    ∃ w ∈ ws, ¬ s.cfg.InRange w ∧ hostStep (.loadProgram ws) s = .refused (.notAWord w))

/-- The parameters never change (10_state.md R52; the model holds them in `cfg`, log entry 2). -/
def Obligations.ParametersNeverChange : Prop :=
  ∀ s s' : State, step s = .next s' → s'.cfg = s.cfg

/-- 40_execution_cycle.md R166, the model's round robin (DESIGN CHOICE, log entry 3): while no event is coming, an
active instance's engine either takes the next step or comes one place nearer, so it steps within N_MAX + 1 steps. -/
def Obligations.AnActiveInstanceIsNotPassedOver : Prop :=
  ∀ (s : State) (k : Nat) (m : Instance), s.pending = [] → s.insts[k]? = some m → m.active = true →
    ∃ e t, s.nextEvent = some (e, t) ∧ t.pending = [] ∧ t.insts = s.insts ∧
      (e = .engine k ∨ t.waits k < s.waits k)

/-- 60_exceptions.md R324, 20_memory.md R85, the model's list of coming events (DESIGN CHOICE, log entry 3): whatever
the next coming event is, a host operation, any engine's step, the scheduler's or a reset, the step is that event, so
that every interleaving is admitted. -/
def Obligations.AnyEventMayComeNext : Prop :=
  ∀ (s : State) (e : Event) (rest : List Event), s.pending = e :: rest → step s = State.fire { s with pending := rest } e
end

