-- ==== Sys2Proof/Laws/Memory.lean ====
section
/-! SUPPORT. What reading, writing and copying memories does, and that every operation keeps the canonical form. -/

namespace Sys2Proof.Machine

@[simp] theorem Memory.read_nil (a : Nat) : Memory.read [] a = 0 := rfl

theorem Memory.read_cons (b : Nat) (v : Int) (m : Memory) (a : Nat) :
    Memory.read ((b, v) :: m) a = if a = b then v else Memory.read m a := rfl

/-- An address below every listed one reads 0. -/
theorem Memory.read_below {m : Memory} {a : Nat} (h : ∀ x ∈ m, a < x.1) : m.read a = 0 := by
  induction m with
  | nil => rfl
  | cons x m ih =>
    obtain ⟨b, v⟩ := x
    have hb : a < b := h (b, v) (by simp)
    rw [Memory.read_cons, if_neg (by omega)]
    exact ih (fun y hy => h y (by simp [hy]))

/-- A word read is 0 or listed at that address. -/
theorem Memory.read_mem (m : Memory) (a : Nat) : m.read a = 0 ∨ (a, m.read a) ∈ m := by
  induction m with
  | nil => simp
  | cons x m ih =>
    obtain ⟨b, v⟩ := x
    rw [Memory.read_cons]
    split
    · simp_all
    · rcases ih with h | h
      · exact .inl h
      · exact .inr (by simp [h])

theorem Memory.wf_cons {x : Cell} {m : Memory} (h : Memory.wf (x :: m)) :
    (∀ y ∈ m, x.1 < y.1) ∧ x.2 ≠ 0 ∧ Memory.wf m := by
  obtain ⟨hp, hz⟩ := h
  rw [List.pairwise_cons] at hp
  exact ⟨hp.1, hz x (by simp), hp.2, fun y hy => hz y (by simp [hy])⟩

/-- A write leaves every other address alone. -/
theorem Memory.read_write_other (m : Memory) {a b : Nat} (v : Int) (h : b ≠ a) :
    (m.write a v).read b = m.read b := by
  induction m with
  | nil =>
    simp only [Memory.write]
    split <;> simp [Memory.read_cons, h]
  | cons x m ih =>
    obtain ⟨c, u⟩ := x
    simp only [Memory.write]
    split
    · split <;> simp [Memory.read_cons, h]
    · split
      · split <;> simp_all [Memory.read_cons]
      · simp [Memory.read_cons, ih]

/-- A read after a write to the same address gives the word written. -/
theorem Memory.read_write_same {m : Memory} (hm : m.wf) (a : Nat) (v : Int) : (m.write a v).read a = v := by
  induction m with
  | nil =>
    simp only [Memory.write]
    split <;> simp_all [Memory.read_cons]
  | cons x m ih =>
    obtain ⟨c, u⟩ := x
    obtain ⟨hlt, -, hm'⟩ := Memory.wf_cons hm
    simp only [Memory.write]
    split
    case isTrue hac =>
      split
      case isTrue hv =>
        rw [hv]
        refine Memory.read_below ?_
        rintro y (_ | ⟨_, hy⟩)
        · exact hac
        · exact lt_trans hac (hlt y hy)
      case isFalse => simp [Memory.read_cons]
    case isFalse =>
      split
      case isTrue hac =>
        split
        case isTrue hv =>
          rw [hv, hac]
          exact Memory.read_below hlt
        case isFalse => simp [Memory.read_cons]
      case isFalse hac => simp [Memory.read_cons, hac, ih hm']

/-- What a write can list: what was listed, or the word written. -/
theorem Memory.mem_write {m : Memory} {a : Nat} {v : Int} {x : Cell} (h : x ∈ m.write a v) :
    x ∈ m ∨ (x = (a, v) ∧ v ≠ 0) := by
  induction m with
  | nil =>
    simp only [Memory.write] at h
    split at h <;> simp_all
  | cons y m ih =>
    obtain ⟨c, u⟩ := y
    simp only [Memory.write] at h
    split at h
    · split at h
      · exact .inl h
      · rcases List.mem_cons.1 h with h | h
        · exact .inr ⟨h, ‹_›⟩
        · exact .inl h
    · split at h
      · split at h
        · exact .inl (by simp [h])
        · rcases List.mem_cons.1 h with h | h
          · exact .inr ⟨h, ‹_›⟩
          · exact .inl (by simp [h])
      · rcases List.mem_cons.1 h with h | h
        · exact .inl (by simp [h])
        · rcases ih h with h | h
          · exact .inl (by simp [h])
          · exact .inr h

/-- A write keeps the canonical form. -/
theorem Memory.wf_write {m : Memory} (hm : m.wf) (a : Nat) (v : Int) : (m.write a v).wf := by
  refine ⟨?_, fun x hx => ?_⟩
  · induction m with
    | nil =>
      simp only [Memory.write]
      split <;> simp
    | cons y m ih =>
      obtain ⟨c, u⟩ := y
      obtain ⟨hlt, -, hm'⟩ := Memory.wf_cons hm
      simp only [Memory.write]
      split
      case isTrue hac =>
        split
        · exact hm.1
        · refine List.pairwise_cons.2 ⟨?_, hm.1⟩
          rintro y (_ | ⟨_, hy⟩)
          · exact hac
          · exact lt_trans hac (hlt y hy)
      case isFalse hnlt =>
        split
        case isTrue hac =>
          split
          · exact hm'.1
          · exact List.pairwise_cons.2 ⟨fun y hy => hac ▸ hlt y hy, hm'.1⟩
        case isFalse hne =>
          refine List.pairwise_cons.2 ⟨fun y hy => ?_, ih hm'⟩
          rcases Memory.mem_write hy with hy | ⟨rfl, -⟩
          · exact hlt y hy
          · show c < a
            omega
  · rcases Memory.mem_write hx with hx | ⟨rfl, hv⟩
    · exact hm.2 x hx
    · exact hv

/-- Writing a list of words keeps the canonical form. -/
theorem Memory.wf_writeAll {m : Memory} (hm : m.wf) (a : Nat) (ws : List Int) : (m.writeAll a ws).wf := by
  induction ws generalizing m a with
  | nil => exact hm
  | cons w ws ih => exact ih (Memory.wf_write hm a w) (a + 1)

/-- The words of a list are listed from its start on, none of them 0. -/
theorem Memory.mem_ofWords {a : Nat} {ws : List Int} {x : Cell} (h : x ∈ Memory.ofWords a ws) :
    a ≤ x.1 ∧ x.1 < a + ws.length ∧ x.2 ∈ ws ∧ x.2 ≠ 0 := by
  induction ws generalizing a with
  | nil => simp [Memory.ofWords] at h
  | cons w ws ih =>
    simp only [Memory.ofWords] at h
    split at h
    · obtain ⟨h1, h2, h3, h4⟩ := ih h
      exact ⟨by omega, by simp; omega, by simp [h3], h4⟩
    · rcases List.mem_cons.1 h with rfl | h
      · exact ⟨le_refl _, by simp, by simp, ‹_›⟩
      · obtain ⟨h1, h2, h3, h4⟩ := ih h
        exact ⟨by omega, by simp; omega, by simp [h3], h4⟩

theorem Memory.wf_ofWords (a : Nat) (ws : List Int) : (Memory.ofWords a ws).wf := by
  refine ⟨?_, fun x hx => (Memory.mem_ofWords hx).2.2.2⟩
  induction ws generalizing a with
  | nil => simp [Memory.ofWords]
  | cons w ws ih =>
    simp only [Memory.ofWords]
    split
    · exact ih (a + 1)
    · exact List.pairwise_cons.2 ⟨fun y hy => (Memory.mem_ofWords hy).1, ih (a + 1)⟩

/-- The memory of a list of words reads as that list. -/
theorem Memory.read_ofWords (a k : Nat) (ws : List Int) :
    (Memory.ofWords a ws).read (a + k) = ws.getD k 0 := by
  induction ws generalizing a k with
  | nil => simp [Memory.ofWords]
  | cons w ws ih =>
    simp only [Memory.ofWords]
    cases k with
    | zero =>
      have hz : (Memory.ofWords (a + 1) ws).read a = 0 :=
        Memory.read_below (fun y hy => (Memory.mem_ofWords hy).1)
      split <;> simp_all [Memory.read_cons]
    | succ k =>
      have hk := ih (a + 1) k
      rw [show a + 1 + k = a + (k + 1) by omega] at hk
      split <;> simp [Memory.read_cons, hk]

theorem Memory.read_filter (m : Memory) (p : Nat → Bool) (a : Nat) :
    Memory.read (m.filter (fun x => p x.1)) a = if p a then m.read a else 0 := by
  induction m with
  | nil => simp
  | cons x m ih =>
    obtain ⟨b, v⟩ := x
    rw [Memory.read_cons, List.filter_cons]
    by_cases hb : p b
    · by_cases hab : a = b <;> simp_all [Memory.read_cons]
    · by_cases hab : a = b <;> simp_all

/-- In a list of cells that begins with other addresses, an address reads as in the rest. -/
theorem Memory.read_append (m n : Memory) (a : Nat) (h : ∀ x ∈ m, x.1 ≠ a) :
    Memory.read (m ++ n) a = n.read a := by
  induction m with
  | nil => rfl
  | cons x m ih =>
    obtain ⟨b, v⟩ := x
    have hb : b ≠ a := h (b, v) (by simp)
    rw [List.cons_append, Memory.read_cons, if_neg (Ne.symm hb)]
    exact ih (fun y hy => h y (by simp [hy]))

theorem Memory.read_append_left (m n : Memory) (a : Nat) (h : ∀ x ∈ n, x.1 ≠ a) :
    Memory.read (m ++ n) a = m.read a := by
  induction m with
  | nil =>
    have := Memory.read_append n [] a h
    simpa using this
  | cons x m ih =>
    obtain ⟨b, v⟩ := x
    rw [List.cons_append, Memory.read_cons, Memory.read_cons, ih]

/-- A copied memory reads as the source below the length and as before from it on (10_state.md R50). -/
theorem Memory.read_copyBelow (n : Nat) (src dst : Memory) (a : Nat) :
    (Memory.copyBelow n src dst).read a = if a < n then src.read a else dst.read a := by
  unfold Memory.copyBelow
  by_cases ha : a < n
  · rw [if_pos ha, Memory.read_append_left]
    · rw [Memory.read_filter src (fun k => decide (k < n)) a, if_pos (by simpa using ha)]
    · intro x hx
      have := (List.mem_filter.1 hx).2
      simp at this
      omega
  · rw [if_neg ha, Memory.read_append]
    · rw [Memory.read_filter dst (fun k => decide (n ≤ k)) a, if_pos (by simp; omega)]
    · intro x hx
      have := (List.mem_filter.1 hx).2
      simp at this
      omega

/-- What a copied memory lists. -/
theorem Memory.mem_copyBelow {n : Nat} {src dst : Memory} {x : Cell} :
    x ∈ Memory.copyBelow n src dst ↔ (x ∈ src ∧ x.1 < n) ∨ (x ∈ dst ∧ n ≤ x.1) := by
  simp [Memory.copyBelow, List.mem_append, List.mem_filter]

/-- Copying keeps the canonical form. -/
theorem Memory.wf_copyBelow {src dst : Memory} (hs : src.wf) (hd : dst.wf) (n : Nat) :
    (Memory.copyBelow n src dst).wf := by
  refine ⟨List.pairwise_append.2 ⟨hs.1.filter _, hd.1.filter _, fun x hx y hy => ?_⟩, fun x hx => ?_⟩
  · have h1 := (List.mem_filter.1 hx).2
    have h2 := (List.mem_filter.1 hy).2
    simp at h1 h2
    omega
  · rcases Memory.mem_copyBelow.1 hx with h | h
    · exact hs.2 x h.1
    · exact hd.2 x h.1

/-- The memory of the reset state has the canonical form. -/
theorem Memory.wf_nil : Memory.wf [] := ⟨List.Pairwise.nil, by simp⟩

end Sys2Proof.Machine
end

