-- ==== Sys2Proof/Laws/State.lean ====
section
/-! SUPPORT. One lemma for each field and each update of an instance and of the block, true by rfl: no later proof
unfolds a record update. -/

namespace Sys2Proof.Machine

/-! ### `Instance.setWord` -/

@[simp] theorem Instance.setWord_mem (m : Instance) (a : Int) (v : Int) : (m.setWord a v).mem = m.mem.write a.toNat v := rfl
@[simp] theorem Instance.setWord_len (m : Instance) (a : Int) (v : Int) : (m.setWord a v).len = m.len := rfl
@[simp] theorem Instance.setWord_ip (m : Instance) (a : Int) (v : Int) : (m.setWord a v).ip = m.ip := rfl
@[simp] theorem Instance.setWord_iq (m : Instance) (a : Int) (v : Int) : (m.setWord a v).iq = m.iq := rfl
@[simp] theorem Instance.setWord_oq (m : Instance) (a : Int) (v : Int) : (m.setWord a v).oq = m.oq := rfl
@[simp] theorem Instance.setWord_halted (m : Instance) (a : Int) (v : Int) : (m.setWord a v).halted = m.halted := rfl
@[simp] theorem Instance.setWord_state (m : Instance) (a : Int) (v : Int) : (m.setWord a v).state = m.state := rfl
@[simp] theorem Instance.setWord_active (m : Instance) (a : Int) (v : Int) : (m.setWord a v).active = m.active := rfl
@[simp] theorem Instance.setWord_faultCause (m : Instance) (a : Int) (v : Int) : (m.setWord a v).faultCause = m.faultCause := rfl
@[simp] theorem Instance.setWord_faultIp (m : Instance) (a : Int) (v : Int) : (m.setWord a v).faultIp = m.faultIp := rfl
@[simp] theorem Instance.setWord_faultInfo (m : Instance) (a : Int) (v : Int) : (m.setWord a v).faultInfo = m.faultInfo := rfl

/-! ### `Instance.advance` -/

@[simp] theorem Instance.advance_mem (m : Instance) (n : Int) : (m.advance n).mem = m.mem := rfl
@[simp] theorem Instance.advance_len (m : Instance) (n : Int) : (m.advance n).len = m.len := rfl
@[simp] theorem Instance.advance_ip (m : Instance) (n : Int) : (m.advance n).ip = m.ip + n := rfl
@[simp] theorem Instance.advance_iq (m : Instance) (n : Int) : (m.advance n).iq = m.iq := rfl
@[simp] theorem Instance.advance_oq (m : Instance) (n : Int) : (m.advance n).oq = m.oq := rfl
@[simp] theorem Instance.advance_halted (m : Instance) (n : Int) : (m.advance n).halted = m.halted := rfl
@[simp] theorem Instance.advance_state (m : Instance) (n : Int) : (m.advance n).state = m.state := rfl
@[simp] theorem Instance.advance_active (m : Instance) (n : Int) : (m.advance n).active = m.active := rfl
@[simp] theorem Instance.advance_faultCause (m : Instance) (n : Int) : (m.advance n).faultCause = m.faultCause := rfl
@[simp] theorem Instance.advance_faultIp (m : Instance) (n : Int) : (m.advance n).faultIp = m.faultIp := rfl
@[simp] theorem Instance.advance_faultInfo (m : Instance) (n : Int) : (m.advance n).faultInfo = m.faultInfo := rfl

/-! ### `Instance.jump` -/

@[simp] theorem Instance.jump_mem (m : Instance) (t : Int) : (m.jump t).mem = m.mem := rfl
@[simp] theorem Instance.jump_len (m : Instance) (t : Int) : (m.jump t).len = m.len := rfl
@[simp] theorem Instance.jump_ip (m : Instance) (t : Int) : (m.jump t).ip = t := rfl
@[simp] theorem Instance.jump_iq (m : Instance) (t : Int) : (m.jump t).iq = m.iq := rfl
@[simp] theorem Instance.jump_oq (m : Instance) (t : Int) : (m.jump t).oq = m.oq := rfl
@[simp] theorem Instance.jump_halted (m : Instance) (t : Int) : (m.jump t).halted = m.halted := rfl
@[simp] theorem Instance.jump_state (m : Instance) (t : Int) : (m.jump t).state = m.state := rfl
@[simp] theorem Instance.jump_active (m : Instance) (t : Int) : (m.jump t).active = m.active := rfl
@[simp] theorem Instance.jump_faultCause (m : Instance) (t : Int) : (m.jump t).faultCause = m.faultCause := rfl
@[simp] theorem Instance.jump_faultIp (m : Instance) (t : Int) : (m.jump t).faultIp = m.faultIp := rfl
@[simp] theorem Instance.jump_faultInfo (m : Instance) (t : Int) : (m.jump t).faultInfo = m.faultInfo := rfl

/-! ### `Instance.raise` -/

@[simp] theorem Instance.raise_mem (m : Instance) (t : Trap) : (m.raise t).mem = m.mem := rfl
@[simp] theorem Instance.raise_len (m : Instance) (t : Trap) : (m.raise t).len = m.len := rfl
@[simp] theorem Instance.raise_ip (m : Instance) (t : Trap) : (m.raise t).ip = m.ip := rfl
@[simp] theorem Instance.raise_iq (m : Instance) (t : Trap) : (m.raise t).iq = m.iq := rfl
@[simp] theorem Instance.raise_oq (m : Instance) (t : Trap) : (m.raise t).oq = m.oq := rfl
@[simp] theorem Instance.raise_halted (m : Instance) (t : Trap) : (m.raise t).halted = m.halted := rfl
@[simp] theorem Instance.raise_state (m : Instance) (t : Trap) : (m.raise t).state = .faulted := rfl
@[simp] theorem Instance.raise_active (m : Instance) (t : Trap) : (m.raise t).active = false := rfl
@[simp] theorem Instance.raise_faultCause (m : Instance) (t : Trap) : (m.raise t).faultCause = t.cause := rfl
@[simp] theorem Instance.raise_faultIp (m : Instance) (t : Trap) : (m.raise t).faultIp = m.ip := rfl
@[simp] theorem Instance.raise_faultInfo (m : Instance) (t : Trap) : (m.raise t).faultInfo = t.info := rfl

/-! ### `Instance.suspend` -/

@[simp] theorem Instance.suspend_mem (m : Instance) : m.suspend.mem = m.mem := rfl
@[simp] theorem Instance.suspend_len (m : Instance) : m.suspend.len = m.len := rfl
@[simp] theorem Instance.suspend_ip (m : Instance) : m.suspend.ip = m.ip := rfl
@[simp] theorem Instance.suspend_iq (m : Instance) : m.suspend.iq = m.iq := rfl
@[simp] theorem Instance.suspend_oq (m : Instance) : m.suspend.oq = m.oq := rfl
@[simp] theorem Instance.suspend_halted (m : Instance) : m.suspend.halted = m.halted := rfl
@[simp] theorem Instance.suspend_state (m : Instance) : m.suspend.state = .suspendedOnInput := rfl
@[simp] theorem Instance.suspend_active (m : Instance) : m.suspend.active = false := rfl
@[simp] theorem Instance.suspend_faultCause (m : Instance) : m.suspend.faultCause = m.faultCause := rfl
@[simp] theorem Instance.suspend_faultIp (m : Instance) : m.suspend.faultIp = m.faultIp := rfl
@[simp] theorem Instance.suspend_faultInfo (m : Instance) : m.suspend.faultInfo = m.faultInfo := rfl

/-! ### `Instance.stop` -/

@[simp] theorem Instance.stop_mem (m : Instance) : m.stop.mem = m.mem := rfl
@[simp] theorem Instance.stop_len (m : Instance) : m.stop.len = m.len := rfl
@[simp] theorem Instance.stop_ip (m : Instance) : m.stop.ip = m.ip := rfl
@[simp] theorem Instance.stop_iq (m : Instance) : m.stop.iq = m.iq := rfl
@[simp] theorem Instance.stop_oq (m : Instance) : m.stop.oq = m.oq := rfl
@[simp] theorem Instance.stop_halted (m : Instance) : m.stop.halted = true := rfl
@[simp] theorem Instance.stop_state (m : Instance) : m.stop.state = .halted := rfl
@[simp] theorem Instance.stop_active (m : Instance) : m.stop.active = false := rfl
@[simp] theorem Instance.stop_faultCause (m : Instance) : m.stop.faultCause = m.faultCause := rfl
@[simp] theorem Instance.stop_faultIp (m : Instance) : m.stop.faultIp = m.faultIp := rfl
@[simp] theorem Instance.stop_faultInfo (m : Instance) : m.stop.faultInfo = m.faultInfo := rfl

/-! ### `Instance.pushInput` -/

@[simp] theorem Instance.pushInput_mem (m : Instance) (v : Int) : (m.pushInput v).mem = m.mem := rfl
@[simp] theorem Instance.pushInput_len (m : Instance) (v : Int) : (m.pushInput v).len = m.len := rfl
@[simp] theorem Instance.pushInput_ip (m : Instance) (v : Int) : (m.pushInput v).ip = m.ip := rfl
@[simp] theorem Instance.pushInput_iq (m : Instance) (v : Int) : (m.pushInput v).iq = m.iq ++ [v] := rfl
@[simp] theorem Instance.pushInput_oq (m : Instance) (v : Int) : (m.pushInput v).oq = m.oq := rfl
@[simp] theorem Instance.pushInput_halted (m : Instance) (v : Int) : (m.pushInput v).halted = m.halted := rfl
@[simp] theorem Instance.pushInput_state (m : Instance) (v : Int) : (m.pushInput v).state = m.state := rfl
@[simp] theorem Instance.pushInput_active (m : Instance) (v : Int) : (m.pushInput v).active = m.active := rfl
@[simp] theorem Instance.pushInput_faultCause (m : Instance) (v : Int) : (m.pushInput v).faultCause = m.faultCause := rfl
@[simp] theorem Instance.pushInput_faultIp (m : Instance) (v : Int) : (m.pushInput v).faultIp = m.faultIp := rfl
@[simp] theorem Instance.pushInput_faultInfo (m : Instance) (v : Int) : (m.pushInput v).faultInfo = m.faultInfo := rfl

/-! ### `Instance.pushOutput` -/

@[simp] theorem Instance.pushOutput_mem (m : Instance) (v : Int) : (m.pushOutput v).mem = m.mem := rfl
@[simp] theorem Instance.pushOutput_len (m : Instance) (v : Int) : (m.pushOutput v).len = m.len := rfl
@[simp] theorem Instance.pushOutput_ip (m : Instance) (v : Int) : (m.pushOutput v).ip = m.ip := rfl
@[simp] theorem Instance.pushOutput_iq (m : Instance) (v : Int) : (m.pushOutput v).iq = m.iq := rfl
@[simp] theorem Instance.pushOutput_oq (m : Instance) (v : Int) : (m.pushOutput v).oq = m.oq ++ [v] := rfl
@[simp] theorem Instance.pushOutput_halted (m : Instance) (v : Int) : (m.pushOutput v).halted = m.halted := rfl
@[simp] theorem Instance.pushOutput_state (m : Instance) (v : Int) : (m.pushOutput v).state = m.state := rfl
@[simp] theorem Instance.pushOutput_active (m : Instance) (v : Int) : (m.pushOutput v).active = m.active := rfl
@[simp] theorem Instance.pushOutput_faultCause (m : Instance) (v : Int) : (m.pushOutput v).faultCause = m.faultCause := rfl
@[simp] theorem Instance.pushOutput_faultIp (m : Instance) (v : Int) : (m.pushOutput v).faultIp = m.faultIp := rfl
@[simp] theorem Instance.pushOutput_faultInfo (m : Instance) (v : Int) : (m.pushOutput v).faultInfo = m.faultInfo := rfl

/-! ### `Instance.popInput` -/

@[simp] theorem Instance.popInput_mem (m : Instance) : m.popInput.mem = m.mem := rfl
@[simp] theorem Instance.popInput_len (m : Instance) : m.popInput.len = m.len := rfl
@[simp] theorem Instance.popInput_ip (m : Instance) : m.popInput.ip = m.ip := rfl
@[simp] theorem Instance.popInput_iq (m : Instance) : m.popInput.iq = m.iq.tail := rfl
@[simp] theorem Instance.popInput_oq (m : Instance) : m.popInput.oq = m.oq := rfl
@[simp] theorem Instance.popInput_halted (m : Instance) : m.popInput.halted = m.halted := rfl
@[simp] theorem Instance.popInput_state (m : Instance) : m.popInput.state = m.state := rfl
@[simp] theorem Instance.popInput_active (m : Instance) : m.popInput.active = m.active := rfl
@[simp] theorem Instance.popInput_faultCause (m : Instance) : m.popInput.faultCause = m.faultCause := rfl
@[simp] theorem Instance.popInput_faultIp (m : Instance) : m.popInput.faultIp = m.faultIp := rfl
@[simp] theorem Instance.popInput_faultInfo (m : Instance) : m.popInput.faultInfo = m.faultInfo := rfl

/-! ### `Instance.popOutput` -/

@[simp] theorem Instance.popOutput_mem (m : Instance) : m.popOutput.mem = m.mem := rfl
@[simp] theorem Instance.popOutput_len (m : Instance) : m.popOutput.len = m.len := rfl
@[simp] theorem Instance.popOutput_ip (m : Instance) : m.popOutput.ip = m.ip := rfl
@[simp] theorem Instance.popOutput_iq (m : Instance) : m.popOutput.iq = m.iq := rfl
@[simp] theorem Instance.popOutput_oq (m : Instance) : m.popOutput.oq = m.oq.tail := rfl
@[simp] theorem Instance.popOutput_halted (m : Instance) : m.popOutput.halted = m.halted := rfl
@[simp] theorem Instance.popOutput_state (m : Instance) : m.popOutput.state = m.state := rfl
@[simp] theorem Instance.popOutput_active (m : Instance) : m.popOutput.active = m.active := rfl
@[simp] theorem Instance.popOutput_faultCause (m : Instance) : m.popOutput.faultCause = m.faultCause := rfl
@[simp] theorem Instance.popOutput_faultIp (m : Instance) : m.popOutput.faultIp = m.faultIp := rfl
@[simp] theorem Instance.popOutput_faultInfo (m : Instance) : m.popOutput.faultInfo = m.faultInfo := rfl

/-! ### `Instance.instantiate` -/

@[simp] theorem Instance.instantiate_mem (m : Instance) (p : Memory) (n : Nat) : (m.instantiate p n).mem = Memory.copyBelow n p m.mem := rfl
@[simp] theorem Instance.instantiate_len (m : Instance) (p : Memory) (n : Nat) : (m.instantiate p n).len = n := rfl
@[simp] theorem Instance.instantiate_ip (m : Instance) (p : Memory) (n : Nat) : (m.instantiate p n).ip = 0 := rfl
@[simp] theorem Instance.instantiate_iq (m : Instance) (p : Memory) (n : Nat) : (m.instantiate p n).iq = [] := rfl
@[simp] theorem Instance.instantiate_oq (m : Instance) (p : Memory) (n : Nat) : (m.instantiate p n).oq = [] := rfl
@[simp] theorem Instance.instantiate_halted (m : Instance) (p : Memory) (n : Nat) : (m.instantiate p n).halted = false := rfl
@[simp] theorem Instance.instantiate_state (m : Instance) (p : Memory) (n : Nat) : (m.instantiate p n).state = .running := rfl
@[simp] theorem Instance.instantiate_active (m : Instance) (p : Memory) (n : Nat) : (m.instantiate p n).active = false := rfl
@[simp] theorem Instance.instantiate_faultCause (m : Instance) (p : Memory) (n : Nat) : (m.instantiate p n).faultCause = .noFault := rfl
@[simp] theorem Instance.instantiate_faultIp (m : Instance) (p : Memory) (n : Nat) : (m.instantiate p n).faultIp = 0 := rfl
@[simp] theorem Instance.instantiate_faultInfo (m : Instance) (p : Memory) (n : Nat) : (m.instantiate p n).faultInfo = 0 := rfl

/-! ### `State.setInst` -/

@[simp] theorem State.setInst_cfg (s : State) (i : Nat) (m : Instance) : (s.setInst i m).cfg = s.cfg := rfl
@[simp] theorem State.setInst_insts (s : State) (i : Nat) (m : Instance) : (s.setInst i m).insts = s.insts.set i m := rfl
@[simp] theorem State.setInst_prog (s : State) (i : Nat) (m : Instance) : (s.setInst i m).prog = s.prog := rfl
@[simp] theorem State.setInst_plen (s : State) (i : Nat) (m : Instance) : (s.setInst i m).plen = s.plen := rfl
@[simp] theorem State.setInst_rstate (s : State) (i : Nat) (m : Instance) : (s.setInst i m).rstate = s.rstate := rfl
@[simp] theorem State.setInst_rfault (s : State) (i : Nat) (m : Instance) : (s.setInst i m).rfault = s.rfault := rfl
@[simp] theorem State.setInst_ringN (s : State) (i : Nat) (m : Instance) : (s.setInst i m).ringN = s.ringN := rfl
@[simp] theorem State.setInst_ringCur (s : State) (i : Nat) (m : Instance) : (s.setInst i m).ringCur = s.ringCur := rfl
@[simp] theorem State.setInst_carried (s : State) (i : Nat) (m : Instance) : (s.setInst i m).carried = s.carried := rfl
@[simp] theorem State.setInst_seed (s : State) (i : Nat) (m : Instance) : (s.setInst i m).seed = s.seed := rfl
@[simp] theorem State.setInst_phase (s : State) (i : Nat) (m : Instance) : (s.setInst i m).phase = s.phase := rfl
@[simp] theorem State.setInst_ringFaultInst (s : State) (i : Nat) (m : Instance) : (s.setInst i m).ringFaultInst = s.ringFaultInst := rfl
@[simp] theorem State.setInst_rphase (s : State) (i : Nat) (m : Instance) : (s.setInst i m).rphase = s.rphase := rfl
@[simp] theorem State.setInst_cur (s : State) (i : Nat) (m : Instance) : (s.setInst i m).cur = s.cur := rfl
@[simp] theorem State.setInst_turn (s : State) (i : Nat) (m : Instance) : (s.setInst i m).turn = s.turn := rfl
@[simp] theorem State.setInst_pending (s : State) (i : Nat) (m : Instance) : (s.setInst i m).pending = s.pending := rfl
@[simp] theorem State.setInst_reply (s : State) (i : Nat) (m : Instance) : (s.setInst i m).reply = s.reply := rfl

/-! ### `State.answer` -/

@[simp] theorem State.answer_cfg (s : State) (r : Reply) : (s.answer r).cfg = s.cfg := rfl
@[simp] theorem State.answer_insts (s : State) (r : Reply) : (s.answer r).insts = s.insts := rfl
@[simp] theorem State.answer_prog (s : State) (r : Reply) : (s.answer r).prog = s.prog := rfl
@[simp] theorem State.answer_plen (s : State) (r : Reply) : (s.answer r).plen = s.plen := rfl
@[simp] theorem State.answer_rstate (s : State) (r : Reply) : (s.answer r).rstate = s.rstate := rfl
@[simp] theorem State.answer_rfault (s : State) (r : Reply) : (s.answer r).rfault = s.rfault := rfl
@[simp] theorem State.answer_ringN (s : State) (r : Reply) : (s.answer r).ringN = s.ringN := rfl
@[simp] theorem State.answer_ringCur (s : State) (r : Reply) : (s.answer r).ringCur = s.ringCur := rfl
@[simp] theorem State.answer_carried (s : State) (r : Reply) : (s.answer r).carried = s.carried := rfl
@[simp] theorem State.answer_seed (s : State) (r : Reply) : (s.answer r).seed = s.seed := rfl
@[simp] theorem State.answer_phase (s : State) (r : Reply) : (s.answer r).phase = s.phase := rfl
@[simp] theorem State.answer_ringFaultInst (s : State) (r : Reply) : (s.answer r).ringFaultInst = s.ringFaultInst := rfl
@[simp] theorem State.answer_rphase (s : State) (r : Reply) : (s.answer r).rphase = s.rphase := rfl
@[simp] theorem State.answer_cur (s : State) (r : Reply) : (s.answer r).cur = s.cur := rfl
@[simp] theorem State.answer_turn (s : State) (r : Reply) : (s.answer r).turn = s.turn := rfl
@[simp] theorem State.answer_pending (s : State) (r : Reply) : (s.answer r).pending = s.pending := rfl
@[simp] theorem State.answer_reply (s : State) (r : Reply) : (s.answer r).reply = some r := rfl

/-! ### `State.resetOf` and `State.resetInput` -/

@[simp] theorem State.resetOf_cfg (c : Config) : (State.resetOf c).cfg = c := rfl
@[simp] theorem State.resetOf_insts (c : Config) : (State.resetOf c).insts = List.replicate c.nMax Instance.atReset := rfl
@[simp] theorem State.resetOf_prog (c : Config) : (State.resetOf c).prog = [] := rfl
@[simp] theorem State.resetOf_plen (c : Config) : (State.resetOf c).plen = 0 := rfl
@[simp] theorem State.resetOf_rstate (c : Config) : (State.resetOf c).rstate = .idle := rfl
@[simp] theorem State.resetOf_rfault (c : Config) : (State.resetOf c).rfault = .noFault := rfl
@[simp] theorem State.resetOf_ringN (c : Config) : (State.resetOf c).ringN = 1 := rfl
@[simp] theorem State.resetOf_ringCur (c : Config) : (State.resetOf c).ringCur = 0 := rfl
@[simp] theorem State.resetOf_carried (c : Config) : (State.resetOf c).carried = 0 := rfl
@[simp] theorem State.resetOf_seed (c : Config) : (State.resetOf c).seed = 0 := rfl
@[simp] theorem State.resetOf_phase (c : Config) : (State.resetOf c).phase = List.replicate c.nMax 0 := rfl
@[simp] theorem State.resetOf_ringFaultInst (c : Config) : (State.resetOf c).ringFaultInst = 0 := rfl
@[simp] theorem State.resetOf_rphase (c : Config) : (State.resetOf c).rphase = .issue := rfl
@[simp] theorem State.resetOf_cur (c : Config) : (State.resetOf c).cur = 0 := rfl
@[simp] theorem State.resetOf_turn (c : Config) : (State.resetOf c).turn = 0 := rfl
@[simp] theorem State.resetOf_pending (c : Config) : (State.resetOf c).pending = [] := rfl
@[simp] theorem State.resetOf_reply (c : Config) : (State.resetOf c).reply = none := rfl

@[simp] theorem State.resetInput_cfg (s : State) : s.resetInput.cfg = (State.resetOf s.cfg).cfg := rfl
@[simp] theorem State.resetInput_insts (s : State) : s.resetInput.insts = (State.resetOf s.cfg).insts := rfl
@[simp] theorem State.resetInput_prog (s : State) : s.resetInput.prog = (State.resetOf s.cfg).prog := rfl
@[simp] theorem State.resetInput_plen (s : State) : s.resetInput.plen = (State.resetOf s.cfg).plen := rfl
@[simp] theorem State.resetInput_rstate (s : State) : s.resetInput.rstate = (State.resetOf s.cfg).rstate := rfl
@[simp] theorem State.resetInput_rfault (s : State) : s.resetInput.rfault = (State.resetOf s.cfg).rfault := rfl
@[simp] theorem State.resetInput_ringN (s : State) : s.resetInput.ringN = (State.resetOf s.cfg).ringN := rfl
@[simp] theorem State.resetInput_ringCur (s : State) : s.resetInput.ringCur = (State.resetOf s.cfg).ringCur := rfl
@[simp] theorem State.resetInput_carried (s : State) : s.resetInput.carried = (State.resetOf s.cfg).carried := rfl
@[simp] theorem State.resetInput_seed (s : State) : s.resetInput.seed = (State.resetOf s.cfg).seed := rfl
@[simp] theorem State.resetInput_phase (s : State) : s.resetInput.phase = (State.resetOf s.cfg).phase := rfl
@[simp] theorem State.resetInput_ringFaultInst (s : State) : s.resetInput.ringFaultInst = (State.resetOf s.cfg).ringFaultInst := rfl
@[simp] theorem State.resetInput_rphase (s : State) : s.resetInput.rphase = (State.resetOf s.cfg).rphase := rfl
@[simp] theorem State.resetInput_cur (s : State) : s.resetInput.cur = (State.resetOf s.cfg).cur := rfl
@[simp] theorem State.resetInput_turn (s : State) : s.resetInput.turn = (State.resetOf s.cfg).turn := rfl
@[simp] theorem State.resetInput_pending (s : State) : s.resetInput.pending = s.pending := rfl
@[simp] theorem State.resetInput_reply (s : State) : s.resetInput.reply = (State.resetOf s.cfg).reply := rfl

end Sys2Proof.Machine
end

