-- ==== Sys2Proof/Laws/Operands.lean ====
section
/-! SUPPORT. What the operand forms and the shared shapes of instruction can do, said once for each. -/

namespace Sys2Proof.Machine

theorem Instance.inBounds_iff (m : Instance) (a : Int) : m.inBounds a = true ↔ 0 ≤ a ∧ a < (m.len : Int) := by
  simp [Instance.inBounds]

theorem Instance.inBounds_false_iff (m : Instance) (a : Int) :
    m.inBounds a = false ↔ ¬ (0 ≤ a ∧ a < (m.len : Int)) := by
  rw [← Instance.inBounds_iff, Bool.not_eq_true]

/-! ### Values -/

@[simp] theorem Instance.value_immediate (m : Instance) (p : Int) : m.value ⟨.immediate, p⟩ = .ok p := rfl

theorem Instance.value_position (m : Instance) (p : Int) :
    m.value ⟨.position, p⟩ = if m.inBounds p then .ok (m.wordAt p) else .error ⟨.readOob, p⟩ := rfl

/-- A value that cannot be resolved is READ_OOB with the operand word. -/
theorem Instance.value_error {m : Instance} {o : Operand} {t : Trap} (h : m.value o = .error t) :
    t = ⟨.readOob, o.word⟩ := by
  unfold Instance.value at h
  split at h
  · cases h
  · split at h
    · cases h
    · simpa using h.symm

/-- A resolved value is the operand word or the word it addresses. -/
theorem Instance.value_ok {m : Instance} {o : Operand} {x : Int} (h : m.value o = .ok x) :
    x = o.word ∨ (m.inBounds o.word = true ∧ x = m.wordAt o.word) := by
  unfold Instance.value at h
  split at h
  · exact .inl (by simpa using h.symm)
  · split at h
    · exact .inr ⟨‹_›, by simpa using h.symm⟩
    · cases h

/-! ### Destinations -/

theorem Instance.store_in {m : Instance} {d : Dest} (h : m.inBounds d.addr = true) (v : Int) :
    m.store d v = .ok (m.setWord d.addr v) := by simp [Instance.store, h]

theorem Instance.store_out {m : Instance} {d : Dest} (h : m.inBounds d.addr = false) (v : Int) :
    m.store d v = .error ⟨.writeOob, d.addr⟩ := by simp [Instance.store, h]

/-- A store does one of two things. -/
theorem Instance.store_cases (m : Instance) (d : Dest) (v : Int) :
    (m.inBounds d.addr = true ∧ m.store d v = .ok (m.setWord d.addr v)) ∨
    (m.inBounds d.addr = false ∧ m.store d v = .error ⟨.writeOob, d.addr⟩) := by
  cases h : m.inBounds d.addr with
  | true => exact .inl ⟨rfl, Instance.store_in h v⟩
  | false => exact .inr ⟨rfl, Instance.store_out h v⟩

/-! ### Results -/

theorem checked_in {c : Config} {r : Int} (h : c.InRange r) : checked c r = .ok r := by simp [checked, h]

theorem checked_out {c : Config} {r : Int} (h : ¬ c.InRange r) : checked c r = .error ⟨.overflow, 0⟩ := by
  rw [checked, if_neg h]

theorem checked_error {c : Config} {r : Int} {t : Trap} (h : checked c r = .error t) : t = ⟨.overflow, 0⟩ := by
  unfold checked at h
  split at h
  · cases h
  · simpa using h.symm

theorem checked_ok {c : Config} {r v : Int} (h : checked c r = .ok v) : v = r ∧ c.InRange r := by
  unfold checked at h
  split at h
  · exact ⟨by simpa using h.symm, ‹_›⟩
  · cases h

theorem truth_eq (b : Bool) : truth b = if b then 1 else 0 := rfl

/-! ### The shapes of instruction -/

/-- Everything the three-operand shape can do. -/
theorem Instance.binary_cases (m : Instance) (a b : Operand) (f : Int → Int → Except Trap Int) (d : Dest) :
    (∃ t, m.value a = .error t ∧ m.binary a b f d = .error t) ∨
    (∃ x t, m.value a = .ok x ∧ m.value b = .error t ∧ m.binary a b f d = .error t) ∨
    (∃ x y t, m.value a = .ok x ∧ m.value b = .ok y ∧ f x y = .error t ∧ m.binary a b f d = .error t) ∨
    (∃ x y r, m.value a = .ok x ∧ m.value b = .ok y ∧ f x y = .ok r ∧ m.inBounds d.addr = false ∧
      m.binary a b f d = .error ⟨.writeOob, d.addr⟩) ∨
    (∃ x y r, m.value a = .ok x ∧ m.value b = .ok y ∧ f x y = .ok r ∧ m.inBounds d.addr = true ∧
      m.binary a b f d = .ok ((m.setWord d.addr r).advance 4)) := by
  unfold Instance.binary
  cases ha : m.value a with
  | error t => exact .inl ⟨t, rfl, rfl⟩
  | ok x =>
    cases hb : m.value b with
    | error t => exact .inr (.inl ⟨x, t, rfl, rfl, rfl⟩)
    | ok y =>
      cases hf : f x y with
      | error t => exact .inr (.inr (.inl ⟨x, y, t, rfl, rfl, hf, by simp [bind, Except.bind, hf]⟩))
      | ok r =>
        rcases m.store_cases d r with ⟨hd, hs⟩ | ⟨hd, hs⟩
        · exact .inr (.inr (.inr (.inr ⟨x, y, r, rfl, rfl, hf, hd,
            by simp [bind, Except.bind, hf, hs, pure, Except.pure]⟩)))
        · exact .inr (.inr (.inr (.inl ⟨x, y, r, rfl, rfl, hf, hd, by simp [bind, Except.bind, hf, hs]⟩)))

/-- Everything a conditional jump can do. -/
theorem Instance.branch_cases (m : Instance) (a b : Operand) (taken : Int → Bool) :
    (∃ t, m.value a = .error t ∧ m.branch a b taken = .error t) ∨
    (∃ c t, m.value a = .ok c ∧ m.value b = .error t ∧ m.branch a b taken = .error t) ∨
    (∃ c t, m.value a = .ok c ∧ m.value b = .ok t ∧
      m.branch a b taken = .ok (if taken c then m.jump t else m.advance 3)) := by
  unfold Instance.branch
  cases ha : m.value a with
  | error t => exact .inl ⟨t, rfl, rfl⟩
  | ok c =>
    cases hb : m.value b with
    | error t => exact .inr (.inl ⟨c, t, rfl, rfl, rfl⟩)
    | ok t => exact .inr (.inr ⟨c, t, rfl, rfl, rfl⟩)

/-- Everything INPUT can do. -/
theorem Instance.takeInput_cases (m : Instance) (d : Dest) :
    (m.iq = [] ∧ m.takeInput d = .ok m.suspend) ∨
    (∃ v rest, m.iq = v :: rest ∧ m.inBounds d.addr = false ∧
      m.takeInput d = .error ⟨.writeOob, d.addr⟩) ∨
    (∃ v rest, m.iq = v :: rest ∧ m.inBounds d.addr = true ∧
      m.takeInput d = .ok ((m.setWord d.addr v).popInput.advance 2)) := by
  unfold Instance.takeInput
  cases hq : m.iq with
  | nil => exact .inl ⟨rfl, rfl⟩
  | cons v rest =>
    rcases m.store_cases d v with ⟨hd, hs⟩ | ⟨hd, hs⟩
    · exact .inr (.inr ⟨v, rest, rfl, hd, by simp [bind, Except.bind, hs, pure, Except.pure]⟩)
    · exact .inr (.inl ⟨v, rest, rfl, hd, by simp [bind, Except.bind, hs]⟩)

/-- Everything OUTPUT can do. -/
theorem Instance.giveOutput_cases (m : Instance) (c : Config) (a : Operand) :
    (∃ t, m.value a = .error t ∧ m.giveOutput c a = .error t) ∨
    (∃ x, m.value a = .ok x ∧ m.oq.length = c.outDepth ∧ m.giveOutput c a = .error ⟨.outputFull, x⟩) ∨
    (∃ x, m.value a = .ok x ∧ m.oq.length ≠ c.outDepth ∧
      m.giveOutput c a = .ok ((m.pushOutput x).advance 2)) := by
  unfold Instance.giveOutput
  cases ha : m.value a with
  | error t => exact .inl ⟨t, rfl, rfl⟩
  | ok x =>
    by_cases hf : m.oq.length = c.outDepth
    · exact .inr (.inl ⟨x, rfl, hf, by simp [bind, Except.bind, hf]⟩)
    · exact .inr (.inr ⟨x, rfl, hf, by simp [bind, Except.bind, hf]⟩)

@[simp] theorem Instance.conclude_ok (m m' : Instance) : m.conclude (.ok m') = m' := rfl

@[simp] theorem Instance.conclude_error (m : Instance) (t : Trap) : m.conclude (.error t) = m.raise t := rfl

end Sys2Proof.Machine
end

