-- ==== Sys2Proof/Laws/Block.lean ====
section
/-! SUPPORT. What acting on one instance does to the block, and `exec` as the effect of an instruction on the current
instance. -/

namespace Sys2Proof.Machine

/-! ### One instance of the block -/

theorem State.onInst_some {s : State} {i : Nat} {m : Instance} (h : s.insts[i]? = some m)
    (f : Instance → Host.Outcome State Fault Refusal) : s.onInst i f = f m := by
  simp [State.onInst, h]

theorem State.onInst_none {s : State} {i : Nat} (h : s.insts[i]? = none)
    (f : Instance → Host.Outcome State Fault Refusal) : s.onInst i f = .fault (.noSuchInstance i) := by
  simp only [State.onInst, h]

/-- An action on instance `i` that goes on is the action on an instance that exists. -/
theorem State.onInst_next {s s' : State} {i : Nat} {f : Instance → Host.Outcome State Fault Refusal}
    (h : s.onInst i f = .next s') : ∃ m, s.insts[i]? = some m ∧ f m = .next s' := by
  cases hm : s.insts[i]? with
  | none => rw [State.onInst_none hm] at h; cases h
  | some m => exact ⟨m, rfl, by rwa [State.onInst_some hm] at h⟩

theorem State.setInst_same {s : State} {i : Nat} {m : Instance} (h : s.insts[i]? = some m) (m' : Instance) :
    (s.setInst i m').insts[i]? = some m' := by
  have hi : i < s.insts.length := (List.getElem?_eq_some_iff.1 h).1
  simp [State.setInst, hi]

theorem State.setInst_other {s : State} {i j : Nat} (h : j ≠ i) (m : Instance) :
    (s.setInst i m).insts[j]? = s.insts[j]? := by
  simp [State.setInst, List.getElem?_set_ne (Ne.symm h)]

/-- Setting an instance to what it is changes nothing. -/
theorem State.setInst_self {s : State} {i : Nat} {m : Instance} (h : s.insts[i]? = some m) :
    s.setInst i m = s := by
  have hl : s.insts.set i m = s.insts := by
    apply List.ext_getElem?
    intro j
    by_cases hj : j = i
    · subst hj
      have hi : j < s.insts.length := (List.getElem?_eq_some_iff.1 h).1
      rw [List.getElem?_set_self hi, h]
    · rw [List.getElem?_set_ne (Ne.symm hj)]
  unfold State.setInst
  rw [hl]

/-- Whatever `i` is set to, each instance is the new one or as it was. -/
theorem State.setInst_get {s : State} {i j : Nat} {m n : Instance} (h : (s.setInst i m).insts[j]? = some n) :
    (j = i ∧ n = m) ∨ (j ≠ i ∧ s.insts[j]? = some n) := by
  by_cases hj : j = i
  · subst hj
    rw [State.setInst_insts, List.getElem?_set_self'] at h
    cases hm : s.insts[j]? with
    | none => simp [hm] at h
    | some k => exact .inl ⟨rfl, by simpa [hm] using h.symm⟩
  · exact .inr ⟨hj, by rwa [State.setInst_other hj] at h⟩

/-- What holds of every instance and of a new one holds after setting it. -/
theorem State.setInst_forall {s : State} {i : Nat} {m : Instance} {p : Instance → Prop}
    (hs : ∀ n ∈ s.insts, p n) (hm : p m) : ∀ n ∈ (s.setInst i m).insts, p n := by
  intro n hn
  rcases List.mem_or_eq_of_mem_set hn with h | h
  · exact hs n h
  · exact h ▸ hm

/-! ### Instructions as effects -/

/-- The effect of each instruction on its instance. -/
def effect : Instr → Config → Instance → Except Trap Instance
  | .add a b d, c, m => m.binary a b (sum c) d
  | .mult a b d, c, m => m.binary a b (product c) d
  | .input d, _, m => m.takeInput d
  | .output a, c, m => m.giveOutput c a
  | .jumpIfTrue x t, _, m => m.branch x t (fun c => decide (c ≠ 0))
  | .jumpIfFalse x t, _, m => m.branch x t (fun c => decide (c = 0))
  | .lessThan a b d, _, m => m.binary a b isLess d
  | .equals a b d, _, m => m.binary a b isEqual d
  | .halt, _, m => .ok m.stop

/-- `exec` runs the effect on the current instance and concludes the step. -/
theorem exec_eq (i : Instr) (s : State) : exec i s = s.runCur (effect i) := by cases i <;> rfl

theorem exec_some {i : Instr} {s : State} {m : Instance} (h : s.insts[s.cur]? = some m) :
    exec i s = .next (s.setInst s.cur (m.conclude (effect i s.cfg m))) := by
  rw [exec_eq, State.runCur, State.onInst_some h]

/-- An instruction that goes on changes its instance as its effect says, and nothing else. -/
theorem exec_next {i : Instr} {s s' : State} (h : exec i s = .next s') :
    ∃ m, s.insts[s.cur]? = some m ∧ s' = s.setInst s.cur (m.conclude (effect i s.cfg m)) := by
  rw [exec_eq] at h
  obtain ⟨m, hm, hs⟩ := State.onInst_next h
  exact ⟨m, hm, by simpa using hs.symm⟩

/-! ### Resuming -/

/-- RESUME starts an instance that is running or suspended and not active, and leaves any other alone
(40_execution_cycle.md R141). -/
theorem Instance.resume_cases (m : Instance) :
    (m.active = false ∧ (m.state = .running ∨ m.state = .suspendedOnInput) ∧
      m.resume = ({ m with state := .running, active := true }, .started)) ∨
    ((m.active = true ∨ m.state = .halted ∨ m.state = .faulted) ∧ m.resume = (m, .ignored)) := by
  unfold Instance.resume
  obtain ⟨mem, len, ip, iq, oq, halted, state, active, fc, fi, fo⟩ := m
  cases active <;> cases state <;> simp

/-! ### Fetching -/

/-- Each word of the window is a word of memory in bounds. -/
theorem Instance.window_mem {m : Instance} {w : Int} (h : w ∈ m.window) :
    ∃ a : Nat, a < m.len ∧ w = m.mem.read a := by
  unfold Instance.window at h
  obtain ⟨a, ha, rfl⟩ := List.mem_map.1 h
  have := (m.inBounds_iff a).1 (List.mem_takeWhile_imp ha)
  exact ⟨a.toNat, by omega, rfl⟩

/-- The window is as long as the words in bounds from `ip` on, at most four. -/
theorem Instance.window_length (m : Instance) :
    (m.window.length : Int) = if 0 ≤ m.ip ∧ m.ip < m.len then min 4 ((m.len : Int) - m.ip) else 0 := by
  unfold Instance.window
  rw [List.length_map]
  have hb : ∀ a : Int, m.inBounds a = decide (0 ≤ a ∧ a < (m.len : Int)) := fun a => rfl
  simp only [List.map_cons, List.map_nil, List.takeWhile_cons, List.takeWhile_nil, hb, decide_eq_true_eq]
  split_ifs <;> simp <;> omega

/-- The window's words, one by one. -/
theorem Instance.window_get {m : Instance} {k : Nat} (h : k < m.window.length) :
    m.window[k]? = some (m.wordAt (m.ip + k)) := by
  have hl := m.window_length
  have hb : ∀ a : Int, m.inBounds a = decide (0 ≤ a ∧ a < (m.len : Int)) := fun a => rfl
  have hk : 0 ≤ m.ip ∧ m.ip + k < m.len ∧ k < 4 := by split at hl <;> omega
  obtain ⟨h1, h2, h3⟩ := hk
  unfold Instance.window
  simp only [List.map_cons, List.map_nil, List.takeWhile_cons, List.takeWhile_nil, hb, decide_eq_true_eq]
  rcases k with _ | _ | _ | _ | k
  · rw [if_pos (by omega)]; rfl
  · rw [if_pos (by omega), if_pos (by push_cast at h2; omega)]; rfl
  · rw [if_pos (by omega), if_pos (by push_cast at h2; omega), if_pos (by push_cast at h2; omega)]; rfl
  · rw [if_pos (by omega), if_pos (by push_cast at h2; omega), if_pos (by push_cast at h2; omega),
      if_pos (by push_cast at h2; omega)]; rfl
  · omega

/-- Fetching answers what the decoder answers on the window. -/
theorem Instance.fetch_ok {m : Instance} {i : Instr} :
    m.fetch = .ok i ↔ ∃ rest, decode m.window = .ok (i, rest) := by
  unfold Instance.fetch
  cases h : decode m.window with
  | error e => simp
  | ok p => obtain ⟨j, rest⟩ := p; simp

theorem Instance.fetch_error {m : Instance} {t : Trap} :
    m.fetch = .error t ↔ ∃ e, decode m.window = .error e ∧ t = m.fetchTrap e := by
  unfold Instance.fetch
  cases h : decode m.window with
  | error e => simp [eq_comm]
  | ok p => obtain ⟨j, rest⟩ := p; simp

/-! ### The engine's step -/

/-- Everything the step of an engine can do when it goes on: nothing, since its instance is not active; the fault of
a fetch; or its instruction's effect. -/
theorem State.engineStep_cases {s s' : State} {i : Nat} (h : s.engineStep i = .next s') :
    ∃ m, s.insts[i]? = some m ∧
      ((m.active = false ∧ s' = s) ∨
        (m.active = true ∧ ∃ t, m.fetch = .error t ∧ s' = State.setInst { s with cur := i } i (m.raise t)) ∨
        (m.active = true ∧ ∃ ins, m.fetch = .ok ins ∧
          s' = State.setInst { s with cur := i } i (m.conclude (effect ins s.cfg m)))) := by
  obtain ⟨m, hm, hs⟩ := State.onInst_next h
  refine ⟨m, hm, ?_⟩
  split at hs
  case isFalse ha => exact .inl ⟨by simpa using ha, by simpa using hs.symm⟩
  case isTrue ha =>
    split at hs
    · rename_i ins hf
      refine .inr (.inr ⟨ha, ins, hf, ?_⟩)
      rw [exec_some (s := { s with cur := i }) (m := m) hm] at hs
      simpa using hs.symm
    · rename_i t hf
      exact .inr (.inl ⟨ha, t, hf, by simpa using hs.symm⟩)

/-- The step of the engine of an active instance, as one effect on it. -/
theorem State.engineStep_active {s : State} {i : Nat} {m : Instance} (h : s.insts[i]? = some m)
    (ha : m.active = true) :
    s.engineStep i = .next (State.setInst { s with cur := i } i
      (m.conclude (match m.fetch with
        | .ok ins => effect ins s.cfg m
        | .error t => .error t))) := by
  rw [State.engineStep, State.onInst_some h, if_pos ha]
  cases hf : m.fetch with
  | error t => rfl
  | ok ins => exact exec_some (s := { s with cur := i }) h

theorem State.engineStep_inactive {s : State} {i : Nat} {m : Instance} (h : s.insts[i]? = some m)
    (ha : m.active = false) : s.engineStep i = .next s := by
  rw [State.engineStep, State.onInst_some h, if_neg (by simp [ha])]

end Sys2Proof.Machine
end

