-- ==== Sys2Proof/Laws/Decode.lean ====
section
/-! SUPPORT. What the decoder's digits, the encoder's words and each format's decoding are, said once. -/

namespace Sys2Proof

/-! ### Truncating division on instruction words -/

/-- A word with a legal opcode is positive: truncation gives a negative word no legal opcode
(30_encoding.md R112). -/
theorem pos_of_tmod_pos {w : Int} (h : 0 < w.tmod 100) : 0 < w := by
  by_contra hw
  have h1 : (-w).tmod 100 = -(w.tmod 100) := Int.neg_tmod w 100
  have h2 : 0 ≤ (-w).tmod 100 := Int.tmod_nonneg _ (by omega)
  omega

theorem Opcode.code_pos (op : Opcode) : 0 < op.code := by cases op <;> decide

theorem weight_pos (k : Nat) : 0 < weight k := by
  induction k with
  | zero => decide
  | succ k ih => simp only [weight]; omega

/-- On a word that is not negative, a digit is an ordinary quotient and remainder (41_arithmetic.md R184). -/
theorem digit_of_nonneg {w : Int} (hw : 0 ≤ w) (k : Nat) : digit k w = w / weight k % 10 := by
  have h1 : w.tdiv (weight k) = w / weight k := Int.tdiv_eq_ediv_of_nonneg hw
  have h2 : 0 ≤ w / weight k := Int.ediv_nonneg hw (weight_pos k).le
  rw [digit, h1, Int.tmod_eq_emod_of_nonneg h2]

/-- No digit above the last operand: the word is below the weight of the first such digit. -/
theorem clearAbove_iff {w : Int} (hw : 0 ≤ w) (n : Nat) : clearAbove n w = true ↔ w < weight (n + 2) := by
  rw [clearAbove, decide_eq_true_iff, Int.tdiv_eq_ediv_of_nonneg hw]
  have hp := weight_pos (n + 2)
  constructor
  · intro h
    have := Int.lt_ediv_add_one_mul_self w hp
    rw [h] at this
    omega
  · exact Int.ediv_eq_zero_of_lt hw

/-- Weights rise. -/
theorem weight_mono {n k : Nat} (h : n ≤ k) : weight n ≤ weight k := by
  obtain ⟨d, rfl⟩ := Nat.exists_eq_add_of_le h
  clear h
  induction d with
  | zero => exact le_refl _
  | succ d ih =>
    have := weight_pos (n + d)
    have he : weight (n + (d + 1)) = 10 * weight (n + d) := rfl
    omega

@[simp] theorem weight_two : weight 2 = 100 := rfl
@[simp] theorem weight_three : weight 3 = 1000 := rfl
@[simp] theorem weight_four : weight 4 = 10000 := rfl
@[simp] theorem weight_five : weight 5 = 100000 := rfl

/-! ### Opcodes and modes -/

theorem opcodeOf_eq_some {w : Int} {op : Opcode} : opcodeOf w = some op ↔ op.code = w.tmod 100 := by
  constructor
  · intro h
    simpa using List.find?_some h
  · intro h
    have hf : opcodeOf w = Opcode.all.find? (fun o => decide (o.code = op.code)) := by
      rw [opcodeOf, h]
    rw [hf]
    cases op <;> rfl

theorem opcodeOf_eq_none {w : Int} : opcodeOf w = none ↔ ∀ op : Opcode, op.code ≠ w.tmod 100 := by
  constructor
  · intro h op hop
    rw [opcodeOf_eq_some.2 hop] at h
    cases h
  · intro h
    cases hop : opcodeOf w with
    | none => rfl
    | some op => exact absurd (opcodeOf_eq_some.1 hop) (h op)

theorem modeOf_eq_some {x : Int} {m : Mode} : modeOf x = some m ↔ x = m.toDigit := by
  unfold modeOf
  cases m <;> simp only [Mode.toDigit] <;> split_ifs <;> simp_all

theorem modeOf_eq_none {x : Int} : modeOf x = none ↔ x ≠ 0 ∧ x ≠ 1 := by
  unfold modeOf
  split
  · simp [*]
  · split <;> simp [*]

theorem Mode.toDigit_bounds (m : Mode) : 0 ≤ m.toDigit ∧ m.toDigit ≤ 1 := by cases m <;> decide

theorem Mode.toDigit_inj {m n : Mode} (h : m.toDigit = n.toDigit) : m = n := by
  cases m <;> cases n <;> simp_all [Mode.toDigit]

/-! ### The words the encoder makes -/

theorem instrWord_eq (op : Opcode) (m1 m2 m3 : Mode) :
    instrWord op m1 m2 m3 = op.code + m1.toDigit * 100 + m2.toDigit * 1000 + m3.toDigit * 10000 := rfl

theorem Opcode.code_lt (op : Opcode) : op.code < 100 := by cases op <;> decide

theorem instrWord_pos (op : Opcode) (m1 m2 m3 : Mode) : 0 < instrWord op m1 m2 m3 := by
  have := op.code_pos
  have := m1.toDigit_bounds
  have := m2.toDigit_bounds
  have := m3.toDigit_bounds
  rw [instrWord_eq]
  omega

/-- Every instruction word has at most five digits, so it fits a word of 16 bits (92_eei_decisions.md D1). -/
theorem instrWord_le (op : Opcode) (m1 m2 m3 : Mode) : instrWord op m1 m2 m3 ≤ 11199 := by
  have := op.code_lt
  have := m1.toDigit_bounds
  have := m2.toDigit_bounds
  have := m3.toDigit_bounds
  rw [instrWord_eq]
  omega

@[simp] theorem opcodeOf_instrWord (op : Opcode) (m1 m2 m3 : Mode) :
    opcodeOf (instrWord op m1 m2 m3) = some op := by
  rw [opcodeOf_eq_some, Int.tmod_eq_emod_of_nonneg (instrWord_pos op m1 m2 m3).le, instrWord_eq]
  have := op.code_pos
  have := op.code_lt
  omega

@[simp] theorem modeDigit_one_instrWord (op : Opcode) (m1 m2 m3 : Mode) :
    modeDigit 1 (instrWord op m1 m2 m3) = some m1 := by
  rw [modeDigit, modeOf_eq_some, digit_of_nonneg (instrWord_pos op m1 m2 m3).le, instrWord_eq, weight_two]
  have := op.code_pos
  have := op.code_lt
  have := m1.toDigit_bounds
  omega

@[simp] theorem modeDigit_two_instrWord (op : Opcode) (m1 m2 m3 : Mode) :
    modeDigit 2 (instrWord op m1 m2 m3) = some m2 := by
  rw [modeDigit, modeOf_eq_some, digit_of_nonneg (instrWord_pos op m1 m2 m3).le, instrWord_eq, weight_three]
  have := op.code_pos
  have := op.code_lt
  have := m1.toDigit_bounds
  have := m2.toDigit_bounds
  omega

@[simp] theorem modeDigit_three_instrWord (op : Opcode) (m1 m2 m3 : Mode) :
    modeDigit 3 (instrWord op m1 m2 m3) = some m3 := by
  rw [modeDigit, modeOf_eq_some, digit_of_nonneg (instrWord_pos op m1 m2 m3).le, instrWord_eq, weight_four]
  have := op.code_pos
  have := op.code_lt
  have := m1.toDigit_bounds
  have := m2.toDigit_bounds
  have := m3.toDigit_bounds
  omega

@[simp] theorem clearAbove_three_instrWord (op : Opcode) (m1 m2 m3 : Mode) :
    clearAbove 3 (instrWord op m1 m2 m3) = true := by
  rw [clearAbove_iff (instrWord_pos op m1 m2 m3).le, instrWord_eq, weight_five]
  have := op.code_lt
  have := m1.toDigit_bounds
  have := m2.toDigit_bounds
  have := m3.toDigit_bounds
  omega

@[simp] theorem clearAbove_two_instrWord (op : Opcode) (m1 m2 : Mode) :
    clearAbove 2 (instrWord op m1 m2 .position) = true := by
  rw [clearAbove_iff (instrWord_pos op m1 m2 _).le, instrWord_eq, weight_four]
  have := op.code_lt
  have := m1.toDigit_bounds
  have := m2.toDigit_bounds
  have hp : Mode.position.toDigit = 0 := rfl
  omega

@[simp] theorem clearAbove_one_instrWord (op : Opcode) (m1 : Mode) :
    clearAbove 1 (instrWord op m1 .position .position) = true := by
  rw [clearAbove_iff (instrWord_pos op m1 _ _).le, instrWord_eq, weight_three]
  have := op.code_lt
  have := m1.toDigit_bounds
  have hp : Mode.position.toDigit = 0 := rfl
  omega

@[simp] theorem clearAbove_zero_instrWord (op : Opcode) :
    clearAbove 0 (instrWord op .position .position .position) = true := by
  rw [clearAbove_iff (instrWord_pos op _ _ _).le, instrWord_eq, weight_two]
  have := op.code_lt
  have hp : Mode.position.toDigit = 0 := rfl
  omega

/-! ### A word whose digits decode is the encoder's word for them -/

theorem word_of_digits {w : Int} {op : Opcode} {m1 m2 m3 : Mode} (hop : opcodeOf w = some op)
    (h1 : modeDigit 1 w = some m1) (h2 : modeDigit 2 w = some m2) (h3 : modeDigit 3 w = some m3)
    (hc : clearAbove 3 w = true) : w = instrWord op m1 m2 m3 := by
  have hop := opcodeOf_eq_some.1 hop
  have hw : 0 < w := pos_of_tmod_pos (hop ▸ op.code_pos)
  rw [Int.tmod_eq_emod_of_nonneg hw.le] at hop
  rw [modeDigit, modeOf_eq_some, digit_of_nonneg hw.le] at h1 h2 h3
  rw [clearAbove_iff hw.le] at hc
  simp only [Nat.reduceAdd, weight_two, weight_three, weight_four, weight_five] at h1 h2 h3 hc
  rw [instrWord_eq]
  omega

/-- With nothing above digit `n + 1`, the mode digits above are POSITION's. -/
theorem modeDigit_above {w : Int} {n k : Nat} (hw : 0 ≤ w) (hc : clearAbove n w = true) (hk : n < k) :
    modeDigit k w = some .position := by
  rw [clearAbove_iff hw] at hc
  have hle : weight (n + 2) ≤ weight (k + 1) := weight_mono (by omega)
  rw [modeDigit, modeOf_eq_some, digit_of_nonneg hw, Int.ediv_eq_zero_of_lt hw (by omega)]
  rfl

theorem clearAbove_mono {w : Int} {n k : Nat} (hw : 0 ≤ w) (hc : clearAbove n w = true) (hk : n ≤ k) :
    clearAbove k w = true := by
  rw [clearAbove_iff hw] at hc ⊢
  exact lt_of_lt_of_le hc (weight_mono (by omega))

/-! ### What each format's decoding answers -/

theorem decode0_ok {i j : Instr} {w : Int} {ws rest : List Int} :
    decode0 i w ws = .ok (j, rest) ↔ clearAbove 0 w = true ∧ j = i ∧ rest = ws := by
  unfold decode0
  split <;> simp_all
  exact ⟨fun h => ⟨h.1.symm, h.2.symm⟩, fun h => ⟨h.1.symm, h.2.symm⟩⟩

theorem decode1_ok {mk : Mode → Int → Instr} {j : Instr} {w : Int} {ws rest : List Int} :
    decode1 mk w ws = .ok (j, rest) ↔
      ∃ m1 p1, modeDigit 1 w = some m1 ∧ clearAbove 1 w = true ∧ ws = p1 :: rest ∧ j = mk m1 p1 := by
  unfold decode1
  constructor
  · intro h
    split at h
    · split at h
      · split at h
        · rename_i m1 hm hc _ p1 rest'
          simp only [Except.ok.injEq, Prod.mk.injEq] at h
          exact ⟨m1, p1, hm, hc, by rw [h.2], h.1.symm⟩
        · cases h
      · cases h
    · cases h
  · rintro ⟨m1, p1, hm, hc, rfl, rfl⟩
    simp [hm, hc]

theorem decode2_ok {mk : Operand → Operand → Instr} {j : Instr} {w : Int} {ws rest : List Int} :
    decode2 mk w ws = .ok (j, rest) ↔
      ∃ m1 m2 p1 p2, modeDigit 1 w = some m1 ∧ modeDigit 2 w = some m2 ∧ clearAbove 2 w = true ∧
        ws = p1 :: p2 :: rest ∧ j = mk ⟨m1, p1⟩ ⟨m2, p2⟩ := by
  unfold decode2
  constructor
  · intro h
    split at h
    · split at h
      · split at h
        · rename_i m1 m2 hm1 hm2 hc _ p1 p2 rest'
          simp only [Except.ok.injEq, Prod.mk.injEq] at h
          exact ⟨m1, m2, p1, p2, hm1, hm2, hc, by rw [h.2], h.1.symm⟩
        · cases h
      · cases h
    · cases h
  · rintro ⟨m1, m2, p1, p2, hm1, hm2, hc, rfl, rfl⟩
    simp [hm1, hm2, hc]

theorem decode3_ok {mk : Operand → Operand → Dest → Instr} {j : Instr} {w : Int} {ws rest : List Int} :
    decode3 mk w ws = .ok (j, rest) ↔
      ∃ m1 m2 m3 p1 p2 p3, modeDigit 1 w = some m1 ∧ modeDigit 2 w = some m2 ∧ modeDigit 3 w = some m3 ∧
        clearAbove 3 w = true ∧ ws = p1 :: p2 :: p3 :: rest ∧ j = mk ⟨m1, p1⟩ ⟨m2, p2⟩ ⟨m3, p3⟩ := by
  unfold decode3
  constructor
  · intro h
    split at h
    · split at h
      · split at h
        · rename_i m1 m2 m3 hm1 hm2 hm3 hc _ p1 p2 p3 rest'
          simp only [Except.ok.injEq, Prod.mk.injEq] at h
          exact ⟨m1, m2, m3, p1, p2, p3, hm1, hm2, hm3, hc, by rw [h.2], h.1.symm⟩
        · cases h
      · cases h
    · cases h
  · rintro ⟨m1, m2, m3, p1, p2, p3, hm1, hm2, hm3, hc, rfl, rfl⟩
    simp [hm1, hm2, hm3, hc]

/-! ### What a refusal of each format says -/

/-- A refused list of words is refused with a verdict on its first word, or because operand words are missing after
a legal word. -/
theorem decode3_error {mk : Operand → Operand → Dest → Instr} {w : Int} {ws : List Int} {e : DecodeError}
    (h : decode3 mk w ws = .error e) :
    e = .illegalMode w ∨ (e = .truncated (ws.length + 1) ∧ ws.length < 3 ∧
      ∃ m1 m2 m3, modeDigit 1 w = some m1 ∧ modeDigit 2 w = some m2 ∧ modeDigit 3 w = some m3 ∧
        clearAbove 3 w = true) := by
  unfold decode3 at h
  split at h
  · rename_i m1 m2 m3 h1 h2 h3
    split at h
    · rename_i hc
      split at h
      · cases h
      · rename_i hs
        simp only [Except.error.injEq] at h
        refine .inr ⟨h.symm, ?_, m1, m2, m3, h1, h2, h3, hc⟩
        rcases ws with _ | ⟨p1, _ | ⟨p2, _ | ⟨p3, ws⟩⟩⟩
        · simp
        · simp
        · simp
        · exact absurd rfl (hs p1 p2 p3 ws)
    · exact .inl (by simpa using h.symm)
  · exact .inl (by simpa using h.symm)

theorem decode2_error {mk : Operand → Operand → Instr} {w : Int} {ws : List Int} {e : DecodeError}
    (h : decode2 mk w ws = .error e) :
    e = .illegalMode w ∨ (e = .truncated (ws.length + 1) ∧ ws.length < 2 ∧
      ∃ m1 m2, modeDigit 1 w = some m1 ∧ modeDigit 2 w = some m2 ∧ clearAbove 2 w = true) := by
  unfold decode2 at h
  split at h
  · rename_i m1 m2 h1 h2
    split at h
    · rename_i hc
      split at h
      · cases h
      · rename_i hs
        simp only [Except.error.injEq] at h
        refine .inr ⟨h.symm, ?_, m1, m2, h1, h2, hc⟩
        rcases ws with _ | ⟨p1, _ | ⟨p2, ws⟩⟩
        · simp
        · simp
        · exact absurd rfl (hs p1 p2 ws)
    · exact .inl (by simpa using h.symm)
  · exact .inl (by simpa using h.symm)

theorem decode1_error {mk : Mode → Int → Instr} {w : Int} {ws : List Int} {e : DecodeError}
    (h : decode1 mk w ws = .error e) :
    e = .illegalMode w ∨ (e = .truncated (ws.length + 1) ∧ ws.length < 1 ∧
      ∃ m1, modeDigit 1 w = some m1 ∧ clearAbove 1 w = true) := by
  unfold decode1 at h
  split at h
  · rename_i m1 h1
    split at h
    · rename_i hc
      split at h
      · cases h
      · simp only [Except.error.injEq] at h
        exact .inr ⟨h.symm, by simp, m1, h1, hc⟩
    · exact .inl (by simpa using h.symm)
  · exact .inl (by simpa using h.symm)

theorem decode0_error {i : Instr} {w : Int} {ws : List Int} {e : DecodeError}
    (h : decode0 i w ws = .error e) : e = .illegalMode w := by
  unfold decode0 at h
  split at h
  · cases h
  · simpa using h.symm

/-- A word whose digits decode begins the encoding of some instruction with its opcode. -/
theorem head_of_digits {w : Int} {op : Opcode} (hop : opcodeOf w = some op)
    (hm : ∀ k, 1 ≤ k → k ≤ op.operands → ∃ m, modeDigit k w = some m) (hc : clearAbove op.operands w = true) :
    ∃ i : Instr, i.opcode = op ∧ (encode i).head? = some w := by
  have hw : 0 ≤ w := (pos_of_tmod_pos ((opcodeOf_eq_some.1 hop) ▸ op.code_pos)).le
  have hm' : ∀ k, 1 ≤ k → ∃ m, modeDigit k w = some m ∧ (op.operands < k → m = .position) := by
    intro k hk
    by_cases hk' : op.operands < k
    · exact ⟨_, modeDigit_above hw hc hk', fun _ => rfl⟩
    · obtain ⟨m, h⟩ := hm k hk (by omega)
      exact ⟨m, h, fun h => absurd h hk'⟩
  obtain ⟨m1, h1, p1⟩ := hm' 1 (by omega)
  obtain ⟨m2, h2, p2⟩ := hm' 2 (by omega)
  obtain ⟨m3, h3, p3⟩ := hm' 3 (by omega)
  have hn : op.operands ≤ 3 := by cases op <;> decide
  have hword := word_of_digits hop h1 h2 h3 (clearAbove_mono hw hc hn)
  cases op
  case add => exact ⟨.add ⟨m1, 0⟩ ⟨m2, 0⟩ ⟨m3, 0⟩, rfl, by rw [hword]; rfl⟩
  case mult => exact ⟨.mult ⟨m1, 0⟩ ⟨m2, 0⟩ ⟨m3, 0⟩, rfl, by rw [hword]; rfl⟩
  case lessThan => exact ⟨.lessThan ⟨m1, 0⟩ ⟨m2, 0⟩ ⟨m3, 0⟩, rfl, by rw [hword]; rfl⟩
  case equals => exact ⟨.equals ⟨m1, 0⟩ ⟨m2, 0⟩ ⟨m3, 0⟩, rfl, by rw [hword]; rfl⟩
  case input => exact ⟨.input ⟨m1, 0⟩, rfl, by rw [hword, p2 (by decide), p3 (by decide)]; rfl⟩
  case output => exact ⟨.output ⟨m1, 0⟩, rfl, by rw [hword, p2 (by decide), p3 (by decide)]; rfl⟩
  case jumpIfTrue => exact ⟨.jumpIfTrue ⟨m1, 0⟩ ⟨m2, 0⟩, rfl, by rw [hword, p3 (by decide)]; rfl⟩
  case jumpIfFalse => exact ⟨.jumpIfFalse ⟨m1, 0⟩ ⟨m2, 0⟩, rfl, by rw [hword, p3 (by decide)]; rfl⟩
  case halt => exact ⟨.halt, rfl, by rw [hword, p1 (by decide), p2 (by decide), p3 (by decide)]; rfl⟩

/-- Every refusal of the decoder (30_encoding.md R109, 40_execution_cycle.md R148): no word; a verdict on the first
word; or the first missing operand word, after a word that begins an instruction with more operands. -/
theorem decode_error {ws : List Int} {e : DecodeError} (h : decode ws = .error e) :
    (ws = [] ∧ e = .empty) ∨
    ∃ w ps, ws = w :: ps ∧ ((e = .illegalOpcode w ∧ opcodeOf w = none) ∨ e = .illegalMode w ∨
      (e = .truncated (ps.length + 1) ∧
        ∃ i : Instr, (encode i).head? = some w ∧ ps.length < i.opcode.operands)) := by
  cases ws with
  | nil => exact .inl ⟨rfl, by simpa [decode] using h.symm⟩
  | cons w ps =>
    refine .inr ⟨w, ps, rfl, ?_⟩
    have done3 : ∀ op : Opcode, opcodeOf w = some op → op.operands = 3 → ∀ mk, decode3 mk w ps = .error e →
        e = .illegalMode w ∨ (e = .truncated (ps.length + 1) ∧
          ∃ i : Instr, (encode i).head? = some w ∧ ps.length < i.opcode.operands) := by
      intro op hop hn mk h
      rcases decode3_error h with h | ⟨h, hl, m1, m2, m3, h1, h2, h3, hc⟩
      · exact .inl h
      · obtain ⟨i, hi, hh⟩ := head_of_digits hop (by
          intro k hk hk'
          rw [hn] at hk'
          obtain rfl | rfl | rfl : k = 1 ∨ k = 2 ∨ k = 3 := by omega
          · exact ⟨m1, h1⟩
          · exact ⟨m2, h2⟩
          · exact ⟨m3, h3⟩) (hn ▸ hc)
        exact .inr ⟨h, i, hh, by rw [hi, hn]; exact hl⟩
    have done2 : ∀ op : Opcode, opcodeOf w = some op → op.operands = 2 → ∀ mk, decode2 mk w ps = .error e →
        e = .illegalMode w ∨ (e = .truncated (ps.length + 1) ∧
          ∃ i : Instr, (encode i).head? = some w ∧ ps.length < i.opcode.operands) := by
      intro op hop hn mk h
      rcases decode2_error h with h | ⟨h, hl, m1, m2, h1, h2, hc⟩
      · exact .inl h
      · obtain ⟨i, hi, hh⟩ := head_of_digits hop (by
          intro k hk hk'
          rw [hn] at hk'
          obtain rfl | rfl : k = 1 ∨ k = 2 := by omega
          · exact ⟨m1, h1⟩
          · exact ⟨m2, h2⟩) (hn ▸ hc)
        exact .inr ⟨h, i, hh, by rw [hi, hn]; exact hl⟩
    have done1 : ∀ op : Opcode, opcodeOf w = some op → op.operands = 1 → ∀ mk, decode1 mk w ps = .error e →
        e = .illegalMode w ∨ (e = .truncated (ps.length + 1) ∧
          ∃ i : Instr, (encode i).head? = some w ∧ ps.length < i.opcode.operands) := by
      intro op hop hn mk h
      rcases decode1_error h with h | ⟨h, hl, m1, h1, hc⟩
      · exact .inl h
      · obtain ⟨i, hi, hh⟩ := head_of_digits hop (by
          intro k hk hk'
          rw [hn] at hk'
          obtain rfl : k = 1 := by omega
          exact ⟨m1, h1⟩) (hn ▸ hc)
        exact .inr ⟨h, i, hh, by rw [hi, hn]; exact hl⟩
    simp only [decode] at h
    split at h
    · rename_i hop
      exact .inl ⟨by simpa using h.symm, hop⟩
    all_goals rename_i hop; right
    · exact done3 _ hop rfl _ h
    · exact done3 _ hop rfl _ h
    · exact done1 _ hop rfl _ h
    · exact done1 _ hop rfl _ h
    · exact done2 _ hop rfl _ h
    · exact done2 _ hop rfl _ h
    · exact done3 _ hop rfl _ h
    · exact done3 _ hop rfl _ h
    · exact .inl (decode0_error h)

/-- An instruction that decodes takes its operand words from the list, in order, after its own word. -/
theorem decode_operands {ws : List Int} {i : Instr} {rest : List Int} (h : decode ws = .ok (i, rest)) :
    ∃ w, opcodeOf w = some i.opcode ∧ ws = w :: (i.operandWords ++ rest) := by
  cases ws with
  | nil => simp [decode] at h
  | cons w ps =>
    refine ⟨w, ?_⟩
    simp only [decode] at h
    split at h
    · cases h
    · rename_i hop
      obtain ⟨m1, m2, m3, p1, p2, p3, -, -, -, -, rfl, rfl⟩ := decode3_ok.1 h
      exact ⟨hop, rfl⟩
    · rename_i hop
      obtain ⟨m1, m2, m3, p1, p2, p3, -, -, -, -, rfl, rfl⟩ := decode3_ok.1 h
      exact ⟨hop, rfl⟩
    · rename_i hop
      obtain ⟨m1, p1, -, -, rfl, rfl⟩ := decode1_ok.1 h
      exact ⟨hop, rfl⟩
    · rename_i hop
      obtain ⟨m1, p1, -, -, rfl, rfl⟩ := decode1_ok.1 h
      exact ⟨hop, rfl⟩
    · rename_i hop
      obtain ⟨m1, m2, p1, p2, -, -, -, rfl, rfl⟩ := decode2_ok.1 h
      exact ⟨hop, rfl⟩
    · rename_i hop
      obtain ⟨m1, m2, p1, p2, -, -, -, rfl, rfl⟩ := decode2_ok.1 h
      exact ⟨hop, rfl⟩
    · rename_i hop
      obtain ⟨m1, m2, m3, p1, p2, p3, -, -, -, -, rfl, rfl⟩ := decode3_ok.1 h
      exact ⟨hop, rfl⟩
    · rename_i hop
      obtain ⟨m1, m2, m3, p1, p2, p3, -, -, -, -, rfl, rfl⟩ := decode3_ok.1 h
      exact ⟨hop, rfl⟩
    · rename_i hop
      obtain ⟨-, rfl, rfl⟩ := decode0_ok.1 h
      exact ⟨hop, rfl⟩

/-- An instruction whose operand words are words is well formed (30_encoding.md R105). -/
theorem wellFormed_of_operandWords {c : Config} {i : Instr} (h : ∀ p ∈ i.operandWords, c.InRange p) :
    i.wellFormed c = true := by
  cases i <;> simp_all [Instr.wellFormed, Instr.operandWords, Operand.wellFormed, Dest.wellFormed]

end Sys2Proof
end

