-- ==== Sys2Proof/Laws/Effect.lean ====
section
/-! SUPPORT. Everything an instruction can do to its instance, said once for all instructions. -/

namespace Sys2Proof.Machine

/-- The instance after instruction `i`, from `m`: a fault; the result of ADD, MULT, LESS_THAN or EQUALS stored; INPUT
suspended or done; OUTPUT done; a jump taken or not; HALT done. -/
inductive InstrEffect (c : Config) (m : Instance) : Instr → Instance → Prop where
  | faulted (i : Instr) (t : Trap)
      (hc : t.cause = .readOob ∨ t.cause = .overflow ∨ t.cause = .writeOob ∨ t.cause = .outputFull)
      (hi : t.info = 0 ∨ t.info ∈ i.operandWords ∨ ∃ o : Operand, m.value o = .ok t.info ∧ o.word ∈ i.operandWords) :
      InstrEffect c m i (m.raise t)
  | stored (i : Instr) (a b : Operand) (d : Dest) (r : Int)
      (hi : i = .add a b d ∨ i = .mult a b d ∨ i = .lessThan a b d ∨ i = .equals a b d)
      (hd : m.inBounds d.addr = true) (hr : c.InRange r ∨ r = 0 ∨ r = 1) :
      InstrEffect c m i ((m.setWord d.addr r).advance 4)
  | suspended (d : Dest) (hq : m.iq = []) : InstrEffect c m (.input d) m.suspend
  | took (d : Dest) (v : Int) (rest : List Int) (hq : m.iq = v :: rest) (hd : m.inBounds d.addr = true) :
      InstrEffect c m (.input d) ((m.setWord d.addr v).popInput.advance 2)
  | gave (a : Operand) (x : Int) (hx : m.value a = .ok x) (hl : m.oq.length ≠ c.outDepth) :
      InstrEffect c m (.output a) ((m.pushOutput x).advance 2)
  | jumped (i : Instr) (a b : Operand) (t : Int) (hi : i = .jumpIfTrue a b ∨ i = .jumpIfFalse a b)
      (ht : m.value b = .ok t) : InstrEffect c m i (m.jump t)
  | passed (i : Instr) (a b : Operand) (hi : i = .jumpIfTrue a b ∨ i = .jumpIfFalse a b) :
      InstrEffect c m i (m.advance 3)
  | halted : InstrEffect c m .halt m.stop

theorem InstrEffect.of_binary {c : Config} {m : Instance} {i : Instr} {a b : Operand} {d : Dest}
    {f : Int → Int → Except Trap Int}
    (hi : i = .add a b d ∨ i = .mult a b d ∨ i = .lessThan a b d ∨ i = .equals a b d)
    (hf : ∀ x y t, f x y = .error t → t = ⟨.overflow, 0⟩)
    (hr : ∀ x y r, f x y = .ok r → c.InRange r ∨ r = 0 ∨ r = 1) :
    InstrEffect c m i (m.conclude (m.binary a b f d)) := by
  have hw : i.operandWords = [a.word, b.word, d.addr] := by rcases hi with rfl | rfl | rfl | rfl <;> rfl
  rcases m.binary_cases a b f d with ⟨t, h, e⟩ | ⟨x, t, -, h, e⟩ | ⟨x, y, t, -, -, h, e⟩ | ⟨x, y, r, -, -, -, -, e⟩ |
    ⟨x, y, r, -, -, h, hd, e⟩ <;> rw [e]
  · obtain rfl := Instance.value_error h
    exact .faulted _ _ (by simp) (by simp [hw])
  · obtain rfl := Instance.value_error h
    exact .faulted _ _ (by simp) (by simp [hw])
  · rw [hf x y t h]
    exact .faulted _ _ (by simp) (by simp)
  · exact .faulted _ _ (by simp) (by simp [hw])
  · exact .stored i a b d r hi hd (hr x y r h)

theorem InstrEffect.of_branch {c : Config} {m : Instance} {i : Instr} {a b : Operand} {p : Int → Bool}
    (hi : i = .jumpIfTrue a b ∨ i = .jumpIfFalse a b) : InstrEffect c m i (m.conclude (m.branch a b p)) := by
  have hw : i.operandWords = [a.word, b.word] := by rcases hi with rfl | rfl <;> rfl
  rcases m.branch_cases a b p with ⟨t, h, e⟩ | ⟨x, t, -, h, e⟩ | ⟨x, t, -, h, e⟩ <;> rw [e]
  · obtain rfl := Instance.value_error h
    exact .faulted _ _ (by simp) (by simp [hw])
  · obtain rfl := Instance.value_error h
    exact .faulted _ _ (by simp) (by simp [hw])
  · rw [Instance.conclude_ok]
    split
    · exact .jumped i a b t hi h
    · exact .passed i a b hi

/-- The effect of every instruction, concluded, is one of these. -/
theorem instrEffect (i : Instr) (c : Config) (m : Instance) : InstrEffect c m i (m.conclude (effect i c m)) := by
  have hc : ∀ r t, checked c r = .error t → t = ⟨.overflow, 0⟩ := fun _ _ => checked_error
  have hk : ∀ r v, checked c r = .ok v → c.InRange v ∨ v = 0 ∨ v = 1 := fun _ _ h =>
    .inl ((checked_ok h).1 ▸ (checked_ok h).2)
  have ht : ∀ (b : Bool) (v : Int), Except.ok (ε := Trap) (truth b) = .ok v → c.InRange v ∨ v = 0 ∨ v = 1 := by
    intro b v h
    cases b <;> simp [truth] at h <;> simp [← h]
  cases i with
  | add a b d => exact .of_binary (by simp) (fun _ _ _ => hc _ _) (fun _ _ _ => hk _ _)
  | mult a b d => exact .of_binary (by simp) (fun _ _ _ => hc _ _) (fun _ _ _ => hk _ _)
  | lessThan a b d => exact .of_binary (by simp) (fun _ _ _ h => by cases h) (fun _ _ _ => ht _ _)
  | equals a b d => exact .of_binary (by simp) (fun _ _ _ h => by cases h) (fun _ _ _ => ht _ _)
  | input d =>
    rcases m.takeInput_cases d with ⟨h, e⟩ | ⟨v, rest, h, hd, e⟩ | ⟨v, rest, h, hd, e⟩ <;> simp only [effect, e]
    · exact .suspended d h
    · exact .faulted _ _ (by simp) (by simp [Instr.operandWords])
    · exact .took d v rest h hd
  | output a =>
    rcases m.giveOutput_cases c a with ⟨t, h, e⟩ | ⟨x, h, hl, e⟩ | ⟨x, h, hl, e⟩ <;> simp only [effect, e]
    · obtain rfl := Instance.value_error h
      exact .faulted _ _ (by simp) (by simp [Instr.operandWords])
    · exact .faulted _ _ (by simp) (.inr (.inr ⟨a, h, by simp [Instr.operandWords]⟩))
    · exact .gave a x h hl
  | jumpIfTrue a b => exact .of_branch (by simp)
  | jumpIfFalse a b => exact .of_branch (by simp)
  | halt => exact .halted

/-- Everything the step of the engine of an active instance can do to it: a fault of the fetch, or its instruction. -/
inductive EngineEffect (c : Config) (m : Instance) : Instance → Prop where
  | stopped (e : DecodeError) (he : decode m.window = .error e) : EngineEffect c m (m.raise (m.fetchTrap e))
  | executed (i : Instr) (rest : List Int) (m' : Instance) (hd : decode m.window = .ok (i, rest))
      (he : InstrEffect c m i m') : EngineEffect c m m'

/-- The step of an engine, by its effect on its instance; nothing else of the block changes but `cur`. -/
theorem State.engineStep_effect {s s' : State} {k : Nat} (h : s.engineStep k = .next s') :
    ∃ m, s.insts[k]? = some m ∧
      ((m.active = false ∧ s' = s) ∨
        (m.active = true ∧ ∃ m', EngineEffect s.cfg m m' ∧ s' = State.setInst { s with cur := k } k m')) := by
  obtain ⟨m, hm, h | ⟨ha, t, hf, rfl⟩ | ⟨ha, i, hf, rfl⟩⟩ := State.engineStep_cases h
  · exact ⟨m, hm, .inl h⟩
  · obtain ⟨e, he, rfl⟩ := Instance.fetch_error.1 hf
    exact ⟨m, hm, .inr ⟨ha, _, .stopped e he, rfl⟩⟩
  · obtain ⟨rest, hd⟩ := Instance.fetch_ok.1 hf
    exact ⟨m, hm, .inr ⟨ha, _, .executed i rest _ hd (instrEffect i s.cfg m), rfl⟩⟩

end Sys2Proof.Machine
end

