-- ==== Sys2Proof/Laws/HostOps.lean ====
section
/-! SUPPORT. Everything each host operation and the scheduler can do when they go on, said once for each. -/

namespace Sys2Proof.Machine

/-- An operation turned away in ring mode, or its effect outside it. -/
theorem State.unlessRing_next {s s' : State} {k : Host.Outcome State Fault Refusal}
    (h : s.unlessRing k = .next s') :
    (s.rstate = .running ∧ s' = s.answer .busy) ∨ (s.rstate ≠ .running ∧ k = .next s') := by
  unfold State.unlessRing at h
  split at h
  · exact .inl ⟨‹_›, by simpa using h.symm⟩
  · exact .inr ⟨‹_›, h⟩

theorem State.unlessRing_running {s : State} (h : s.rstate = .running) (k : Host.Outcome State Fault Refusal) :
    s.unlessRing k = .next (s.answer .busy) := by simp [State.unlessRing, h]

theorem State.unlessRing_not {s : State} (h : s.rstate ≠ .running) (k : Host.Outcome State Fault Refusal) :
    s.unlessRing k = k := by simp [State.unlessRing, h]

/-- What a host operation that goes on can do besides answering: nothing; load a program; renew, push, pop or resume
one instance; write a register; start the ring. -/
inductive HostEffect (s : State) : HostOp → State → Prop where
  | answered (op : HostOp) (r : Reply) : HostEffect s op (s.answer r)
  | loaded (ws : List Int) (hn : s.rstate ≠ .running) (hw : ∀ w ∈ ws, s.cfg.InRange w)
      (hl : ws.length ≤ s.cfg.memWords) :
      HostEffect s (.loadProgram ws) (State.answer { s with
        prog := Memory.copyBelow ws.length (Memory.ofWords 0 ws) s.prog, plen := ws.length } .ok)
  | instantiated (i : Nat) (m : Instance) (hn : s.rstate ≠ .running) (hm : s.insts[i]? = some m)
      (ha : m.active = false) :
      HostEffect s (.instantiate i) ((s.setInst i (m.instantiate s.prog s.plen)).answer .ok)
  | pushed (i : Nat) (v : Int) (m : Instance) (hn : s.rstate ≠ .running) (hm : s.insts[i]? = some m)
      (hv : s.cfg.InRange v) (hl : m.iq.length ≠ s.cfg.inDepth) :
      HostEffect s (.pushInput i v) ((s.setInst i (m.pushInput v)).answer .ok)
  | popped (i : Nat) (m : Instance) (v : Int) (rest : List Int) (hn : s.rstate ≠ .running)
      (hm : s.insts[i]? = some m) (hq : m.oq = v :: rest) :
      HostEffect s (.popOutput i) ((s.setInst i m.popOutput).answer (.value v))
  | resumed (i : Nat) (m : Instance) (hn : s.rstate ≠ .running) (hm : s.insts[i]? = some m) :
      HostEffect s (.resume i) ((s.setInst i m.resume.1).answer m.resume.2)
  | wroteRingN (v : Int) (hn : s.rstate ≠ .running) (hv : 1 ≤ v ∧ v ≤ (s.cfg.nMax : Int)) :
      HostEffect s (.writeReg 65 v) (State.answer { s with ringN := v.toNat } .ok)
  | wroteSeed (v : Int) (hn : s.rstate ≠ .running) (hv : s.cfg.InRange v) :
      HostEffect s (.writeReg 68 v) (State.answer { s with seed := v } .ok)
  | wrotePhase (r : Nat) (v : Int) (hn : s.rstate ≠ .running) (hr : 128 ≤ r ∧ r < 128 + s.cfg.nMax)
      (hv : s.cfg.InRange v) :
      HostEffect s (.writeReg r v) (State.answer { s with phase := s.phase.set (r - 128) v } .ok)
  | ringStarted (hn : s.rstate ≠ .running) (hl : s.ringStartLegal = true) :
      HostEffect s .ringStart (State.answer { s with
        insts := s.insts.mapIdx s.ringMember, carried := s.seed, ringCur := 0, rfault := .noFault,
        ringFaultInst := 0, rstate := .running, rphase := .issue } .ok)

theorem hostStep_cases {op : HostOp} {s s' : State} (h : hostStep op s = .next s') : HostEffect s op s' := by
  cases op with
  | loadProgram ws =>
    rcases State.unlessRing_next h with ⟨-, rfl⟩ | ⟨hn, h⟩
    · exact .answered _ _
    · split at h
      · cases h
      · rename_i hf
        split at h
        · obtain rfl : _ = s' := by simpa using h
          exact .answered _ _
        · obtain rfl : _ = s' := by simpa using h
          refine .loaded ws hn (fun w hw => ?_) (by omega)
          have := List.find?_eq_none.1 hf w hw
          simpa using this
  | instantiate i =>
    rcases State.unlessRing_next h with ⟨-, rfl⟩ | ⟨hn, h⟩
    · exact .answered _ _
    · obtain ⟨m, hm, h⟩ := State.onInst_next h
      split at h
      · obtain rfl : _ = s' := by simpa using h
        exact .answered _ _
      · rename_i ha
        obtain rfl : _ = s' := by simpa using h
        exact .instantiated i m hn hm (by simpa using ha)
  | pushInput i v =>
    rcases State.unlessRing_next h with ⟨-, rfl⟩ | ⟨hn, h⟩
    · exact .answered _ _
    · obtain ⟨m, hm, h⟩ := State.onInst_next h
      split at h
      · rename_i hv
        split at h
        · obtain rfl : _ = s' := by simpa using h
          exact .answered _ _
        · rename_i hl
          obtain rfl : _ = s' := by simpa using h
          exact .pushed i v m hn hm hv hl
      · cases h
  | popOutput i =>
    rcases State.unlessRing_next h with ⟨-, rfl⟩ | ⟨hn, h⟩
    · exact .answered _ _
    · obtain ⟨m, hm, h⟩ := State.onInst_next h
      split at h
      · obtain rfl : _ = s' := by simpa using h
        exact .answered _ _
      · rename_i v rest hq
        obtain rfl : _ = s' := by simpa using h
        exact .popped i m v rest hn hm hq
  | resume i =>
    rcases State.unlessRing_next h with ⟨-, rfl⟩ | ⟨hn, h⟩
    · exact .answered _ _
    · obtain ⟨m, hm, h⟩ := State.onInst_next h
      obtain rfl : _ = s' := by simpa using h
      exact .resumed i m hn hm
  | readReg i r =>
    simp only [hostStep, hostReadReg] at h
    split at h
    · obtain ⟨m, hm, h⟩ := State.onInst_next h
      obtain rfl : _ = s' := by simpa using h
      exact .answered _ _
    · obtain rfl : _ = s' := by simpa using h
      exact .answered _ _
  | readMem i a =>
    rcases State.unlessRing_next h with ⟨-, rfl⟩ | ⟨hn, h⟩
    · exact .answered _ _
    · obtain ⟨m, hm, h⟩ := State.onInst_next h
      split at h
      · obtain rfl : _ = s' := by simpa using h
        exact .answered _ _
      · split at h
        · obtain rfl : _ = s' := by simpa using h
          exact .answered _ _
        · obtain rfl : _ = s' := by simpa using h
          exact .answered _ _
  | writeReg r v =>
    rcases State.unlessRing_next h with ⟨-, rfl⟩ | ⟨hn, h⟩
    · exact .answered _ _
    · split at h
      · rename_i hr
        split at h
        · rename_i hv
          obtain rfl : _ = s' := by simpa using h
          exact hr ▸ .wroteRingN v hn hv
        · obtain rfl : _ = s' := by simpa using h
          exact .answered _ _
      · split at h
        · rename_i hr
          split at h
          · rename_i hv
            obtain rfl : _ = s' := by simpa using h
            exact hr ▸ .wroteSeed v hn hv
          · obtain rfl : _ = s' := by simpa using h
            exact .answered _ _
        · split at h
          · rename_i hr
            split at h
            · rename_i hv
              obtain rfl : _ = s' := by simpa using h
              exact .wrotePhase r v hn hr hv
            · obtain rfl : _ = s' := by simpa using h
              exact .answered _ _
          · obtain rfl : _ = s' := by simpa using h
            exact .answered _ _
  | ringStart =>
    rcases State.unlessRing_next h with ⟨-, rfl⟩ | ⟨hn, h⟩
    · exact .answered _ _
    · split at h
      · rename_i hl
        obtain rfl : _ = s' := by simpa using h
        exact .ringStarted hn hl
      · obtain rfl : _ = s' := by simpa using h
        exact .answered _ _

/-- When RING_START may go ahead (60_exceptions.md R341). -/
theorem State.ringStartLegal_iff (s : State) : s.ringStartLegal = true ↔
    (1 ≤ s.ringN ∧ s.ringN ≤ s.cfg.nMax) ∧ ∀ j m, j < s.ringN → s.insts[j]? = some m → m.active = false := by
  simp only [State.ringStartLegal, Bool.and_eq_true, decide_eq_true_eq, List.all_eq_true, and_assoc,
    and_congr_right_iff]
  intro _ _
  constructor
  · intro h j m hj hm
    have hmem : m ∈ s.insts.take s.ringN :=
      List.mem_of_getElem? (i := j) (by rw [List.getElem?_take, if_pos hj, hm])
    simpa using h m hmem
  · intro h m hm
    obtain ⟨j, hj⟩ := List.mem_iff_getElem?.1 hm
    rw [List.getElem?_take] at hj
    split at hj
    · simpa using h j m ‹_› hj
    · cases hj

end Sys2Proof.Machine
end

