-- ==== Sys2Proof/Laws/Ring.lean ====
section
/-! SUPPORT. Everything the scheduler's step can do when it goes on. -/

namespace Sys2Proof.Machine

/-- Every member is HALTED, said of the members one by one. -/
theorem State.ringAllHalted_iff (s : State) : s.ringAllHalted = true ↔
    ∀ j m, j < s.ringN → s.insts[j]? = some m → m.state = .halted := by
  simp only [State.ringAllHalted, List.all_eq_true, decide_eq_true_eq]
  constructor
  · intro h j m hj hm
    exact h m (List.mem_of_getElem? (i := j) (by rw [List.getElem?_take, if_pos hj, hm]))
  · intro h m hm
    obtain ⟨j, hj⟩ := List.mem_iff_getElem?.1 hm
    rw [List.getElem?_take] at hj
    split at hj
    · exact h j m ‹_› hj
    · cases hj

/-- The scheduler's step that goes on, from `s` to `s'`, with `m` the member being visited. -/
inductive SchedulerEffect (s : State) : State → Prop where
  /-- outside ring mode, or waiting for the member's run to end -/
  | waited : SchedulerEffect s s
  /-- ISSUE to a halted member -/
  | skipped (m : Instance) (hr : s.rstate = .running) (hp : s.rphase = .issue)
      (hm : s.insts[s.ringCur]? = some m) (hh : m.state = .halted) :
      SchedulerEffect s { s with rphase := .collect }
  /-- ISSUE to a full input queue -/
  | full (m : Instance) (hr : s.rstate = .running) (hp : s.rphase = .issue)
      (hm : s.insts[s.ringCur]? = some m) (hh : m.state ≠ .halted) (hl : m.iq.length = s.cfg.inDepth) :
      SchedulerEffect s { s with rstate := .faulted, rfault := .inputFull, ringFaultInst := s.ringCur }
  /-- ISSUE -/
  | issued (m : Instance) (hr : s.rstate = .running) (hp : s.rphase = .issue)
      (hm : s.insts[s.ringCur]? = some m) (hh : m.state ≠ .halted) (hl : m.iq.length ≠ s.cfg.inDepth) :
      SchedulerEffect s { s.setInst s.ringCur (m.pushInput s.carried).resume.1 with rphase := .collect }
  /-- COLLECT from a faulted member -/
  | stopped (m : Instance) (hr : s.rstate = .running) (hp : s.rphase = .collect)
      (hm : s.insts[s.ringCur]? = some m) (ha : m.active = false) (hf : m.state = .faulted) :
      SchedulerEffect s { s with rstate := .faulted, rfault := .instanceFault, ringFaultInst := s.ringCur }
  /-- COLLECT -/
  | collected (m : Instance) (hr : s.rstate = .running) (hp : s.rphase = .collect)
      (hm : s.insts[s.ringCur]? = some m) (ha : m.active = false) (hf : m.state ≠ .faulted) :
      SchedulerEffect s (s.ringPop m).ringAdvance

theorem State.schedulerStep_cases {s s' : State} (h : s.schedulerStep = .next s') : SchedulerEffect s s' := by
  unfold State.schedulerStep at h
  split at h
  case isFalse =>
    obtain rfl : s = s' := by simpa using h
    exact .waited
  case isTrue hr =>
    split at h
    · rename_i hp
      obtain ⟨m, hm, h⟩ := State.onInst_next h
      split at h
      · rename_i hh
        obtain rfl : _ = s' := by simpa using h
        exact .skipped m hr hp hm hh
      · rename_i hh
        split at h
        · rename_i hl
          obtain rfl : _ = s' := by simpa using h
          exact .full m hr hp hm hh hl
        · rename_i hl
          obtain rfl : _ = s' := by simpa using h
          exact .issued m hr hp hm hh hl
    · rename_i hp
      obtain ⟨m, hm, h⟩ := State.onInst_next h
      split at h
      · obtain rfl : _ = s' := by simpa using h
        exact .waited
      · rename_i ha
        split at h
        · rename_i hf
          obtain rfl : _ = s' := by simpa using h
          exact .stopped m hr hp hm (by simpa using ha) hf
        · rename_i hf
          obtain rfl : _ = s' := by simpa using h
          exact .collected m hr hp hm (by simpa using ha) hf

/-- What popping an output leaves (60_exceptions.md R344). -/
theorem State.ringPop_cases (s : State) (m : Instance) :
    (m.oq = [] ∧ s.ringPop m = s) ∨
    (∃ v rest, m.oq = v :: rest ∧ s.ringPop m = { s.setInst s.ringCur m.popOutput with carried := v }) := by
  unfold State.ringPop
  split
  · exact .inl ⟨‹_›, rfl⟩
  · exact .inr ⟨_, _, ‹_›, rfl⟩

/-- What the end of a visit leaves (60_exceptions.md R345). -/
theorem State.ringAdvance_cases (s : State) :
    (s.ringAllHalted = true ∧ s.ringAdvance = { s with rstate := .done }) ∨
    (s.ringAllHalted = false ∧
      s.ringAdvance = { s with ringCur := (s.ringCur + 1) % s.ringN, rphase := .issue }) := by
  unfold State.ringAdvance
  cases h : s.ringAllHalted with
  | true => exact .inl ⟨rfl, rfl⟩
  | false => exact .inr ⟨rfl, rfl⟩

end Sys2Proof.Machine
end

