-- ==== Sys2Proof/Laws/Step.lean ====
section
/-! SUPPORT. Which event comes next, and everything a step of the block can do when it goes on. -/

namespace Sys2Proof.Machine

theorem State.nextEvent_pending {s : State} {e : Event} {rest : List Event} (h : s.pending = e :: rest) :
    s.nextEvent = some (e, { s with pending := rest }) := by simp [State.nextEvent, h]

/-- The next event is the first that is coming; or, when none is, the move of an agent that can move. -/
theorem State.nextEvent_cases {s t : State} {e : Event} (h : s.nextEvent = some (e, t)) :
    (∃ rest, s.pending = e :: rest ∧ t = { s with pending := rest }) ∨
    (s.pending = [] ∧ ∃ k, s.rota.find? s.agentReady = some k ∧ e = s.agentEvent k ∧
      t = { s with turn := k + 1 }) := by
  unfold State.nextEvent at h
  split at h
  · rename_i e' rest hp
    simp only [Option.some.injEq, Prod.mk.injEq] at h
    exact .inl ⟨rest, by rw [hp, h.1], h.2.symm⟩
  · rename_i hp
    split at h
    · rename_i k hk
      simp only [Option.some.injEq, Prod.mk.injEq] at h
      exact .inr ⟨hp, k, hk, h.1.symm, h.2.symm⟩
    · cases h

/-- Choosing the next event changes `pending` and `turn` at most. -/
theorem State.nextEvent_same {s t : State} {e : Event} (h : s.nextEvent = some (e, t)) :
    t = { s with pending := t.pending, turn := t.turn } := by
  rcases State.nextEvent_cases h with ⟨rest, -, rfl⟩ | ⟨-, k, -, -, rfl⟩ <;> rfl

/-- A block that differs in `pending` and `turn` only. -/
theorem State.nextEvent_fields {s t : State} {e : Event} (h : s.nextEvent = some (e, t)) :
    t.cfg = s.cfg ∧ t.insts = s.insts ∧ t.prog = s.prog ∧ t.plen = s.plen ∧ t.rstate = s.rstate ∧
      t.rfault = s.rfault ∧ t.ringN = s.ringN ∧ t.ringCur = s.ringCur ∧ t.carried = s.carried ∧
      t.seed = s.seed ∧ t.phase = s.phase ∧ t.ringFaultInst = s.ringFaultInst ∧ t.rphase = s.rphase ∧
      t.cur = s.cur ∧ t.reply = s.reply := by
  rw [State.nextEvent_same h]
  simp

/-- Everything a step of the block can do when it goes on: nothing, when nothing can move; or the step of the agent
that the next event names. -/
theorem step_cases {s s' : State} (h : step s = .next s') :
    (s.nextEvent = none ∧ s' = s) ∨
    ∃ e t, s.nextEvent = some (e, t) ∧
      ((∃ op, e = .host op ∧ HostEffect t op s') ∨
        (∃ i, e = .engine i ∧ t.engineStep i = .next s') ∨
        (e = .scheduler ∧ SchedulerEffect t s') ∨
        (e = .reset ∧ s' = t.resetInput)) := by
  unfold step at h
  split at h
  · rename_i e t hn
    refine .inr ⟨e, t, hn, ?_⟩
    cases e with
    | host op => exact .inl ⟨op, rfl, hostStep_cases h⟩
    | engine i => exact .inr (.inl ⟨i, rfl, h⟩)
    | scheduler => exact .inr (.inr (.inl ⟨rfl, State.schedulerStep_cases h⟩))
    | reset => exact .inr (.inr (.inr ⟨rfl, by simpa [State.fire] using h.symm⟩))
  · rename_i hn
    exact .inl ⟨hn, by simpa using h.symm⟩

/-- The step of an event that comes next. -/
theorem step_of_nextEvent {s t : State} {e : Event} (h : s.nextEvent = some (e, t)) : step s = t.fire e := by
  simp [step, h]

end Sys2Proof.Machine
end

