-- ==== Sys2Proof/Laws/Instances.lean ====
section
/-! SUPPORT. Everything a step of the block can do to one instance, each with the event that does it. -/

namespace Sys2Proof.Machine

/-- What resuming leaves: a stopped instance made active, or the instance as it was. -/
theorem Instance.resume_fst (m : Instance) :
    m.resume.1 = m ∨ (m.active = false ∧ (m.state = .running ∨ m.state = .suspendedOnInput) ∧
      m.resume.1 = { m with state := .running, active := true }) := by
  rcases m.resume_cases with ⟨ha, hs, h⟩ | ⟨-, h⟩ <;> rw [h]
  · exact .inr ⟨ha, hs, rfl⟩
  · exact .inl rfl

/-- A step of the block from `s` to `s'`, by what becomes of instance `k`, which was `m`: nothing; its renewal; its
engine's step; a host push, pop or resume; the scheduler's ISSUE or COLLECT. -/
inductive InstanceEffect (s s' : State) (k : Nat) (m : Instance) : Instance → Prop where
  | kept : InstanceEffect s s' k m m
  | renewed (e : Event) (t : State) (m' : Instance) (hn : s.nextEvent = some (e, t)) (hr : s.Renews e k) :
      InstanceEffect s s' k m m'
  | executed (t : State) (m' : Instance) (hn : s.nextEvent = some (.engine k, t)) (ha : m.active = true)
      (he : EngineEffect s.cfg m m') : InstanceEffect s s' k m m'
  | pushed (t : State) (v : Int) (hn : s.nextEvent = some (.host (.pushInput k v), t)) :
      InstanceEffect s s' k m (m.pushInput v)
  | popped (t : State) (v : Int) (rest : List Int) (hn : s.nextEvent = some (.host (.popOutput k), t))
      (hq : m.oq = v :: rest) (hv : s'.reply = some (.value v)) : InstanceEffect s s' k m m.popOutput
  | resumed (t : State) (hn : s.nextEvent = some (.host (.resume k), t)) : InstanceEffect s s' k m m.resume.1
  | issued (t : State) (hn : s.nextEvent = some (.scheduler, t)) (hr : s.rstate = .running)
      (hp : s.rphase = .issue) (hk : k = s.ringCur) (hh : m.state ≠ .halted) :
      InstanceEffect s s' k m (m.pushInput s.carried).resume.1
  | collected (t : State) (v : Int) (rest : List Int) (hn : s.nextEvent = some (.scheduler, t))
      (hr : s.rstate = .running) (hp : s.rphase = .collect) (hk : k = s.ringCur) (hq : m.oq = v :: rest)
      (hv : s'.carried = v) : InstanceEffect s s' k m m.popOutput

theorem instanceEffect {s s' : State} {k : Nat} {m m' : Instance} (h : step s = .next s')
    (hm : s.insts[k]? = some m) (hm' : s'.insts[k]? = some m') : InstanceEffect s s' k m m' := by
  rcases step_cases h with ⟨-, rfl⟩ | ⟨e, t, hn, hc⟩
  · obtain rfl := Option.some.inj (hm.symm.trans hm')
    exact .kept
  obtain ⟨hcfg, hi, -, -, hrs, -, hrn, hrc, hcar, -, -, -, hrp, -⟩ := State.nextEvent_fields hn
  have same : ∀ {m1}, t.insts[k]? = some m1 → m1 = m := fun h1 => by
    rw [hi, hm] at h1; exact (Option.some.inj h1).symm
  rcases hc with ⟨op, rfl, he⟩ | ⟨i, rfl, he⟩ | ⟨rfl, he⟩ | ⟨rfl, rfl⟩
  · cases he with
    | answered | loaded | wroteRingN | wroteSeed | wrotePhase => rw [same hm']; exact .kept
    | instantiated i n _ hmi ha =>
      rcases State.setInst_get (s := t) hm' with ⟨rfl, rfl⟩ | ⟨-, h2⟩
      · exact .renewed _ t _ hn (.inl rfl)
      · rw [same h2]; exact .kept
    | pushed i v n _ hmi _ _ =>
      rcases State.setInst_get (s := t) hm' with ⟨rfl, rfl⟩ | ⟨-, h2⟩
      · rw [same hmi]; exact .pushed t v hn
      · rw [same h2]; exact .kept
    | popped i n v rest _ hmi hq =>
      rcases State.setInst_get (s := t) hm' with ⟨rfl, rfl⟩ | ⟨-, h2⟩
      · rw [same hmi] at hq ⊢; exact .popped t v rest hn hq rfl
      · rw [same h2]; exact .kept
    | resumed i n _ hmi =>
      rcases State.setInst_get (s := t) hm' with ⟨rfl, rfl⟩ | ⟨-, h2⟩
      · rw [same hmi]; exact .resumed t hn
      · rw [same h2]; exact .kept
    | ringStarted _ hl =>
      by_cases hk : k < s.ringN
      · exact .renewed _ t _ hn (.inr (.inl ⟨rfl, hk⟩))
      · simp only [State.answer, List.getElem?_mapIdx, hi, hm, Option.map_some, Option.some.injEq] at hm'
        rw [State.ringMember, hrn, if_neg hk] at hm'
        subst hm'; exact .kept
  · obtain ⟨m1, h1, ⟨-, rfl⟩ | ⟨ha, m2, h3, rfl⟩⟩ := State.engineStep_effect he
    · rw [same hm']; exact .kept
    · rcases State.setInst_get hm' with ⟨rfl, rfl⟩ | ⟨-, h2⟩
      · obtain rfl := same h1
        exact .executed t _ hn ha (hcfg ▸ h3)
      · rw [same h2]; exact .kept
  · cases he with
    | waited | skipped | full | stopped => rw [same hm']; exact .kept
    | issued n hr hp hmi hh hl =>
      rcases State.setInst_get (s := t) hm' with ⟨rfl, rfl⟩ | ⟨-, h2⟩
      · rw [same hmi] at hh ⊢; rw [hcar]; exact .issued t hn (hrs ▸ hr) (hrp ▸ hp) hrc hh
      · rw [same h2]; exact .kept
    | collected n hr hp hmi ha hf =>
      have hadv : (t.ringPop n).ringAdvance.insts = (t.ringPop n).insts ∧
          (t.ringPop n).ringAdvance.carried = (t.ringPop n).carried := by
        rcases State.ringAdvance_cases (t.ringPop n) with ⟨-, h⟩ | ⟨-, h⟩ <;> simp [h]
      rw [hadv.1] at hm'
      rcases State.ringPop_cases t n with ⟨-, h⟩ | ⟨v, rest, hq, h⟩
      · rw [h] at hm'; rw [same hm']; exact .kept
      · have hv := hadv.2
        rw [h] at hm'
        rcases State.setInst_get (s := t) hm' with ⟨rfl, rfl⟩ | ⟨-, h2⟩
        · obtain rfl := same hmi
          exact .collected t v rest hn (hrs ▸ hr) (hrp ▸ hp) hrc hq (by rw [hv, h])
        · rw [same h2]; exact .kept
  · exact .renewed _ t _ hn (.inr (.inr rfl))

end Sys2Proof.Machine
end

