-- ==== Sys2Proof/Laws/PerInstr.lean ====
section
/-! SUPPORT. The family Encoding: what is true of the words of every instruction, one lemma for each constructor. -/

namespace Sys2Proof.Laws

/-- `2^(W-1)` is at least `2^15` under the constraints of 00_scope.md R8. -/
theorem bound_ge {c : Config} (h : c.Legal) : 32768 ≤ c.bound := by
  have h15 : 15 ≤ c.wordBits - 1 := by have := h.1; omega
  calc (32768 : Nat) = 2 ^ 15 := by norm_num
    _ ≤ 2 ^ (c.wordBits - 1) := Nat.pow_le_pow_right (by norm_num) h15

/-- Every instruction word fits a machine word (92_eei_decisions.md D1). -/
theorem instrWord_inRange {c : Config} (h : c.Legal) (op : Opcode) (m1 m2 m3 : Mode) :
    c.InRange (instrWord op m1 m2 m3) := by
  have hb := bound_ge h
  have h0 := instrWord_pos op m1 m2 m3
  have h1 := instrWord_le op m1 m2 m3
  have hmin : c.wmin = -(c.bound : Int) := rfl
  have hmax : c.wmax = (c.bound : Int) - 1 := rfl
  constructor <;> omega

namespace Encoding

/-- The words of a well-formed instruction are as many as its length says, and all of them are words that the
memory can hold (30_encoding.md R104, R105). -/
def Statement (i : Instr) : Prop :=
  ∀ c : Config, c.Legal → i.wellFormed c = true →
    (encode i).length = i.length ∧ ∀ w ∈ encode i, c.InRange w

theorem add (a b : Operand) (dst : Dest) : Statement (.add a b dst) := by
  intro c hc hi
  simp only [Instr.wellFormed, Operand.wellFormed, Dest.wellFormed, Bool.and_eq_true, decide_eq_true_eq] at hi
  exact ⟨rfl, by
    simpa only [encode, List.forall_mem_cons, List.not_mem_nil, IsEmpty.forall_iff, implies_true, and_true] using
      ⟨instrWord_inRange hc _ _ _ _, hi.1.1, hi.1.2, hi.2⟩⟩

theorem mult (a b : Operand) (dst : Dest) : Statement (.mult a b dst) := by
  intro c hc hi
  simp only [Instr.wellFormed, Operand.wellFormed, Dest.wellFormed, Bool.and_eq_true, decide_eq_true_eq] at hi
  exact ⟨rfl, by
    simpa only [encode, List.forall_mem_cons, List.not_mem_nil, IsEmpty.forall_iff, implies_true, and_true] using
      ⟨instrWord_inRange hc _ _ _ _, hi.1.1, hi.1.2, hi.2⟩⟩

theorem lessThan (a b : Operand) (dst : Dest) : Statement (.lessThan a b dst) := by
  intro c hc hi
  simp only [Instr.wellFormed, Operand.wellFormed, Dest.wellFormed, Bool.and_eq_true, decide_eq_true_eq] at hi
  exact ⟨rfl, by
    simpa only [encode, List.forall_mem_cons, List.not_mem_nil, IsEmpty.forall_iff, implies_true, and_true] using
      ⟨instrWord_inRange hc _ _ _ _, hi.1.1, hi.1.2, hi.2⟩⟩

theorem equals (a b : Operand) (dst : Dest) : Statement (.equals a b dst) := by
  intro c hc hi
  simp only [Instr.wellFormed, Operand.wellFormed, Dest.wellFormed, Bool.and_eq_true, decide_eq_true_eq] at hi
  exact ⟨rfl, by
    simpa only [encode, List.forall_mem_cons, List.not_mem_nil, IsEmpty.forall_iff, implies_true, and_true] using
      ⟨instrWord_inRange hc _ _ _ _, hi.1.1, hi.1.2, hi.2⟩⟩

theorem jumpIfTrue (cond target : Operand) : Statement (.jumpIfTrue cond target) := by
  intro c hc hi
  simp only [Instr.wellFormed, Operand.wellFormed, Bool.and_eq_true, decide_eq_true_eq] at hi
  exact ⟨rfl, by
    simpa only [encode, List.forall_mem_cons, List.not_mem_nil, IsEmpty.forall_iff, implies_true, and_true] using
      ⟨instrWord_inRange hc _ _ _ _, hi.1, hi.2⟩⟩

theorem jumpIfFalse (cond target : Operand) : Statement (.jumpIfFalse cond target) := by
  intro c hc hi
  simp only [Instr.wellFormed, Operand.wellFormed, Bool.and_eq_true, decide_eq_true_eq] at hi
  exact ⟨rfl, by
    simpa only [encode, List.forall_mem_cons, List.not_mem_nil, IsEmpty.forall_iff, implies_true, and_true] using
      ⟨instrWord_inRange hc _ _ _ _, hi.1, hi.2⟩⟩

theorem input (dst : Dest) : Statement (.input dst) := by
  intro c hc hi
  simp only [Instr.wellFormed, Dest.wellFormed, decide_eq_true_eq] at hi
  exact ⟨rfl, by
    simpa only [encode, List.forall_mem_cons, List.not_mem_nil, IsEmpty.forall_iff, implies_true, and_true] using
      ⟨instrWord_inRange hc _ _ _ _, hi⟩⟩

theorem output (a : Operand) : Statement (.output a) := by
  intro c hc hi
  simp only [Instr.wellFormed, Operand.wellFormed, decide_eq_true_eq] at hi
  exact ⟨rfl, by
    simpa only [encode, List.forall_mem_cons, List.not_mem_nil, IsEmpty.forall_iff, implies_true, and_true] using
      ⟨instrWord_inRange hc _ _ _ _, hi⟩⟩

theorem halt : Statement .halt := by
  intro c hc _
  exact ⟨rfl, by
    simpa only [encode, List.forall_mem_cons, List.not_mem_nil, IsEmpty.forall_iff, implies_true, and_true] using
      instrWord_inRange hc _ _ _ _⟩

end Encoding

end Sys2Proof.Laws
end

