-- ==== Sys2Proof/Tests/Slice0.lean ====
section
/-! SUPPORT. The model's own tests: what WellFormed refuses, words written out from spec/30_encoding.md, single steps
and host operations whose results are those of spec/95_test_vectors.md, and for every statement with hypotheses a
concrete state that meets them. -/

namespace Sys2Proof.Tests

open Sys2Proof.Machine

/-- Small parameters: 16-bit words, `[-32768, 32767]`, 16 words of memory, queues of 2, 2 instances. -/
def small : Config := { wordBits := 16, memWords := 16, inDepth := 2, outDepth := 2, nMax := 2 }

/-- An active instance at address 0 of the given words, with the given queues. -/
def unit (ws iq oq : List Int) : Instance :=
  { Instance.atReset with mem := Memory.ofWords 0 ws, len := ws.length, iq := iq, oq := oq, active := true }

/-- A block whose instance 0 is the given one. -/
def block (m : Instance) : State := { State.resetOf small with insts := [m, Instance.atReset] }

/-- Instance 0 after a step that goes on. -/
def got (o : Host.Outcome State Fault Refusal) : Option Instance :=
  match o with
  | .next s => s.insts[0]?
  | _ => none

/-- The block after a step that goes on. -/
def gone (o : Host.Outcome State Fault Refusal) : Option State :=
  match o with
  | .next s => some s
  | _ => none

/-- An immediate value operand. -/
abbrev imm (p : Int) : Operand := ⟨.immediate, p⟩

/-- A position value operand. -/
abbrev pos (p : Int) : Operand := ⟨.position, p⟩

/-- A destination. -/
abbrev dst (p : Int) : Dest := ⟨.position, p⟩

/-! ### WellFormed refuses what is no word (30_encoding.md R105) -/

theorem test_wf_bounds : (imm 32767).wellFormed small = true ∧ (imm (-32768)).wellFormed small = true ∧
    (imm 32768).wellFormed small = false ∧ (pos (-32769)).wellFormed small = false ∧
    (dst 32768).wellFormed small = false := by decide

theorem test_wf_add : (Instr.add (imm 1) (imm 2) (dst 3)).wellFormed small = true ∧
    (Instr.add (imm 32768) (imm 2) (dst 3)).wellFormed small = false ∧
    (Instr.add (imm 1) (imm 32768) (dst 3)).wellFormed small = false ∧
    (Instr.add (imm 1) (imm 2) (dst 32768)).wellFormed small = false := by decide

theorem test_wf_mult : (Instr.mult (imm 32768) (imm 2) (dst 3)).wellFormed small = false ∧
    (Instr.mult (imm 1) (imm 32768) (dst 3)).wellFormed small = false ∧
    (Instr.mult (imm 1) (imm 2) (dst 32768)).wellFormed small = false := by decide

theorem test_wf_compare : (Instr.lessThan (imm 32768) (imm 2) (dst 3)).wellFormed small = false ∧
    (Instr.lessThan (imm 1) (imm 32768) (dst 3)).wellFormed small = false ∧
    (Instr.lessThan (imm 1) (imm 2) (dst 32768)).wellFormed small = false ∧
    (Instr.equals (imm 32768) (imm 2) (dst 3)).wellFormed small = false ∧
    (Instr.equals (imm 1) (imm 32768) (dst 3)).wellFormed small = false ∧
    (Instr.equals (imm 1) (imm 2) (dst 32768)).wellFormed small = false := by decide

theorem test_wf_io : (Instr.input (dst 32768)).wellFormed small = false ∧
    (Instr.output (imm 32768)).wellFormed small = false ∧ Instr.halt.wellFormed small = true := by decide

theorem test_wf_jump : (Instr.jumpIfTrue (imm 32768) (imm 0)).wellFormed small = false ∧
    (Instr.jumpIfTrue (imm 0) (imm 32768)).wellFormed small = false ∧
    (Instr.jumpIfFalse (imm 32768) (imm 0)).wellFormed small = false ∧
    (Instr.jumpIfFalse (imm 0) (imm 32768)).wellFormed small = false := by decide

/-! ### Words written out from 30_encoding.md R105 (`m_3 m_2 m_1 op`) -/

theorem test_decode_add : decode [10101, 7, 8, 9, 5] = .ok (.add (imm 7) (pos 8) ⟨.immediate, 9⟩, [5]) := rfl

theorem test_decode_mult : decode [1002, 4, 3, 4, 33] = .ok (.mult (pos 4) (imm 3) (dst 4), [33]) := rfl

theorem test_decode_input : decode [103, 7] = .ok (.input ⟨.immediate, 7⟩, []) := rfl

theorem test_decode_output : decode [4, 9] = .ok (.output (pos 9), []) := rfl

theorem test_decode_jumpIfTrue : decode [105, 0, 9] = .ok (.jumpIfTrue (imm 0) (pos 9), []) := rfl

theorem test_decode_jumpIfFalse : decode [1006, 7, 8] = .ok (.jumpIfFalse (pos 7) (imm 8), []) := rfl

theorem test_decode_lessThan : decode [1107, -3, 2, 5] = .ok (.lessThan (imm (-3)) (imm 2) (dst 5), []) := rfl

theorem test_decode_equals : decode [1008, 5, 7, 5] = .ok (.equals (pos 5) (imm 7) (dst 5), []) := rfl

theorem test_decode_halt : decode [99, 1] = .ok (.halt, [1]) := rfl

/-- V-DEC-6 to V-DEC-13. -/
theorem test_decode_illegalOpcode : [0, 98, 9, 100, 109, -1, -99, -101].all (fun w =>
    match decode [w, 0, 0, 0] with
    | .error (.illegalOpcode v) => v == w
    | _ => false) = true := by decide

/-- V-DEC-14 to V-DEC-24. -/
theorem test_decode_illegalMode : [199, 204, 203, 21101, 111101, 1004, 1103, 10003, 11105, 10099, 1199].all (fun w =>
    match decode [w, 0, 0, 0] with
    | .error (.illegalMode v) => v == w
    | _ => false) = true := by decide

/-- 40_execution_cycle.md R148: the smallest missing operand. -/
theorem test_decode_truncated : decode [5] = .error (.truncated 1) ∧ decode [1105, 1] = .error (.truncated 2) ∧
    decode [1, 0, 0] = .error (.truncated 3) ∧ decode [3] = .error (.truncated 1) := ⟨rfl, rfl, rfl, rfl⟩

theorem test_encode : encode (.mult (pos 4) (imm 3) (dst 4)) = [1002, 4, 3, 4] ∧
    encode (.input ⟨.immediate, 7⟩) = [103, 7] ∧ encode .halt = [99] := by decide

/-- A word of 64 bits is 99; the second word of the third line is -1 in two's complement. -/
theorem test_tableWord : decodeTableWord 64 99 = some .halt ∧ decodeTableWord 8 4 = some (.output (pos 0)) ∧
    decodeTableWord 128 (104 + 0xFFFFFFFFFFFFFFFF * 2 ^ 64) = some (.output (imm (-1))) ∧
    decodeTableWord 64 98 = none := by decide

/-- The word placed for the next step is the first instruction after reset. -/
theorem test_withFetchWord : got (step (State.reset.withFetchWord 64 99)) =
    some { unit [99, 0, 0, 0] [] [] with state := .halted, halted := true, active := false } := by decide

/-! ### Memory -/

theorem test_reset_memory_wf : ∀ m ∈ State.reset.insts, m.mem.wf := by
  intro m hm
  obtain ⟨-, rfl⟩ := List.mem_replicate.1 hm
  exact Memory.wf_nil

theorem test_reset_prog_wf : State.reset.prog.wf := Memory.wf_nil

theorem test_memory_write : (Memory.ofWords 0 [1, 0, 3]).write 1 2 = Memory.ofWords 0 [1, 2, 3] ∧
    (Memory.ofWords 0 [1, 2, 3]).write 1 0 = [(0, 1), (2, 3)] ∧
    Memory.copyBelow 2 (Memory.ofWords 0 [7, 0, 9]) (Memory.ofWords 0 [1, 2, 3]) = [(0, 7), (2, 3)] := by decide

/-! ### One step of each instruction (95_test_vectors.md part 2) -/

/-- V-ADD-5, POSITION. -/
theorem test_add_position : got (step (block (unit [1, 5, 6, 7, 99, 10, 20, 0] [] []))) =
    some { unit [1, 5, 6, 7, 99, 10, 20, 30] [] [] with ip := 4 } := by decide

/-- V-ADD-6 in 16 bits: OVERFLOW comes before WRITE_OOB. -/
theorem test_add_overflow : got (step (block (unit [1101, 32767, 1, 9, 99] [] []))) =
    some { unit [1101, 32767, 1, 9, 99] [] [] with
      state := .faulted, active := false, faultCause := .overflow } := by decide

/-- V-MUL-6. -/
theorem test_mult_overflow : got (step (block (unit [1102, 256, 128, 5, 99, 0] [] []))) =
    some { unit [1102, 256, 128, 5, 99, 0] [] [] with
      state := .faulted, active := false, faultCause := .overflow } := by decide

/-- V-MUL-7. -/
theorem test_mult_least : got (step (block (unit [1102, -256, 128, 5, 99, 0] [] []))) =
    some { unit [1102, -256, 128, 5, 99, -32768] [] [] with ip := 4 } := by decide

/-- V-IO-4: the input is written over the instruction's own operand. -/
theorem test_input_own_operand : got (step (block (unit [3, 1, 99] [5] []))) =
    some { unit [3, 5, 99] [] [] with ip := 2 } := by decide

/-- V-IO-8: with an empty queue INPUT suspends though its destination is out of bounds. -/
theorem test_input_suspends : got (step (block (unit [3, 7, 99] [] []))) =
    some { unit [3, 7, 99] [] [] with state := .suspendedOnInput, active := false } := by decide

/-- V-IO-6. -/
theorem test_output : got (step (block (unit [104, -7, 99] [] [3]))) =
    some { unit [104, -7, 99] [] [3, -7] with ip := 2 } := by decide

/-- V-IO-7, with two entries waiting. -/
theorem test_output_full : got (step (block (unit [104, 2, 99] [] [0, 1]))) =
    some { unit [104, 2, 99] [] [0, 1] with
      state := .faulted, active := false, faultCause := .outputFull, faultInfo := 2 } := by decide

/-- V-JMP-3: negative is nonzero. -/
theorem test_jumpIfTrue : got (step (block (unit [1105, -5, 7, 99] [] []))) =
    some { unit [1105, -5, 7, 99] [] [] with ip := 7 } := by decide

/-- V-JMP-8: the target is resolved though the jump is not taken. -/
theorem test_jumpIfTrue_target : got (step (block (unit [105, 0, 9, 99] [] []))) =
    some { unit [105, 0, 9, 99] [] [] with
      state := .faulted, active := false, faultCause := .readOob, faultInfo := 9 } := by decide

/-- V-JMP-4. -/
theorem test_jumpIfFalse : got (step (block (unit [1106, 0, 9, 99] [] []))) =
    some { unit [1106, 0, 9, 99] [] [] with ip := 9 } := by decide

/-- V-JMP-5. -/
theorem test_jumpIfFalse_not : got (step (block (unit [1106, -1, 9, 99] [] []))) =
    some { unit [1106, -1, 9, 99] [] [] with ip := 3 } := by decide

/-- V-CMP-1: the comparison is signed. -/
theorem test_lessThan : got (step (block (unit [1107, -3, 2, 5, 99, 0] [] []))) =
    some { unit [1107, -3, 2, 5, 99, 1] [] [] with ip := 4 } := by decide

/-- V-CMP-4: equal is not less. -/
theorem test_lessThan_equal : got (step (block (unit [7, 0, 0, 5, 99, 3] [] []))) =
    some { unit [7, 0, 0, 5, 99, 0] [] [] with ip := 4 } := by decide

/-- V-CMP-7: the result goes over its own operand's word. -/
theorem test_equals : got (step (block (unit [1008, 5, 7, 5, 99, 7] [] []))) =
    some { unit [1008, 5, 7, 5, 99, 1] [] [] with ip := 4 } := by decide

/-- V-CMP-5. -/
theorem test_equals_not : got (step (block (unit [1108, -8, 8, 5, 99, 7] [] []))) =
    some { unit [1108, -8, 8, 5, 99, 0] [] [] with ip := 4 } := by decide

/-- V-HLT-1: STATUS reads 0xA. -/
theorem test_halt : got (step (block (unit [99] [] []))) =
    some { unit [99] [] [] with state := .halted, halted := true, active := false } ∧
    ({ unit [99] [] [] with state := .halted, halted := true, active := false } : Instance).status = 0xA := by decide

/-- V-FLT-13, second step: a fetch at `ip = L`. -/
theorem test_fetchOob : got (step (block { unit [2, 0, 0, 0] [] [] with ip := 4 })) =
    some { unit [2, 0, 0, 0] [] [] with
      ip := 4, state := .faulted, active := false, faultCause := .fetchOob, faultIp := 4, faultInfo := 4 } := by decide

/-- V-FLT-6. -/
theorem test_truncated : got (step (block (unit [1, 0, 0] [] []))) =
    some { unit [1, 0, 0] [] [] with
      state := .faulted, active := false, faultCause := .truncated, faultInfo := 3 } := by decide

/-- V-RING-5, visit 1: SEED 5 is pushed behind the phase and the member resumed; nothing else moves. -/
theorem test_ring_issue : got (State.schedulerStep { block { unit [3, 2, 99] [7] [] with active := false } with
      rstate := .running, carried := 5 }) = some (unit [3, 2, 99] [7, 5] []) := by decide

/-- V-RING-4, visit 1: the oldest output is carried, the other stays; the ring goes on to member 1. -/
theorem test_ring_collect :
    (gone (State.schedulerStep { block { unit [99] [] [0, 1] with state := .halted, halted := true, active := false } with
      rstate := .running, ringN := 2, rphase := .collect, carried := 9 })).map
        (fun s => (s.carried, s.ringCur, s.rstate, s.insts.map (·.oq))) = some (0, 1, .running, [[1], []]) := by decide

/-- V-HST-7 and V-HST-8. -/
theorem test_host_illegal : ([HostOp.writeReg 0x41 0, .writeReg 0x41 3, .writeReg 1 5, .readReg 0 8, .readReg 0 0x47].map
    (fun op => (gone (hostStep op (block (unit [] [] [])))).bind (·.reply))) = List.replicate 5 (some .illegal) := by decide

/-! ### Witnesses: a concrete state and operands that meet the hypotheses of each statement, clause by clause -/

theorem witness_EncodeOfDecodeIsTheWords :
    decode [1002, 4, 3, 4, 33] = .ok (.mult (pos 4) (imm 3) (dst 4), [33]) := rfl

/-- 0 and 199 are no legal word of any opcode; the operand words that `EncodedExactly` asks for. -/
theorem witness_LegalWordsAreExactlyTheFortyFive :
    (∀ op, (0 : Int) ∉ legalWords op) ∧ (∀ op, (199 : Int) ∉ legalWords op) ∧ ([0, 0, 0] : List Int).length = 3 := by
  refine ⟨fun op => ?_, fun op => ?_, rfl⟩ <;> cases op <;> decide

/-- Each clause, at the ends of its range. -/
theorem witness_NegativeAndUnknownOpcodesAreIllegal :
    (-1 : Int) < 0 ∧ Int.tmod 0 100 = 0 ∧ Int.tmod 100 100 = 0 ∧ (9 ≤ Int.tmod 9 100 ∧ Int.tmod 9 100 ≤ 98) ∧
    (9 ≤ Int.tmod 98 100 ∧ Int.tmod 98 100 ≤ 98) := by decide

/-- Digits 2 and 9 of an operand, the destination's included, and a digit above the last operand. -/
theorem witness_BadDigitsAreIllegalModes :
    (Int.tmod 204 100 = Opcode.output.code ∧ 1 ≤ 1 ∧ 1 ≤ Opcode.output.operands ∧ 2 ≤ digit (1 + 1) 204) ∧
    (Int.tmod 90001 100 = Opcode.add.code ∧ 3 ≤ Opcode.add.operands ∧ 2 ≤ digit (3 + 1) 90001 ∧
      digit (3 + 1) 90001 ≤ 9) ∧
    (Int.tmod 199 100 = Opcode.halt.code ∧ Opcode.halt.operands + 2 ≤ 2 ∧ digit 2 199 ≠ 0) := by decide

/-- An instance of 6 words: addresses 0 and 5 are in bounds, -1 and 6 are not. -/
theorem witness_ValueOperandResolution :
    let m := unit [1, 2, 3, 4, 5, 6] [] []
    (0 ≤ (0 : Int) ∧ (0 : Int) < m.len) ∧ (0 ≤ (5 : Int) ∧ (5 : Int) < m.len) ∧
    ¬ (0 ≤ (-1 : Int) ∧ (-1 : Int) < m.len) ∧ ¬ (0 ≤ (6 : Int) ∧ (6 : Int) < m.len) := by decide

/-- Every clause of `ThreeOperandRule`: READ_OOB of each operand, a sum one above WMAX, WMAX itself with the
destination at `L`, and with the destination at 0 and at `L - 1`. -/
theorem witness_AddFollowsItsRule :
    let m := unit [1, 2, 3, 4, 5, 6] [] []
    let s := block m
    s.insts[s.cur]? = some m ∧ m.value (pos 6) = .error ⟨.readOob, 6⟩ ∧
    (m.value (imm 1) = .ok 1 ∧ m.value (pos (-1)) = .error ⟨.readOob, -1⟩) ∧
    (m.value (imm 32767) = .ok 32767 ∧ m.value (imm 1) = .ok 1 ∧ ¬ s.cfg.InRange (32767 + 1)) ∧
    (m.value (imm 32766) = .ok 32766 ∧ s.cfg.InRange (32766 + 1) ∧ ¬ (0 ≤ (dst 6).addr ∧ (dst 6).addr < m.len)) ∧
    (m.value (pos 5) = .ok 6 ∧ s.cfg.InRange (6 + 1) ∧ (0 ≤ (dst 0).addr ∧ (dst 0).addr < m.len) ∧
      (0 ≤ (dst 5).addr ∧ (dst 5).addr < m.len) ∧ m.mem.wf) := by
  refine ⟨rfl, rfl, ⟨rfl, rfl⟩, ⟨rfl, rfl, by decide⟩, ⟨rfl, by decide, by decide⟩, rfl, by decide, by decide,
    by decide, Memory.wf_ofWords _ _⟩

/-- Every clause, with the products one above WMAX and WMIN itself. -/
theorem witness_MultFollowsItsRule :
    let m := unit [1, 2, 3, 4, 5, 6] [] []
    let s := block m
    s.insts[s.cur]? = some m ∧ m.value (pos 6) = .error ⟨.readOob, 6⟩ ∧
    (m.value (imm 1) = .ok 1 ∧ m.value (pos (-1)) = .error ⟨.readOob, -1⟩) ∧
    (m.value (imm 256) = .ok 256 ∧ m.value (imm 128) = .ok 128 ∧ ¬ s.cfg.InRange (256 * 128)) ∧
    (m.value (imm (-256)) = .ok (-256) ∧ s.cfg.InRange (-256 * 128) ∧
      ¬ (0 ≤ (dst (-1)).addr ∧ (dst (-1)).addr < m.len)) ∧
    (m.value (pos 5) = .ok 6 ∧ s.cfg.InRange (6 * 128) ∧ (0 ≤ (dst 0).addr ∧ (dst 0).addr < m.len) ∧
      (0 ≤ (dst 5).addr ∧ (dst 5).addr < m.len) ∧ m.mem.wf) := by
  refine ⟨rfl, rfl, ⟨rfl, rfl⟩, ⟨rfl, rfl, by decide⟩, ⟨rfl, by decide, by decide⟩, rfl, by decide, by decide,
    by decide, Memory.wf_ofWords _ _⟩

/-- The clauses of LESS_THAN, which cannot overflow (`mayOverflow` is false). -/
theorem witness_LessThanFollowsItsRule :
    let m := unit [1, 2, 3, 4, 5, 6] [] []
    let s := block m
    s.insts[s.cur]? = some m ∧ m.value (pos 6) = .error ⟨.readOob, 6⟩ ∧
    (m.value (imm 1) = .ok 1 ∧ m.value (pos (-1)) = .error ⟨.readOob, -1⟩) ∧
    (m.value (imm (-32768)) = .ok (-32768) ∧ (false = true → s.cfg.InRange 1) ∧
      ¬ (0 ≤ (dst 6).addr ∧ (dst 6).addr < m.len)) ∧
    (m.value (pos 0) = .ok 1 ∧ m.value (pos 5) = .ok 6 ∧ (0 ≤ (dst 5).addr ∧ (dst 5).addr < m.len) ∧ m.mem.wf) := by
  refine ⟨rfl, rfl, ⟨rfl, rfl⟩, ⟨rfl, by decide, by decide⟩, rfl, rfl, by decide, Memory.wf_ofWords _ _⟩

/-- The clauses of EQUALS, which cannot overflow. -/
theorem witness_EqualsFollowsItsRule :
    let m := unit [1, 2, 3, 4, 5, 6] [] []
    let s := block m
    s.insts[s.cur]? = some m ∧ m.value (pos (-1)) = .error ⟨.readOob, -1⟩ ∧
    (m.value (imm 6) = .ok 6 ∧ m.value (pos 6) = .error ⟨.readOob, 6⟩) ∧
    (m.value (imm 6) = .ok 6 ∧ (false = true → s.cfg.InRange 1) ∧
      ¬ (0 ≤ (dst (-1)).addr ∧ (dst (-1)).addr < m.len)) ∧
    (m.value (imm 6) = .ok 6 ∧ m.value (pos 5) = .ok 6 ∧ (0 ≤ (dst 0).addr ∧ (dst 0).addr < m.len) ∧ m.mem.wf) := by
  refine ⟨rfl, rfl, ⟨rfl, rfl⟩, ⟨rfl, by decide, by decide⟩, rfl, rfl, by decide, Memory.wf_ofWords _ _⟩

/-- An empty queue; a value and a destination at `L`; a value and destinations 0 and `L - 1`. -/
theorem witness_InputFollowsItsRule :
    let m := unit [3, 1, 99] [5] []
    let n := unit [3, 1, 99] [] []
    ((block n).insts[(block n).cur]? = some n ∧ n.iq = []) ∧ (block m).insts[(block m).cur]? = some m ∧
    m.iq = 5 :: [] ∧ ¬ (0 ≤ (dst 3).addr ∧ (dst 3).addr < m.len) ∧ (0 ≤ (dst 0).addr ∧ (dst 0).addr < m.len) ∧
    (0 ≤ (dst 2).addr ∧ (dst 2).addr < m.len) ∧ m.mem.wf :=
  ⟨⟨rfl, rfl⟩, rfl, rfl, by decide, by decide, by decide, Memory.wf_ofWords _ _⟩

/-- READ_OOB; a queue with its last place free, and full. -/
theorem witness_OutputFollowsItsRule :
    let m := unit [104, 2, 99] [] [0]
    let n := unit [104, 2, 99] [] [0, 1]
    ((block m).insts[(block m).cur]? = some m ∧ m.value (pos 3) = .error ⟨.readOob, 3⟩ ∧ m.value (imm 2) = .ok 2 ∧
      m.oq.length ≠ (block m).cfg.outDepth) ∧
    ((block n).insts[(block n).cur]? = some n ∧ n.value (imm 2) = .ok 2 ∧ n.oq.length = (block n).cfg.outDepth) :=
  ⟨⟨rfl, rfl, rfl, by decide⟩, rfl, rfl, by decide⟩

/-- READ_OOB of each operand; a negative condition and a zero one, for both jumps. -/
theorem witness_JumpIfTrueFollowsItsRule :
    let m := unit [1105, -5, 7, 0] [] []
    let s := block m
    s.insts[s.cur]? = some m ∧ m.value (pos 4) = .error ⟨.readOob, 4⟩ ∧
    (m.value (imm 0) = .ok 0 ∧ m.value (pos (-1)) = .error ⟨.readOob, -1⟩) ∧
    (m.value (pos 1) = .ok (-5) ∧ m.value (pos 2) = .ok 7 ∧ (-5 : Int) ≠ 0) ∧
    (m.value (pos 3) = .ok 0 ∧ ¬ ((0 : Int) ≠ 0)) :=
  ⟨rfl, rfl, ⟨rfl, rfl⟩, ⟨rfl, rfl, by decide⟩, rfl, by decide⟩

theorem witness_JumpIfFalseFollowsItsRule :
    let m := unit [1106, -1, 9, 0] [] []
    let s := block m
    s.insts[s.cur]? = some m ∧ m.value (pos 4) = .error ⟨.readOob, 4⟩ ∧
    (m.value (imm 0) = .ok 0 ∧ m.value (pos (-1)) = .error ⟨.readOob, -1⟩) ∧
    (m.value (pos 3) = .ok 0 ∧ m.value (pos 2) = .ok 9 ∧ (0 : Int) = 0) ∧
    (m.value (pos 1) = .ok (-1) ∧ ¬ ((-1 : Int) = 0)) :=
  ⟨rfl, rfl, ⟨rfl, rfl⟩, ⟨rfl, rfl, by decide⟩, rfl, by decide⟩

theorem witness_HaltFollowsItsRule : (block (unit [99] [] [])).insts[(block (unit [99] [] [])).cur]? =
    some (unit [99] [] []) := rfl

/-- V-JMP-6 and V-JMP-7: targets -1 and `L`, with a condition for each jump. -/
theorem witness_JumpTargetIsCheckedAtTheNextFetch :
    let m := unit [1105, 1, 3] [] []
    (block m).insts[(block m).cur]? = some m ∧ m.active = true ∧ m.value (imm 1) = .ok 1 ∧ m.value (imm 0) = .ok 0 ∧
    (m.value (imm 3) = .ok 3 ∧ ¬ (0 ≤ (3 : Int) ∧ (3 : Int) < m.len)) ∧
    (m.value (imm (-1)) = .ok (-1) ∧ ¬ (0 ≤ (-1 : Int) ∧ (-1 : Int) < m.len)) :=
  ⟨rfl, rfl, rfl, rfl, ⟨rfl, by decide⟩, rfl, by decide⟩

/-- Each of the four instructions completes in a block where each of them faults too. -/
theorem witness_FrameOfThreeOperandInstructions :
    let s := block (unit [1, 5, 6, 7, 99, 10, 20, 0] [] [])
    ∀ i, i ∈ [Instr.add (pos 5) (pos 6) (dst 7), .mult (pos 5) (pos 6) (dst 0), .lessThan (imm 1) (pos 6) (dst 7),
      .equals (imm 1) (imm 1) (dst 7), .add (pos 8) (imm 1) (dst 7), .mult (imm 256) (imm 128) (dst 7),
      .lessThan (imm 1) (imm 1) (dst 8), .equals (imm 1) (imm 1) (dst (-1))] → ∃ s', exec i s = .next s' := by
  intro s i hi
  simp only [List.mem_cons, List.not_mem_nil, or_false] at hi
  rcases hi with rfl | rfl | rfl | rfl | rfl | rfl | rfl | rfl <;> exact ⟨_, rfl⟩

theorem witness_FrameOfInput :
    (∃ s', exec (.input (dst 0)) (block (unit [3, 1, 99] [5] [])) = .next s') ∧
    (∃ s', exec (.input (dst 3)) (block (unit [3, 1, 99] [5] [])) = .next s') ∧
    (∃ s', exec (.input (dst 0)) (block (unit [3, 1, 99] [] [])) = .next s') := ⟨⟨_, rfl⟩, ⟨_, rfl⟩, _, rfl⟩

theorem witness_FrameOfInstructionsThatStoreNothing :
    let s := block (unit [104, 2, 99] [] [0])
    (∃ s', exec (.output (imm 2)) s = .next s') ∧ (∃ s', exec (.jumpIfTrue (imm 2) (imm 0)) s = .next s') ∧
    (∃ s', exec (.jumpIfFalse (imm 2) (pos 3)) s = .next s') ∧ (∃ s', exec .halt s = .next s') :=
  ⟨⟨_, rfl⟩, ⟨_, rfl⟩, ⟨_, rfl⟩, _, rfl⟩

/-- The round robin chooses the engine of the active instance, whose words decode. -/
theorem witness_StepRunsTheDecodedInstruction :
    let m := unit [1, 0, 0, 0, 99] [] []
    ∃ t, (block m).nextEvent = some (.engine 0, t) ∧ t.insts[0]? = some m ∧ m.active = true ∧
      decode m.window = .ok (.add (pos 0) (pos 0) (dst 0), []) := ⟨_, rfl, rfl, rfl, rfl⟩

/-- At address 3 of 5 words the window has 2 of them. -/
theorem witness_WindowIsTheWordsAtIp :
    let m : Instance := { unit [1, 0, 0, 5, 99] [] [] with ip := 3 }
    (1 < 4 ∧ 0 ≤ m.ip ∧ m.ip + ((1 : Nat) : Int) < m.len) ∧ (2 < 4 ∧ ¬ (0 ≤ m.ip ∧ m.ip + ((2 : Nat) : Int) < m.len)) := by decide

/-- The hypotheses that all clauses share, for any instance of a block; and each clause's own: `ip` at `L` and at -1,
the word 0, the word 199, and an ADD with its third and with its first operand word missing. -/
theorem witness_FetchFaultsInOrder :
    (∀ m : Instance, m.active = true → ∃ t, (block m).nextEvent = some (.engine 0, t) ∧ t.insts[0]? = some m) ∧
    (let m := unit [0, 0, 199, 1] [] []
     (¬ (0 ≤ (4 : Int) ∧ (4 : Int) < m.len) ∧ ¬ (0 ≤ (-1 : Int) ∧ (-1 : Int) < m.len)) ∧
     (∀ op : Opcode, op.code ≠ (m.mem.read 0).tmod 100) ∧
     (Opcode.halt.code = (m.mem.read 2).tmod 100 ∧ m.mem.read 2 ∉ legalWords .halt) ∧
     (m.mem.read 3 ∈ legalWords .add ∧ 1 ≤ Opcode.add.operands ∧ (m.len : Int) ≤ 3 + (1 : Nat) ∧
       (3 : Int) + ((1 : Nat) - 1 : Nat) < m.len)) ∧
    (let m := unit [1, 0, 0] [] []
     m.mem.read 0 ∈ legalWords .add ∧ 3 ≤ Opcode.add.operands ∧ (m.len : Int) ≤ 0 + (3 : Nat) ∧
       (0 : Int) + ((3 : Nat) - 1 : Nat) < m.len) := by
  refine ⟨fun m hm => ⟨{ block m with turn := 1 }, ?_, rfl⟩, ⟨by decide, ?_, by decide, by decide⟩, by decide⟩
  · have hf : (block m).rota.find? (block m).agentReady = some 0 := by
      have hr : (block m).agentReady 0 = true := hm
      have : (block m).rota = 0 :: [1, 2] := rfl
      rw [this, List.find?_cons, hr]
    have hp : (block m).pending = [] := rfl
    simp only [State.nextEvent, hp, hf]
    rfl
  · intro op
    cases op <;> decide

/-- V-FLT-9. -/
theorem witness_FaultsArePrecise :
    let m := unit [1, 5, 0, 0, 99] [] []
    ∃ t s' m', (block m).nextEvent = some (.engine 0, t) ∧ t.insts[0]? = some m ∧ m.active = true ∧
      m.state = .running ∧ step (block m) = .next s' ∧ s'.insts[0]? = some m' ∧ m'.state = .faulted :=
  ⟨_, _, _, rfl, rfl, rfl, rfl, rfl, rfl, rfl⟩

/-- V-IO-2. -/
theorem witness_OnlyAnInputFacingAnEmptyQueueSuspends :
    let m := unit [3, 3, 99, 0] [] []
    ∃ t s' m', (block m).nextEvent = some (.engine 0, t) ∧ t.insts[0]? = some m ∧ m.active = true ∧
      m.state = .running ∧ step (block m) = .next s' ∧ s'.insts[0]? = some m' ∧ m'.state = .suspendedOnInput :=
  ⟨_, _, _, rfl, rfl, rfl, rfl, rfl, rfl, rfl⟩

theorem witness_RetriedInputSuspendsAgainUnchanged :
    let m := { unit [3, 3, 99, 0] [] [] with state := .suspendedOnInput, active := false }
    let s := { block m with pending := [.host (.resume 0), .engine 0] }
    s.rstate ≠ .running ∧ s.insts[0]? = some m ∧ m.state = .suspendedOnInput ∧ m.active = false ∧ m.iq = [] ∧
      decode m.window = .ok (.input (dst 3), [99, 0]) ∧ s.pending = .host (.resume 0) :: .engine 0 :: [] :=
  ⟨by decide, rfl, rfl, rfl, rfl, rfl, rfl⟩

/-- HALT sets the flag; INSTANTIATE clears it. -/
theorem witness_HaltedFlagIsSetByHaltAlone :
    (∃ s' m', step (block (unit [99] [] [])) = .next s' ∧ s'.insts[0]? = some m' ∧ (unit [99] [] []).halted = false ∧
      m'.halted = true) ∧
    (let m := { unit [99] [] [] with state := .halted, halted := true, active := false }
     ∃ s' m', step { block m with pending := [.host (.instantiate 0)] } = .next s' ∧ s'.insts[0]? = some m' ∧
       m.halted = true ∧ m'.halted = false) := ⟨⟨_, _, rfl, rfl, rfl, rfl⟩, _, _, rfl, rfl, rfl, rfl⟩

theorem witness_HaltedAndFaultedAreAbsorbing :
    let m := { unit [99] [] [7] with state := .halted, halted := true, active := false }
    let n := { unit [0] [] [7] with state := .faulted, active := false, faultCause := .illegalOpcode }
    (∃ s' m', step { block m with pending := [.host (.popOutput 0)] } = .next s' ∧ s'.insts[0]? = some m' ∧
      m.active = false ∧ m.state = .halted) ∧
    (∃ s' m', step { block n with pending := [.host (.resume 0)] } = .next s' ∧ s'.insts[0]? = some m' ∧
      n.active = false ∧ n.state = .faulted) := ⟨⟨_, _, rfl, rfl, rfl, rfl⟩, _, _, rfl, rfl, rfl, rfl⟩

/-- An engine's step that writes a memory; an instantiation that changes a length. -/
theorem witness_OnlyItsEngineWritesAnInstancesMemory :
    (let m := unit [1, 0, 0, 0, 99] [] []
     ∃ s' m', step (block m) = .next s' ∧ (block m).insts[0]? = some m ∧ s'.insts[0]? = some m' ∧ m'.mem ≠ m.mem) ∧
    (let m := { unit [99] [] [] with active := false }
     ∃ s' m', step { block m with pending := [.host (.instantiate 0)] } = .next s' ∧ s'.insts[0]? = some m' ∧
       m'.len ≠ m.len) := ⟨⟨_, _, rfl, rfl, rfl, by decide⟩, _, _, rfl, rfl, by decide⟩

/-- A step from `s`, whose next event is `e`, that takes instance 0 from input queue `q` to `q'` and from output queue
`r` to `r'`. -/
def Moves (s : State) (e : Event) (q q' r r' : List Int) : Prop :=
  ∃ t s' m m', s.nextEvent = some (e, t) ∧ step s = .next s' ∧ s.insts[0]? = some m ∧ s'.insts[0]? = some m' ∧
    m.iq = q ∧ m'.iq = q' ∧ m.oq = r ∧ m'.oq = r'

/-- Every move of a queue: PUSH_INPUT, the scheduler's ISSUE, INPUT; POP_OUTPUT, the scheduler's COLLECT, OUTPUT. -/
theorem witness_QueuesAreStrictFifos :
    let idle := { block { unit [99] [5] [7, 8] with active := false } with carried := 6 }
    Moves { idle with pending := [.host (.pushInput 0 (-1))] } (.host (.pushInput 0 (-1))) [5] [5, -1] [7, 8] [7, 8] ∧
    Moves { idle with rstate := .running } .scheduler [5] [5, 6] [7, 8] [7, 8] ∧
    Moves (block (unit [3, 3, 99, 0] [5, 6] [])) (.engine 0) [5, 6] [6] [] [] ∧
    Moves { idle with pending := [.host (.popOutput 0)] } (.host (.popOutput 0)) [5] [5] [7, 8] [8] ∧
    Moves { idle with rstate := .running, rphase := .collect } .scheduler [5] [5] [7, 8] [8] ∧
    Moves (block (unit [104, 9, 99] [] [7])) (.engine 0) [] [] [7] [7, 9] := by
  refine ⟨?_, ?_, ?_, ?_, ?_, ?_⟩ <;> exact ⟨_, _, _, _, rfl, rfl, rfl, rfl, rfl, rfl, rfl, rfl⟩

/-- Two active instances. -/
def pair : State :=
  { State.resetOf small with insts := [unit [1, 0, 0, 0, 99] [] [], unit [3, 3, 99, 0] [5] []] }

theorem witness_EngineStepsOfDifferentInstancesCommute :
    ∃ a b, 0 ≠ 1 ∧ pair.engineStep 0 = .next a ∧ a.engineStep 1 = .next b := ⟨_, _, by decide, rfl, rfl⟩

/-- Instance 1 of another block, with another value waiting in its output queue. -/
theorem witness_EngineStepIsDeterminedByItsInstance :
    let m := unit [104, 2, 99] [] [0]
    let t := { block { m with oq := [9] } with plen := 3, reply := some .ok }
    ∃ s', (block m).insts[0]? = some m ∧ t.insts[0]? = some { m with oq := [9] } ∧
      ([9] : List Int).length = m.oq.length ∧ (block m).cfg = t.cfg ∧ (block m).engineStep 0 = .next s' :=
  ⟨_, rfl, rfl, rfl, rfl, rfl⟩

/-- The five rows of RESUME's table, and ring mode. -/
theorem witness_ResumeFollowsItsTable :
    let r := { unit [99] [] [] with active := false }
    let u := { r with state := .suspendedOnInput }
    let h := { r with state := .halted, halted := true }
    let f := { r with state := .faulted, faultCause := .overflow }
    ((block r).rstate ≠ .running ∧ (block r).insts[0]? = some r ∧ r.state = .running ∧ r.active = false) ∧
    ((block u).insts[0]? = some u ∧ u.state = .suspendedOnInput ∧ u.active = false) ∧
    ((block (unit [99] [] [])).insts[0]? = some (unit [99] [] []) ∧ (unit [99] [] []).active = true) ∧
    ((block h).insts[0]? = some h ∧ h.state = .halted ∧ h.active = false) ∧
    ((block f).insts[0]? = some f ∧ f.state = .faulted ∧ f.active = false) ∧
    ({ block r with rstate := .running } : State).rstate = .running := by decide

/-- Words WMIN and WMAX; a queue with its last place free, and full; ring mode. -/
theorem witness_PushInputFollowsItsRule :
    let m := unit [99] [1] []
    let n := unit [99] [1, 2] []
    ((block m).insts[0]? = some m ∧ (block m).cfg.InRange (-32768) ∧ (block m).cfg.InRange 32767 ∧
      (block m).rstate ≠ .running ∧ m.iq.length ≠ (block m).cfg.inDepth) ∧
    ((block n).insts[0]? = some n ∧ n.iq.length = (block n).cfg.inDepth) ∧
    ({ block m with rstate := .running } : State).rstate = .running := by decide

theorem witness_PopOutputFollowsItsRule :
    let m := unit [99] [] []
    let n := unit [99] [] [4, 5]
    ((block m).insts[0]? = some m ∧ (block m).rstate ≠ .running ∧ m.oq = []) ∧
    ((block n).insts[0]? = some n ∧ n.oq = 4 :: [5]) ∧
    ({ block m with rstate := .running } : State).rstate = .running := by decide

/-- Addresses 0, `L - 1`, `L` and -1 of an inactive instance; an active one; ring mode; and an operation that goes on
beside them. -/
theorem witness_ReadMemFollowsItsRule :
    let m := { unit [2, 0, 99] [] [] with active := false }
    ((block m).insts[0]? = some m ∧ (block m).rstate ≠ .running ∧ m.active = false ∧ (0 ≤ (0 : Int) ∧ (0 : Int) < m.len) ∧
      (0 ≤ (2 : Int) ∧ (2 : Int) < m.len) ∧ ¬ (0 ≤ (3 : Int) ∧ (3 : Int) < m.len) ∧
      ¬ (0 ≤ (-1 : Int) ∧ (-1 : Int) < m.len)) ∧
    ((unit [2] [] []).active = true ∧ ({ block m with rstate := .running } : State).rstate = .running) ∧
    ∃ s' m', HostOp.pushInput 0 1 ≠ .instantiate 0 ∧ HostOp.pushInput 0 1 ≠ .ringStart ∧
      hostStep (.pushInput 0 1) (block m) = .next s' ∧ s'.insts[0]? = some m' :=
  ⟨by decide, by decide, _, _, by decide, by decide, rfl, rfl⟩

/-- Reserved numbers 0x08 and 0x3F, written numbers 0 and 0x3F. -/
theorem witness_InstanceRegisterMap :
    (block (unit [99] [] [])).insts[0]? = some (unit [99] [] []) ∧ (8 ≤ 0x08 ∧ 0x08 < 64) ∧ (8 ≤ 0x3F ∧ 0x3F < 64) ∧
    0 < 64 ∧ (block (unit [99] [] [])).rstate ≠ .running := by decide

/-- PHASE[0] and the last PHASE; the reserved numbers 0x47, 0x7F and the first above the phases. -/
theorem witness_SharedRegisterMap :
    let s := block (unit [99] [] [])
    s.phase[0]? = some 0 ∧ s.phase[1]? = some 0 ∧ (0x47 ≤ 0x47 ∧ 0x47 < 0x80) ∧ (0x47 ≤ 0x7F ∧ 0x7F < 0x80) ∧
    (0x47 ≤ 0x82 ∧ 0x80 + s.phase.length ≤ 0x82) := by decide

/-- RING_N 1, N_MAX, 0 and N_MAX + 1; SEED and PHASE at WMIN and WMAX and one beyond; the last PHASE and the number
after it; ring mode. -/
theorem witness_WriteRegFollowsItsRule :
    let s := block (unit [99] [] [])
    s.rstate ≠ .running ∧ (1 ≤ (1 : Int) ∧ (1 : Int) ≤ s.cfg.nMax) ∧ (1 ≤ (2 : Int) ∧ (2 : Int) ≤ s.cfg.nMax) ∧
    ¬ (1 ≤ (0 : Int) ∧ (0 : Int) ≤ s.cfg.nMax) ∧ ¬ (1 ≤ (3 : Int) ∧ (3 : Int) ≤ s.cfg.nMax) ∧
    s.cfg.InRange (-32768) ∧ s.cfg.InRange 32767 ∧ ¬ s.cfg.InRange 32768 ∧ ¬ s.cfg.InRange (-32769) ∧
    1 < s.cfg.nMax ∧ 0x44 ≠ 0x41 ∧ (0x82 ≠ 0x41 ∧ 0x82 ≠ 0x44 ∧ ¬ (0x80 ≤ 0x82 ∧ 0x82 < 0x80 + s.cfg.nMax)) ∧
    ({ s with rstate := .running } : State).rstate = .running ∧ (0x80 ≤ 0x81 ∧ 0x81 < 0x80 + s.cfg.nMax) := by decide

theorem witness_RingModeAnswersBusy :
    let s := { block (unit [99] [] []) with rstate := .running }
    s.rstate = .running ∧ (∀ i r, HostOp.ringStart ≠ .readReg i r) ∧ 1 < s.insts.length :=
  ⟨rfl, by simp, by decide⟩

/-- The empty program, one of MEM_WORDS words and one word more; ring mode. -/
theorem witness_LoadProgramFollowsItsRule :
    let s := block (unit [99] [] [])
    (∀ w ∈ ([] : List Int), s.cfg.InRange w) ∧ (∀ w ∈ List.replicate 16 (-32768 : Int), s.cfg.InRange w) ∧
    (∀ w ∈ List.replicate 17 (32767 : Int), s.cfg.InRange w) ∧ s.rstate ≠ .running ∧
    s.cfg.memWords < (List.replicate 17 (32767 : Int)).length ∧
    (List.replicate 16 (-32768 : Int)).length ≤ s.cfg.memWords ∧
    ({ s with rstate := .running } : State).rstate = .running := by decide

theorem witness_InstantiateFollowsItsRule :
    let m := { unit [99] [] [] with active := false }
    ((block m).insts[0]? = some m ∧ (block m).rstate ≠ .running ∧ m.active = false) ∧
    ((block (unit [99] [] [])).insts[0]? = some (unit [99] [] []) ∧ (unit [99] [] []).active = true) ∧
    ({ block m with rstate := .running } : State).rstate = .running := by decide

/-- A ring of two inactive members; one with an active member; RING_N 0 and N_MAX + 1; ring mode. -/
theorem witness_RingStartFollowsItsRule :
    let s := { State.resetOf small with ringN := 2, phase := [7, -8] }
    (s.rstate ≠ .running ∧ (1 ≤ s.ringN ∧ s.ringN ≤ s.cfg.nMax) ∧
      (∀ (j : Nat) (m : Instance), j < s.ringN → s.insts[j]? = some m → m.active = false) ∧
      s.insts[1]? = some Instance.atReset ∧ s.phase[1]? = some (-8)) ∧
    (∃ (j : Nat) (m : Instance), j < pair.ringN ∧ pair.insts[j]? = some m ∧ m.active = true) ∧
    ¬ (1 ≤ ({ s with ringN := 0 } : State).ringN) ∧ ¬ (({ s with ringN := 3 } : State).ringN ≤ s.cfg.nMax) ∧
    ({ s with rstate := .running } : State).rstate = .running := by
  refine ⟨⟨by decide, by decide, fun j m hj hm => ?_, rfl, rfl⟩, ⟨0, _, by decide, rfl, rfl⟩, by decide, by decide, rfl⟩
  have := List.eq_of_mem_replicate (List.mem_of_getElem? hm)
  subst this
  rfl

/-- A halted member, one with a full queue and one that is resumed; an active, a faulted and an inactive member, with
and without an output; members all halted, and not. -/
theorem witness_RingVisitFollowsItsRule :
    let halted := { unit [99] [] [4, 5] with state := .halted, halted := true, active := false }
    let full := { unit [99] [1, 2] [] with active := false }
    let fresh := { unit [99] [1] [] with active := false }
    let bad := { unit [0] [] [] with state := .faulted, active := false, faultCause := .illegalOpcode }
    let issue := fun m => { block m with rstate := .running }
    let collect := fun m => { block m with rstate := .running, rphase := .collect }
    ((issue halted).rstate = .running ∧ (issue halted).rphase = .issue ∧
      (issue halted).insts[(issue halted).ringCur]? = some halted ∧ halted.state = .halted) ∧
    ((issue full).insts[(issue full).ringCur]? = some full ∧ full.state ≠ .halted ∧
      full.iq.length = (issue full).cfg.inDepth) ∧
    ((issue fresh).insts[(issue fresh).ringCur]? = some fresh ∧ fresh.active = false ∧ fresh.state = .running ∧
      fresh.iq.length ≠ (issue fresh).cfg.inDepth) ∧
    ((collect (unit [99] [] [])).rphase = .collect ∧ (unit [99] [] []).active = true) ∧
    ((collect bad).insts[(collect bad).ringCur]? = some bad ∧ bad.active = false ∧ bad.state = .faulted) ∧
    ((collect halted).insts[(collect halted).ringCur]? = some halted ∧ halted.active = false ∧
      halted.state ≠ .faulted ∧ halted.oq = 4 :: [5]) ∧
    ((collect fresh).insts[0]? = some fresh ∧ fresh.oq = [] ∧ fresh.state ≠ .faulted) ∧
    (∀ (j : Nat) (n : Instance), j < (collect halted).ringN → (collect halted).insts[j]? = some n → n.state = .halted) ∧
    (∃ (j : Nat) (n : Instance), j < (collect fresh).ringN ∧ (collect fresh).insts[j]? = some n ∧ n.state ≠ .halted) := by
  refine ⟨by decide, by decide, by decide, by decide, by decide, by decide, by decide, fun j n hj hn => ?_,
    0, _, by decide, rfl, by decide⟩
  obtain rfl : j = 0 := Nat.lt_one_iff.1 hj
  obtain rfl : _ = n := Option.some.inj hn
  rfl

/-- A ring of one halted member at its COLLECT. -/
theorem witness_RingIsDoneOnlyWhenAllHalted :
    let s := { block { unit [99] [] [4] with state := .halted, halted := true, active := false } with
      rstate := .running, rphase := .collect }
    ∃ s', step s = .next s' ∧ s.rstate ≠ .done ∧ s'.rstate = .done := ⟨_, rfl, by decide, by decide⟩

/-- Instance 1 beside a ring of one member, in ring mode and at RING_START. -/
theorem witness_InstancesOutsideTheRingAreUntouched :
    let s := { block { unit [99] [1] [] with active := false } with rstate := .running }
    (s.ringN ≤ 1 ∧ (s.rstate = .running → s.ringCur < s.ringN) ∧ ∃ s', s.schedulerStep = .next s') ∧
    ∃ s', hostStep .ringStart (State.resetOf small) = .next s' := ⟨⟨by decide, by decide, _, rfl⟩, _, rfl⟩

/-! ### Legal blocks -/

/-- A block outside ring mode whose instance 1, outside the ring, may hold anything legal: RING_START may be asked of
it. -/
def starting (q : List Int) : State :=
  { State.resetOf small with
    insts := [{ unit [99] [] q with active := false }, Instance.atReset], prog := [(0, 3)], plen := 1, seed := 4 }

/-- A block in ring mode, its one member between ISSUE and COLLECT. -/
def visiting : State :=
  { State.resetOf small with
    insts := [unit [3, 2, 99] [1, 2] [], Instance.atReset], rstate := .running, rphase := .collect }

theorem unit_ok (ws iq oq : List Int) (hl : ws.length ≤ 16) (hw : ∀ w ∈ ws, small.InRange w) (hi : iq.length ≤ 2)
    (hi' : ∀ v ∈ iq, small.InRange v) (ho : oq.length ≤ 2) (ho' : ∀ v ∈ oq, small.InRange v) :
    (unit ws iq oq).Ok small where
  memWf := Memory.wf_ofWords _ _
  memHolds := by
    intro x hx
    obtain ⟨h1, h2, h3, h4⟩ := Memory.mem_ofWords hx
    exact ⟨by have : small.memWords = 16 := rfl; omega, hw _ h3⟩
  lenFits := hl
  ipNear := by show small.NearRange 0; decide
  iqFits := hi
  iqWords := hi'
  oqFits := ho
  oqWords := ho'
  haltedFlag := by show (false = true ↔ EngineState.running = .halted); decide
  activeRuns := fun _ => rfl
  faultHasCause := fun h => by cases h
  faultClear := fun _ => ⟨rfl, rfl, rfl⟩
  faultIpNear := by show small.NearRange 0; decide
  faultInfoNear := by show small.NearRange 0; decide

theorem idle_ok {m : Instance} (h : m.Ok small) (hr : m.state = .running) :
    Instance.Ok small { m with active := false } :=
  { h with activeRuns := fun _ => hr }

theorem fresh_ok : Instance.atReset.Ok small := idle_ok (unit_ok [] [] [] (by decide) (by simp) (by decide) (by simp)
  (by decide) (by simp)) rfl

theorem starting_ok (q : List Int) (hq : q.length ≤ 2) (hq' : ∀ v ∈ q, small.InRange v) : (starting q).Ok where
  legal := by show small.Legal; decide
  instCount := rfl
  instOk := by
    intro m hm
    obtain rfl | rfl : m = { unit [99] [] q with active := false } ∨ m = Instance.atReset := by
      simpa [starting] using hm
    · exact idle_ok (unit_ok [99] [] q (by decide) (by decide) (by decide) (by decide) hq hq') rfl
    · exact fresh_ok
  progWf := ⟨by simp [starting], by simp [starting]⟩
  progHolds := by
    intro x hx
    obtain rfl : x = (0, 3) := by simpa [starting] using hx
    exact ⟨by show 0 < 16; decide, by show small.InRange 3; decide⟩
  plenFits := by show 1 ≤ 16; decide
  ringNLegal := by show 1 ≤ 1 ∧ 1 ≤ 2; decide
  ringCurLegal := by show 0 < 2; decide
  ringCurMember := fun h => by cases h
  carriedWord := by show small.InRange 0; decide
  seedWord := by show small.InRange 4; decide
  phaseCount := rfl
  phaseWords := by show ∀ v ∈ [0, 0], small.InRange v; decide
  ringFaultInstLegal := by show 0 < 2; decide
  ringFaultCause := ⟨fun _ => by show RingState.idle ≠ .faulted; decide, fun _ => rfl⟩

theorem visiting_ok : visiting.Ok where
  legal := by show small.Legal; decide
  instCount := rfl
  instOk := by
    intro m hm
    obtain rfl | rfl : m = unit [3, 2, 99] [1, 2] [] ∨ m = Instance.atReset := by simpa [visiting] using hm
    · exact unit_ok _ _ _ (by decide) (by decide) (by decide) (by decide) (by decide) (by decide)
    · exact fresh_ok
  progWf := Memory.wf_nil
  progHolds := by intro x hx; cases hx
  plenFits := Nat.zero_le _
  ringNLegal := by show 1 ≤ 1 ∧ 1 ≤ 2; decide
  ringCurLegal := by show 0 < 2; decide
  ringCurMember := fun _ => Nat.zero_lt_one
  carriedWord := by show small.InRange 0; decide
  seedWord := by show small.InRange 0; decide
  phaseCount := rfl
  phaseWords := by show ∀ v ∈ [0, 0], small.InRange v; decide
  ringFaultInstLegal := by show 0 < 2; decide
  ringFaultCause := ⟨fun _ => by show RingState.running ≠ .faulted; decide, fun _ => rfl⟩

theorem visiting_ringOk : visiting.RingOk where
  neverFull := by decide
  members := by
    intro _ j m hj hm
    obtain rfl : j = 0 := Nat.lt_one_iff.1 hj
    obtain rfl : _ = m := Option.some.inj hm
    rw [if_pos ⟨rfl, rfl⟩]
    intro h
    cases h

theorem witness_EveryStepKeepsTheBlockLegal : visiting.Ok ∧ ∃ s', step visiting = .next s' := ⟨visiting_ok, _, rfl⟩

theorem witness_TheRingNeverMeetsAFullInputQueue :
    visiting.Ok ∧ visiting.RingOk ∧ ∃ s', step visiting = .next s' := ⟨visiting_ok, visiting_ringOk, _, rfl⟩

/-- Two blocks that hold different things before RING_START; and two in ring mode that differ outside the ring. -/
theorem witness_RingRunsAreDeterministic :
    (let s := starting []
     let t := starting [8, 9]
     ∃ s', s.Ok ∧ t.Ok ∧ s.cfg = t.cfg ∧ s.plen = t.plen ∧ (∀ a, a < s.plen → s.prog.read a = t.prog.read a) ∧
       s.ringN = t.ringN ∧ s.seed = t.seed ∧ s.phase = t.phase ∧ t.rstate ≠ .running ∧
       (∀ (j : Nat) (m : Instance), j < t.ringN → t.insts[j]? = some m → m.active = false) ∧
       hostStep .ringStart s = .next s' ∧ s'.reply = some .ok) ∧
    (let t := { visiting with insts := [unit [3, 2, 99] [1, 2] [], unit [99] [] []], seed := 9 }
     visiting.RingAlike t ∧ (visiting.rstate = .running → visiting.ringCur < visiting.ringN) ∧
       (∃ s', visiting.fire .scheduler = .next s') ∧ 0 < visiting.ringN ∧ ∃ s', visiting.fire (.engine 0) = .next s') := by
  refine ⟨⟨_, starting_ok [] (by decide) (by simp), starting_ok [8, 9] (by decide) (by decide), rfl, rfl, fun _ _ => rfl,
    rfl, rfl, rfl, by decide, fun j m hj hm => ?_, rfl, rfl⟩,
    ⟨rfl, rfl, rfl, rfl, rfl, rfl, rfl, rfl, fun j hj => ?_⟩, fun _ => Nat.zero_lt_one, ⟨_, rfl⟩, Nat.zero_lt_one, _, rfl⟩
  · obtain rfl : j = 0 := Nat.lt_one_iff.1 hj
    obtain rfl : _ = m := Option.some.inj hm
    rfl
  · obtain rfl : j = 0 := Nat.lt_one_iff.1 hj
    exact ⟨_, _, rfl, rfl, Memory.wf_ofWords _ _, Memory.wf_ofWords _ _, rfl, fun _ _ => rfl⟩

theorem witness_ResumeAfterResetFaultsAtTheFetch : 0 < small.nMax ∧ 1 < small.nMax := by decide

theorem witness_ResetStateIsLegal : small.Legal := by decide

/-- A legal block with nothing coming, and one for each kind of event with an instance or a value of its own. -/
theorem witness_EveryPresentableStepCompletes :
    visiting.Ok ∧ (∀ e ∈ visiting.pending.head?, e.Presentable visiting.cfg) ∧
    Event.Presentable small (.host (.loadProgram [32767, -32768])) ∧ Event.Presentable small (.host (.pushInput 1 32767)) ∧
    Event.Presentable small (.host (.readReg 9 64)) ∧ Event.Presentable small (.host (.readReg 1 63)) ∧
    Event.Presentable small (.engine 1) ∧ Event.Presentable small .scheduler := by
  refine ⟨visiting_ok, by simp [visiting, State.resetOf], ?_, ?_, ?_, ?_, ?_, trivial⟩
  · show ∀ w ∈ [32767, -32768], small.InRange w
    decide
  · show 1 < 2 ∧ small.InRange 32767
    decide
  · show 64 < 64 → 9 < 2
    decide
  · show 63 < 64 → 1 < 2
    decide
  · show 1 < 2
    decide

/-- The first index beyond the block; the first value beyond a word on each side. -/
theorem witness_UnknownInstancesAndNonWordsStop :
    let s := { block (unit [99] [] []) with cur := 2 }
    s.insts[s.cur]? = none ∧ s.insts[2]? = none ∧ s.rstate ≠ .running ∧ 63 < 64 ∧
    (s.insts[0]? = some (unit [99] [] []) ∧ ¬ s.cfg.InRange 32768 ∧ ¬ s.cfg.InRange (-32769)) ∧
    (∃ w ∈ ([0, 32768] : List Int), ¬ s.cfg.InRange w) :=
  ⟨rfl, rfl, by decide, by decide, by decide, 32768, by decide, by decide⟩

theorem witness_ParametersNeverChange : ∃ s', step pair = .next s' := ⟨_, rfl⟩

/-- Instance 1 of two active ones, which the round robin reaches second. -/
theorem witness_AnActiveInstanceIsNotPassedOver :
    pair.pending = [] ∧ ∃ m, pair.insts[1]? = some m ∧ m.active = true := ⟨rfl, _, rfl, rfl⟩

theorem witness_AnyEventMayComeNext :
    ({ pair with pending := [.engine 1, .reset] } : State).pending = .engine 1 :: [.reset] := rfl

end Sys2Proof.Tests
end

section
/-! SUPPORT. The invariants of 10_state.md, and the statements about the state: what each update keeps, one lemma for
each, and then each step. -/

namespace Sys2Proof

/-! ### Words and addresses (00_scope.md R8, R9) -/

theorem Config.inRange_iff {c : Config} {v : Int} : c.InRange v ↔ -(c.bound : Int) ≤ v ∧ v ≤ (c.bound : Int) - 1 :=
  Iff.rfl

theorem Config.nearRange_iff {c : Config} {v : Int} :
    c.NearRange v ↔ -(c.bound : Int) ≤ v ∧ v ≤ (c.bound : Int) - 1 + 4 := Iff.rfl

theorem Config.InRange.near {c : Config} {v : Int} (h : c.InRange v) : c.NearRange v := by
  rw [Config.inRange_iff] at h
  rw [Config.nearRange_iff]
  omega

theorem Config.Legal.zero_inRange {c : Config} (h : c.Legal) : c.InRange 0 := by
  have := Laws.bound_ge h
  rw [Config.inRange_iff]
  omega

theorem Config.Legal.one_inRange {c : Config} (h : c.Legal) : c.InRange 1 := by
  have := Laws.bound_ge h
  rw [Config.inRange_iff]
  omega

theorem Config.Legal.nMax_pos {c : Config} (h : c.Legal) : 1 ≤ c.nMax := by
  obtain ⟨-, -, -, -, -, hn⟩ := h
  exact hn

theorem Config.Legal.two_le_inDepth {c : Config} (h : c.Legal) : 2 ≤ c.inDepth := by
  obtain ⟨-, -, -, hin, -, -⟩ := h
  exact hin

/-- An address below the capacity is a word, so `ip` passes WMAX by at most the longest instruction (10_state.md
R35). -/
theorem Config.Legal.near_past_address {c : Config} (h : c.Legal) {a k : Int} (h0 : 0 ≤ a)
    (ha : a < (c.memWords : Int)) (hk : 0 ≤ k) (hk' : k ≤ 4) : c.NearRange (a + k) := by
  obtain ⟨-, -, hmem, -, -, -⟩ := h
  rw [Config.nearRange_iff]
  omega

namespace Machine

/-! ### Memories that hold words -/

theorem Memory.holds_nil (c : Config) : Memory.Holds c [] := by
  intro x hx
  cases hx

theorem Memory.Holds.read_inRange {c : Config} {m : Memory} (h : m.Holds c) (hc : c.Legal) (a : Nat) :
    c.InRange (m.read a) := by
  rcases m.read_mem a with h0 | hmem
  · exact h0 ▸ hc.zero_inRange
  · exact (h _ hmem).2

theorem Memory.Holds.write {c : Config} {m : Memory} (h : m.Holds c) {a : Nat} {v : Int} (ha : a < c.memWords)
    (hv : c.InRange v) : (m.write a v).Holds c := by
  intro x hx
  rcases Memory.mem_write hx with hx | ⟨rfl, -⟩
  · exact h x hx
  · exact ⟨ha, hv⟩

theorem Memory.holds_ofWords {c : Config} {ws : List Int} (hl : ws.length ≤ c.memWords)
    (hw : ∀ w ∈ ws, c.InRange w) : (Memory.ofWords 0 ws).Holds c := by
  intro x hx
  obtain ⟨-, hlt, hmem, -⟩ := Memory.mem_ofWords hx
  exact ⟨by omega, hw _ hmem⟩

theorem Memory.Holds.copyBelow {c : Config} {src dst : Memory} (hs : src.Holds c) (hd : dst.Holds c) (n : Nat) :
    (Memory.copyBelow n src dst).Holds c := by
  intro x hx
  rcases Memory.mem_copyBelow.1 hx with ⟨h, -⟩ | ⟨h, -⟩
  · exact hs x h
  · exact hd x h

/-! ### Each update of an `Instance` keeps its invariant -/

section
variable {c : Config} {m : Instance}

theorem Instance.atReset_ok (hc : c.Legal) : Instance.atReset.Ok c where
  memWf := Memory.wf_nil
  memHolds := Memory.holds_nil c
  lenFits := Nat.zero_le _
  ipNear := hc.zero_inRange.near
  iqFits := Nat.zero_le _
  iqWords := by simp [Instance.atReset]
  oqFits := Nat.zero_le _
  oqWords := by simp [Instance.atReset]
  haltedFlag := by simp [Instance.atReset]
  activeRuns := fun _ => rfl
  faultHasCause := fun h => by cases h
  faultClear := fun _ => ⟨rfl, rfl, rfl⟩
  faultIpNear := hc.zero_inRange.near
  faultInfoNear := hc.zero_inRange.near

theorem Instance.Ok.halted_eq_false (h : m.Ok c) (hs : m.state = .running ∨ m.state = .suspendedOnInput) :
    m.halted = false := by
  rw [Bool.eq_false_iff, Ne, h.haltedFlag]
  rcases hs with hs | hs <;> simp [hs]

theorem Instance.Ok.clear (h : m.Ok c) (hs : m.state = .running ∨ m.state = .suspendedOnInput) :
    m.faultCause = .noFault ∧ m.faultIp = 0 ∧ m.faultInfo = 0 :=
  h.faultClear (by rcases hs with hs | hs <;> simp [hs])

theorem Instance.Ok.raise (h : m.Ok c) (ha : m.active = true) {t : Trap} (hc : t.cause ≠ .noFault)
    (hi : c.NearRange t.info) : (m.raise t).Ok c :=
  { h with
    haltedFlag := by simp [h.halted_eq_false (.inl (h.activeRuns ha))]
    activeRuns := fun h => by cases h
    faultHasCause := fun _ => hc
    faultClear := fun h => absurd rfl h
    faultIpNear := h.ipNear
    faultInfoNear := hi }

theorem Instance.Ok.suspend (h : m.Ok c) (ha : m.active = true) : m.suspend.Ok c :=
  { h with
    haltedFlag := by simp [h.halted_eq_false (.inl (h.activeRuns ha))]
    activeRuns := fun h => by cases h
    faultHasCause := fun h => by cases h
    faultClear := fun _ => h.clear (.inl (h.activeRuns ha)) }

theorem Instance.Ok.stop (h : m.Ok c) (ha : m.active = true) : m.stop.Ok c :=
  { h with
    haltedFlag := by simp
    activeRuns := fun h => by cases h
    faultHasCause := fun h => by cases h
    faultClear := fun _ => h.clear (.inl (h.activeRuns ha)) }

theorem Instance.Ok.setWord (h : m.Ok c) {a v : Int} (ha : m.inBounds a = true) (hv : c.InRange v) :
    (m.setWord a v).Ok c := by
  obtain ⟨h0, hlt⟩ := (m.inBounds_iff a).1 ha
  have hlen := h.lenFits
  exact { h with
    memWf := Memory.wf_write h.memWf _ _
    memHolds := h.memHolds.write (by omega) hv }

theorem Instance.Ok.advance (h : m.Ok c) {n : Int} (hn : c.NearRange (m.ip + n)) : (m.advance n).Ok c :=
  { h with ipNear := hn }

theorem Instance.Ok.jump (h : m.Ok c) {t : Int} (ht : c.NearRange t) : (m.jump t).Ok c :=
  { h with ipNear := ht }

theorem Instance.Ok.pushInput (h : m.Ok c) {v : Int} (hv : c.InRange v) (hl : m.iq.length ≠ c.inDepth) :
    (m.pushInput v).Ok c :=
  { h with
    iqFits := by
      have := h.iqFits
      simp only [Instance.pushInput_iq, List.length_append, List.length_singleton]
      omega
    iqWords := List.forall_mem_append.2 ⟨h.iqWords, List.forall_mem_singleton.2 hv⟩ }

theorem Instance.Ok.pushOutput (h : m.Ok c) {v : Int} (hv : c.InRange v) (hl : m.oq.length ≠ c.outDepth) :
    (m.pushOutput v).Ok c :=
  { h with
    oqFits := by
      have := h.oqFits
      simp only [Instance.pushOutput_oq, List.length_append, List.length_singleton]
      omega
    oqWords := List.forall_mem_append.2 ⟨h.oqWords, List.forall_mem_singleton.2 hv⟩ }

theorem Instance.Ok.popInput (h : m.Ok c) : m.popInput.Ok c :=
  { h with
    iqFits := (List.tail_sublist m.iq).length_le.trans h.iqFits
    iqWords := fun v hv => h.iqWords v (List.mem_of_mem_tail hv) }

theorem Instance.Ok.popOutput (h : m.Ok c) : m.popOutput.Ok c :=
  { h with
    oqFits := (List.tail_sublist m.oq).length_le.trans h.oqFits
    oqWords := fun v hv => h.oqWords v (List.mem_of_mem_tail hv) }

theorem Instance.Ok.resume (h : m.Ok c) : m.resume.1.Ok c := by
  rcases m.resume_fst with he | ⟨-, hs, he⟩ <;> rw [he]
  · exact h
  · exact { h with
      haltedFlag := by simp [h.halted_eq_false hs]
      activeRuns := fun _ => rfl
      faultHasCause := fun h => by cases h
      faultClear := fun _ => h.clear hs }

theorem Instance.Ok.instantiate (h : m.Ok c) (hc : c.Legal) {prog : Memory} {plen : Nat} (hw : prog.wf)
    (hp : prog.Holds c) (hl : plen ≤ c.memWords) : (m.instantiate prog plen).Ok c :=
  { Instance.atReset_ok hc with
    memWf := Memory.wf_copyBelow hw h.memWf plen
    memHolds := hp.copyBelow h.memHolds plen
    lenFits := hl }

/-! ### What an engine fetches and computes are words -/

theorem Instance.Ok.window_inRange (h : m.Ok c) (hc : c.Legal) {w : Int} (hw : w ∈ m.window) : c.InRange w := by
  obtain ⟨a, -, rfl⟩ := Instance.window_mem hw
  exact h.memHolds.read_inRange hc a

theorem Instance.Ok.operandWord_inRange (h : m.Ok c) (hc : c.Legal) {i : Instr} {rest : List Int}
    (hd : decode m.window = .ok (i, rest)) {p : Int} (hp : p ∈ i.operandWords) : c.InRange p := by
  obtain ⟨w, -, hw⟩ := decode_operands hd
  exact h.window_inRange hc (by simp [hw, hp])

theorem Instance.Ok.value_inRange (h : m.Ok c) (hc : c.Legal) {o : Operand} {x : Int} (ho : c.InRange o.word)
    (hx : m.value o = .ok x) : c.InRange x := by
  rcases Instance.value_ok hx with rfl | ⟨-, rfl⟩
  · exact ho
  · exact h.memHolds.read_inRange hc _

/-- Where there is a word to decode, `ip` is in bounds (40_execution_cycle.md R145). -/
theorem Instance.ip_inBounds_of_window {w : Int} {ws : List Int} (hw : m.window = w :: ws) :
    0 ≤ m.ip ∧ m.ip < (m.len : Int) ∧ (ws.length : Int) + 1 ≤ 4 := by
  have hl := m.window_length
  rw [hw, List.length_cons] at hl
  split at hl <;> omega

theorem Instance.Ok.near_past_ip (h : m.Ok c) (hc : c.Legal) {w : Int} {ws : List Int} (hw : m.window = w :: ws)
    {k : Int} (hk : 0 ≤ k) (hk' : k ≤ 4) : c.NearRange (m.ip + k) := by
  obtain ⟨h0, hlt, -⟩ := Instance.ip_inBounds_of_window hw
  have hlen := h.lenFits
  exact hc.near_past_address h0 (by omega) hk hk'

/-! ### An engine's step keeps the invariant of its `Instance` -/

theorem Instance.Ok.fetchTrap (h : m.Ok c) (hc : c.Legal) (ha : m.active = true) {e : DecodeError}
    (he : decode m.window = .error e) : (m.raise (m.fetchTrap e)).Ok c := by
  rcases decode_error he with ⟨-, rfl⟩ | ⟨w, ps, hw, ⟨rfl, -⟩ | rfl | ⟨rfl, -⟩⟩
  · exact h.raise ha (by simp [Instance.fetchTrap]) h.ipNear
  · exact h.raise ha (by simp [Instance.fetchTrap]) (h.window_inRange hc (w := w) (by simp [hw])).near
  · exact h.raise ha (by simp [Instance.fetchTrap]) (h.window_inRange hc (w := w) (by simp [hw])).near
  · obtain ⟨-, -, hl⟩ := Instance.ip_inBounds_of_window hw
    exact h.raise ha (by simp [Instance.fetchTrap]) (h.near_past_ip hc hw (by omega) (by push_cast; omega))

theorem InstrEffect.ok {i : Instr} {rest : List Int} {m' : Instance} (he : InstrEffect c m i m') (h : m.Ok c)
    (hc : c.Legal) (ha : m.active = true) (hd : decode m.window = .ok (i, rest)) : m'.Ok c := by
  obtain ⟨w, -, hw⟩ := decode_operands hd
  have hword : ∀ p ∈ i.operandWords, c.InRange p := fun p hp => h.operandWord_inRange hc hd hp
  cases he with
  | faulted i t hcause hinfo =>
    refine h.raise ha (by rcases hcause with e | e | e | e <;> simp [e]) (Config.InRange.near ?_)
    rcases hinfo with e | hp | ⟨o, hv, ho⟩
    · exact e ▸ hc.zero_inRange
    · exact hword _ hp
    · exact h.value_inRange hc (hword _ ho) hv
  | stored i a b d r hi hin hr =>
    have hr : c.InRange r := by
      rcases hr with hr | rfl | rfl
      · exact hr
      · exact hc.zero_inRange
      · exact hc.one_inRange
    exact (h.setWord hin hr).advance (h.near_past_ip hc hw (by omega) (by omega))
  | suspended d hq => exact h.suspend ha
  | took d v q hq hin =>
    have hv : c.InRange v := h.iqWords v (by simp [hq])
    exact (h.setWord hin hv).popInput.advance (h.near_past_ip hc hw (by omega) (by omega))
  | gave a x hx hl =>
    have hv : c.InRange x := h.value_inRange hc (hword _ (by simp [Instr.operandWords])) hx
    exact (h.pushOutput hv hl).advance (h.near_past_ip hc hw (by omega) (by omega))
  | jumped i a b t hi ht =>
    have hb : b.word ∈ i.operandWords := by rcases hi with rfl | rfl <;> simp [Instr.operandWords]
    exact h.jump (h.value_inRange hc (hword _ hb) ht).near
  | passed i a b hi => exact h.advance (h.near_past_ip hc hw (by omega) (by omega))
  | halted => exact h.stop ha

theorem EngineEffect.ok {m' : Instance} (he : EngineEffect c m m') (h : m.Ok c) (hc : c.Legal)
    (ha : m.active = true) : m'.Ok c := by
  cases he with
  | stopped e he => exact h.fetchTrap hc ha he
  | executed i rest m' hd he => exact he.ok h hc ha hd

end

/-! ### Each update of the block keeps its invariant -/

section
variable {s s' : State}

theorem State.Ok.of_getElem? (h : s.Ok) {k : Nat} {m : Instance} (hm : s.insts[k]? = some m) : m.Ok s.cfg :=
  h.instOk m (List.mem_of_getElem? hm)

theorem State.Ok.setInst (h : s.Ok) (k : Nat) {m : Instance} (hm : m.Ok s.cfg) : (s.setInst k m).Ok :=
  { h with
    instCount := by simp [h.instCount]
    instOk := State.setInst_forall h.instOk hm }

theorem State.Ok.answer (h : s.Ok) (r : Reply) : (s.answer r).Ok := { h with }

theorem State.resetOf_ok {c : Config} (hc : c.Legal) : (State.resetOf c).Ok where
  legal := hc
  instCount := by simp
  instOk := fun m hm => List.eq_of_mem_replicate hm ▸ Instance.atReset_ok hc
  progWf := Memory.wf_nil
  progHolds := Memory.holds_nil c
  plenFits := Nat.zero_le _
  ringNLegal := ⟨le_refl 1, hc.nMax_pos⟩
  ringCurLegal := hc.nMax_pos
  ringCurMember := fun h => by cases h
  carriedWord := hc.zero_inRange
  seedWord := hc.zero_inRange
  phaseCount := by simp
  phaseWords := fun v hv => List.eq_of_mem_replicate hv ▸ hc.zero_inRange
  ringFaultInstLegal := hc.nMax_pos
  ringFaultCause := by simp

theorem State.Ok.resetInput (h : s.Ok) : s.resetInput.Ok := { State.resetOf_ok h.legal with }

/-- Choosing the next event changes `pending` and `turn` at most, of which the invariant does not speak. -/
theorem State.Ok.nextEvent (h : s.Ok) {e : Event} {t : State} (hn : s.nextEvent = some (e, t)) : t.Ok := by
  rw [State.nextEvent_same hn]
  exact { h with }

theorem State.Ok.phase_getD_inRange (h : s.Ok) (j : Nat) : s.cfg.InRange (s.phase.getD j 0) := by
  rw [List.getD_eq_getElem?_getD]
  cases hj : s.phase[j]? with
  | none => exact h.legal.zero_inRange
  | some v => exact h.phaseWords v (List.mem_of_getElem? hj)

theorem State.Ok.ringMember (h : s.Ok) (j : Nat) {m : Instance} (hm : m.Ok s.cfg) : (s.ringMember j m).Ok s.cfg := by
  unfold State.ringMember
  split
  · have hin := h.legal.two_le_inDepth
    refine (hm.instantiate h.legal h.progWf h.progHolds h.plenFits).pushInput (h.phase_getD_inRange j) ?_
    simp only [Instance.instantiate_iq, List.length_nil]
    omega
  · exact hm

theorem HostEffect.ok {op : HostOp} (he : HostEffect s op s') (h : s.Ok) : s'.Ok := by
  cases he with
  | answered op r => exact h.answer r
  | loaded ws hn hw hl =>
    exact { h with
      progWf := Memory.wf_copyBelow (Memory.wf_ofWords 0 ws) h.progWf _
      progHolds := (Memory.holds_ofWords hl hw).copyBelow h.progHolds _
      plenFits := hl }
  | instantiated k m hn hm ha =>
    exact (h.setInst k ((h.of_getElem? hm).instantiate h.legal h.progWf h.progHolds h.plenFits)).answer _
  | pushed k v m hn hm hv hl => exact (h.setInst k ((h.of_getElem? hm).pushInput hv hl)).answer _
  | popped k m v rest hn hm hq => exact (h.setInst k (h.of_getElem? hm).popOutput).answer _
  | resumed k m hn hm => exact (h.setInst k (h.of_getElem? hm).resume).answer _
  | wroteRingN v hn hv =>
    exact { h with
      ringNLegal := by
        show 1 ≤ v.toNat ∧ v.toNat ≤ s.cfg.nMax
        omega
      ringCurMember := fun hr => absurd hr hn }
  | wroteSeed v hn hv => exact { h with seedWord := hv }
  | wrotePhase r v hn hr hv =>
    exact { h with
      phaseCount := by simp [h.phaseCount]
      phaseWords := fun w hw => by
        rcases List.mem_or_eq_of_mem_set hw with hw | rfl
        · exact h.phaseWords w hw
        · exact hv }
  | ringStarted hn hl =>
    obtain ⟨hN, hN'⟩ := h.ringNLegal
    exact { h with
      instCount := by simp [h.instCount]
      instOk := fun m hm => by
        obtain ⟨j, hj, rfl⟩ := List.mem_mapIdx.1 hm
        exact h.ringMember j (h.instOk _ (List.getElem_mem hj))
      ringCurLegal := Nat.lt_of_lt_of_le hN hN'
      ringCurMember := fun _ => hN
      carriedWord := h.seedWord
      ringFaultInstLegal := Nat.lt_of_lt_of_le hN hN'
      ringFaultCause := by simp }

theorem State.Ok.engineStep (h : s.Ok) {k : Nat} (he : s.engineStep k = .next s') : s'.Ok := by
  obtain ⟨m, hm, ⟨-, rfl⟩ | ⟨ha, m', heff, rfl⟩⟩ := State.engineStep_effect he
  · exact h
  · have hcur : State.Ok { s with cur := k } := { h with }
    exact hcur.setInst k (heff.ok (h.of_getElem? hm) h.legal ha)

theorem State.Ok.ringPop (h : s.Ok) {m : Instance} (hm : m.Ok s.cfg) : (s.ringPop m).Ok := by
  rcases s.ringPop_cases m with ⟨-, e⟩ | ⟨v, rest, hq, e⟩ <;> rw [e]
  · exact h
  · exact { h.setInst s.ringCur hm.popOutput with carriedWord := hm.oqWords v (by simp [hq]) }

theorem State.Ok.ringAdvance (h : s.Ok) (hr : s.rstate = .running) : s.ringAdvance.Ok := by
  have hf : s.rfault = .noFault := h.ringFaultCause.2 (by simp [hr])
  obtain ⟨hN, hN'⟩ := h.ringNLegal
  have hlt : (s.ringCur + 1) % s.ringN < s.ringN := Nat.mod_lt _ hN
  rcases s.ringAdvance_cases with ⟨-, e⟩ | ⟨-, e⟩ <;> rw [e]
  · exact { h with
      ringCurMember := fun h => by cases h
      ringFaultCause := by simp [hf] }
  · exact { h with
      ringCurLegal := Nat.lt_of_lt_of_le hlt hN'
      ringCurMember := fun _ => hlt }

@[simp] theorem State.ringPop_rstate (s : State) (m : Instance) : (s.ringPop m).rstate = s.rstate := by
  rcases s.ringPop_cases m with ⟨-, e⟩ | ⟨v, rest, -, e⟩ <;> rw [e]
  rfl

/-- The ring stops with a fault on its current member (60_exceptions.md R344). -/
theorem State.Ok.ringFaulted (h : s.Ok) {f : RingFault} (hf : f ≠ .noFault) :
    State.Ok { s with rstate := .faulted, rfault := f, ringFaultInst := s.ringCur } :=
  { h with
    ringCurMember := fun h => by cases h
    ringFaultInstLegal := h.ringCurLegal
    ringFaultCause := by simp [hf] }

theorem SchedulerEffect.ok (he : SchedulerEffect s s') (h : s.Ok) : s'.Ok := by
  cases he with
  | waited => exact h
  | skipped m hr hp hm hh => exact { h with }
  | full m hr hp hm hh hl => exact h.ringFaulted (by simp)
  | issued m hr hp hm hh hl =>
    have hm' := ((h.of_getElem? hm).pushInput h.carriedWord hl).resume
    exact { h.setInst s.ringCur hm' with }
  | stopped m hr hp hm ha hf => exact h.ringFaulted (by simp)
  | collected m hr hp hm ha hf => exact (h.ringPop (h.of_getElem? hm)).ringAdvance (by simp [hr])

end

/-- Settles O51: each kind of event keeps the invariant, by the lemma for it. -/
theorem everyStepKeepsTheBlockLegal : Obligations.EveryStepKeepsTheBlockLegal := by
  unfold Obligations.EveryStepKeepsTheBlockLegal
  intro s s' h hstep
  rcases step_cases hstep with ⟨-, rfl⟩ | ⟨e, t, hn, hc⟩
  · exact h
  have ht := h.nextEvent hn
  rcases hc with ⟨op, -, he⟩ | ⟨k, -, he⟩ | ⟨-, he⟩ | ⟨-, rfl⟩
  · exact he.ok ht
  · exact ht.engineStep he
  · exact he.ok ht
  · exact ht.resetInput

/-- Settles O52, by the lemma that every reset state is legal; no ring runs in it. -/
theorem resetStateIsLegal : Obligations.ResetStateIsLegal := by
  unfold Obligations.ResetStateIsLegal
  have ringOk : ∀ c : Config, (State.resetOf c).RingOk := fun c =>
    { neverFull := by simp, members := fun h => by cases h }
  have standard : Config.standard.Legal := by decide
  exact ⟨fun c hc => ⟨State.resetOf_ok hc, ringOk c⟩, State.resetOf_ok standard, ringOk _⟩

end Machine

end Sys2Proof
end

section
/-! SUPPORT. What a step does to the parameters, the `halted` flag and the queues; the register map; reset. -/

namespace Sys2Proof.Machine

/-! ### The parameters -/

theorem HostEffect.cfg_eq {s s' : State} {op : HostOp} (he : HostEffect s op s') : s'.cfg = s.cfg := by
  cases he <;> rfl

@[simp] theorem State.ringPop_cfg (s : State) (m : Instance) : (s.ringPop m).cfg = s.cfg := by
  rcases s.ringPop_cases m with ⟨-, e⟩ | ⟨v, rest, -, e⟩ <;> rw [e]
  rfl

@[simp] theorem State.ringAdvance_cfg (s : State) : s.ringAdvance.cfg = s.cfg := by
  rcases s.ringAdvance_cases with ⟨-, e⟩ | ⟨-, e⟩ <;> rw [e]

theorem SchedulerEffect.cfg_eq {s s' : State} (he : SchedulerEffect s s') : s'.cfg = s.cfg := by
  cases he with
  | waited | skipped | full | issued | stopped => rfl
  | collected => simp

theorem State.engineStep_cfg_eq {s s' : State} {k : Nat} (h : s.engineStep k = .next s') : s'.cfg = s.cfg := by
  obtain ⟨m, -, ⟨-, rfl⟩ | ⟨-, m', -, rfl⟩⟩ := State.engineStep_effect h <;> rfl

/-- Settles O56: no kind of event writes the parameters. -/
theorem parametersNeverChange : Obligations.ParametersNeverChange := by
  unfold Obligations.ParametersNeverChange
  intro s s' h
  rcases step_cases h with ⟨-, rfl⟩ | ⟨e, t, hn, hc⟩
  · rfl
  obtain ⟨hcfg, -⟩ := State.nextEvent_fields hn
  rw [← hcfg]
  rcases hc with ⟨op, -, he⟩ | ⟨k, -, he⟩ | ⟨-, he⟩ | ⟨-, rfl⟩
  · exact he.cfg_eq
  · exact State.engineStep_cfg_eq he
  · exact he.cfg_eq
  · rfl

/-! ### What resuming leaves alone -/

@[simp] theorem Instance.resume_fst_halted (m : Instance) : m.resume.1.halted = m.halted := by
  rcases m.resume_fst with e | ⟨-, -, e⟩ <;> rw [e]

@[simp] theorem Instance.resume_fst_iq (m : Instance) : m.resume.1.iq = m.iq := by
  rcases m.resume_fst with e | ⟨-, -, e⟩ <;> rw [e]

@[simp] theorem Instance.resume_fst_oq (m : Instance) : m.resume.1.oq = m.oq := by
  rcases m.resume_fst with e | ⟨-, -, e⟩ <;> rw [e]

/-- RESUME does not start what has halted or faulted (40_execution_cycle.md R141). -/
theorem Instance.resume_fst_stopped {m : Instance} (h : m.state = .halted ∨ m.state = .faulted) :
    m.resume.1 = m := by
  rcases m.resume_fst with e | ⟨-, hs, -⟩
  · exact e
  · rcases h with h | h <;> simp [h] at hs

/-! ### The `halted` flag (10_state.md R38) -/

theorem InstrEffect.halted_cases {c : Config} {m m' : Instance} {i : Instr} (he : InstrEffect c m i m') :
    m'.halted = m.halted ∨ (i = .halt ∧ m'.halted = true) := by
  cases he with
  | faulted | stored | suspended | took | gave | jumped | passed => exact .inl rfl
  | halted => exact .inr ⟨rfl, rfl⟩

theorem EngineEffect.halted_cases {c : Config} {m m' : Instance} (he : EngineEffect c m m') :
    m'.halted = m.halted ∨ ((∃ rest, decode m.window = .ok (.halt, rest)) ∧ m'.halted = true) := by
  cases he with
  | stopped => exact .inl rfl
  | executed i rest m' hd he =>
    rcases he.halted_cases with h | ⟨rfl, h⟩
    · exact .inl h
    · exact .inr ⟨⟨rest, hd⟩, h⟩

/-- A step leaves the flag alone unless it is a renewal or its engine's HALT, which sets it. -/
theorem InstanceEffect.halted_cases {s s' : State} {k : Nat} {m m' : Instance} (he : InstanceEffect s s' k m m') :
    m'.halted = m.halted ∨ (∃ e t, s.nextEvent = some (e, t) ∧ s.Renews e k) ∨
    (m'.halted = true ∧
      ∃ t rest, s.nextEvent = some (.engine k, t) ∧ m.active = true ∧ decode m.window = .ok (.halt, rest)) := by
  cases he with
  | kept | pushed | popped | collected => exact .inl rfl
  | resumed | issued => exact .inl (by simp)
  | renewed e t m' hn hr => exact .inr (.inl ⟨e, t, hn, hr⟩)
  | executed t m' hn ha he =>
    rcases he.halted_cases with h | ⟨⟨rest, hd⟩, h⟩
    · exact .inl h
    · exact .inr (.inr ⟨h, t, rest, hn, ha, hd⟩)

theorem State.resetInput_get {s : State} {k : Nat} {m : Instance} (h : s.resetInput.insts[k]? = some m) :
    m = Instance.atReset :=
  List.eq_of_mem_replicate (List.mem_of_getElem? h)

theorem HostEffect.instantiate_halted {s s' : State} {k : Nat} {m m' : Instance}
    (he : HostEffect s (.instantiate k) s') (hm : s.insts[k]? = some m) (hm' : s'.insts[k]? = some m') :
    m'.halted = m.halted ∨ m'.halted = false := by
  cases he with
  | answered =>
    obtain rfl := Option.some.inj (hm.symm.trans hm')
    exact .inl rfl
  | instantiated k n =>
    rcases State.setInst_get (s := s) hm' with ⟨-, rfl⟩ | ⟨hk, -⟩
    · exact .inr rfl
    · exact absurd rfl hk

theorem HostEffect.ringStart_halted {s s' : State} {k : Nat} {m m' : Instance} (he : HostEffect s .ringStart s')
    (hk : k < s.ringN) (hm : s.insts[k]? = some m) (hm' : s'.insts[k]? = some m') :
    m'.halted = m.halted ∨ m'.halted = false := by
  cases he with
  | answered =>
    obtain rfl := Option.some.inj (hm.symm.trans hm')
    exact .inl rfl
  | ringStarted =>
    obtain rfl : s.ringMember k m = m' := by simpa [hm] using hm'
    exact .inr (by simp [State.ringMember, hk])

/-- An event that renews (or is turned away) sets no flag. -/
theorem State.Renews.halted_cases {s s' t : State} {e : Event} {k : Nat} {m m' : Instance} (hr : s.Renews e k)
    (h : step s = .next s') (hn : s.nextEvent = some (e, t)) (hm : s.insts[k]? = some m)
    (hm' : s'.insts[k]? = some m') : m'.halted = m.halted ∨ m'.halted = false := by
  rw [step_of_nextEvent hn] at h
  obtain ⟨-, hi, -, -, -, -, hrn, -⟩ := State.nextEvent_fields hn
  rw [← hi] at hm
  rcases hr with rfl | ⟨rfl, hk⟩ | rfl
  · exact (hostStep_cases (op := .instantiate k) h).instantiate_halted hm hm'
  · exact (hostStep_cases (op := .ringStart) h).ringStart_halted (hrn ▸ hk) hm hm'
  · obtain rfl : t.resetInput = s' := by simpa [State.fire] using h
    rw [State.resetInput_get hm']
    exact .inr rfl

/-- Settles O28: of the ways a step changes the flag, only HALT sets it and only a renewal clears it. -/
theorem haltedFlagIsSetByHaltAlone : Obligations.HaltedFlagIsSetByHaltAlone := by
  unfold Obligations.HaltedFlagIsSetByHaltAlone
  intro s s' k m m' h hm hm'
  rcases (instanceEffect h hm hm').halted_cases with he | ⟨e, t, hn, hr⟩ | ⟨hset, hhalt⟩
  · exact ⟨fun h0 h1 => by simp [he, h0] at h1, fun h1 h0 => by simp [he, h1] at h0⟩
  · refine ⟨fun h0 h1 => ?_, fun _ _ => ⟨e, t, hn, hr⟩⟩
    rcases hr.halted_cases h hn hm hm' with he | he <;> simp [he, h0] at h1
  · exact ⟨fun _ _ => hhalt, fun _ h0 => by simp [hset] at h0⟩

/-! ### HALTED and FAULTED (10_state.md R36, 60_exceptions.md R304) -/

/-- Settles O29: its engine does not move, RESUME and ISSUE do not start it, and a push or pop moves its queues
alone. -/
theorem haltedAndFaultedAreAbsorbing : Obligations.HaltedAndFaultedAreAbsorbing := by
  unfold Obligations.HaltedAndFaultedAreAbsorbing
  intro s s' k m m' h hm hm' hidle hstate
  cases instanceEffect h hm hm' with
  | kept | pushed | popped | collected => exact .inl rfl
  | renewed e t m' hn hr => exact .inr ⟨e, t, hn, hr⟩
  | executed t m' hn ha he => simp [hidle] at ha
  | resumed t hn =>
    rw [Instance.resume_fst_stopped hstate]
    exact .inl rfl
  | issued t hn hr hp hk hh =>
    rw [Instance.resume_fst_stopped (m := m.pushInput s.carried) hstate]
    exact .inl rfl

/-! ### The queues (10_state.md R41, R42) -/

theorem InstrEffect.iq_cases {c : Config} {m m' : Instance} {i : Instr} (he : InstrEffect c m i m') :
    m'.iq = m.iq ∨ ∃ d v, i = .input d ∧ m.iq = v :: m'.iq := by
  cases he with
  | faulted | stored | suspended | gave | jumped | passed | halted => exact .inl rfl
  | took d v rest hq hd => exact .inr ⟨d, v, rfl, by simp [hq]⟩

theorem InstrEffect.oq_cases {c : Config} {m m' : Instance} {i : Instr} (he : InstrEffect c m i m') :
    m'.oq = m.oq ∨ ∃ a v, i = .output a ∧ m.value a = .ok v ∧ m'.oq = m.oq ++ [v] := by
  cases he with
  | faulted | stored | suspended | took | jumped | passed | halted => exact .inl rfl
  | gave a v hv hl => exact .inr ⟨a, v, rfl, hv, rfl⟩

theorem EngineEffect.iq_cases {c : Config} {m m' : Instance} (he : EngineEffect c m m') :
    m'.iq = m.iq ∨ ∃ d rest v, decode m.window = .ok (.input d, rest) ∧ m.iq = v :: m'.iq := by
  cases he with
  | stopped => exact .inl rfl
  | executed i rest m' hd he =>
    rcases he.iq_cases with hq | ⟨d, v, rfl, hq⟩
    · exact .inl hq
    · exact .inr ⟨d, rest, v, hd, hq⟩

theorem EngineEffect.oq_cases {c : Config} {m m' : Instance} (he : EngineEffect c m m') :
    m'.oq = m.oq ∨
      ∃ a rest v, decode m.window = .ok (.output a, rest) ∧ m.value a = .ok v ∧ m'.oq = m.oq ++ [v] := by
  cases he with
  | stopped => exact .inl rfl
  | executed i rest m' hd he =>
    rcases he.oq_cases with hq | ⟨a, v, rfl, hv, hq⟩
    · exact .inl hq
    · exact .inr ⟨a, rest, v, hd, hv, hq⟩

/-- Settles O31: each thing a step can do to the block's `Instance` moves each queue by at most one entry. -/
theorem queuesAreStrictFifos : Obligations.QueuesAreStrictFifos := by
  unfold Obligations.QueuesAreStrictFifos
  intro s s' k m m' h hm hm'
  cases instanceEffect h hm hm' with
  | kept => exact .inr ⟨.inl rfl, .inl rfl⟩
  | renewed e t m' hn hr => exact .inl ⟨e, t, hn, hr⟩
  | executed t m' hn ha he =>
    refine .inr ⟨?_, ?_⟩
    · rcases he.iq_cases with hq | ⟨d, rest, v, hd, hq⟩
      · exact .inl hq
      · exact .inr (.inr (.inr ⟨t, d, rest, v, hn, hd, hq⟩))
    · rcases he.oq_cases with hq | ⟨a, rest, v, hd, hv, hq⟩
      · exact .inl hq
      · exact .inr (.inr (.inr ⟨t, a, rest, v, hn, hd, hv, hq⟩))
  | pushed t v hn => exact .inr ⟨.inr (.inl ⟨t, v, hn, rfl⟩), .inl rfl⟩
  | popped t v rest hn hq hv => exact .inr ⟨.inl rfl, .inr (.inl ⟨t, v, hn, by simp [hq], hv⟩)⟩
  | resumed t hn => exact .inr ⟨.inl (by simp), .inl (by simp)⟩
  | issued t hn hr hp hk hh =>
    exact .inr ⟨.inr (.inr (.inl ⟨t, hn, hr, hp, hk, by simp⟩)), .inl (by simp)⟩
  | collected t v rest hn hr hp hk hq hv =>
    exact .inr ⟨.inl rfl, .inr (.inr (.inl ⟨t, v, hn, hr, hp, hk, by simp [hq], hv⟩))⟩

/-! ### The register map (10_state.md R45 to R47) -/

theorem hostStep_readReg_own {s : State} {k r : Nat} {m : Instance} (hm : s.insts[k]? = some m) (hr : r < 64) :
    hostStep (.readReg k r) s = .next (s.answer (regReply (m.register r))) := by
  rw [hostStep, hostReadReg, if_pos hr, State.onInst_some hm]

theorem hostStep_readReg_shared (s : State) (k : Nat) {r : Nat} (hr : 64 ≤ r) :
    hostStep (.readReg k r) s = .next (s.answer (regReply (s.sharedRegister r))) := by
  rw [hostStep, hostReadReg, if_neg (by omega)]

theorem Instance.register_reserved (m : Instance) {r : Nat} (hr : 8 ≤ r) : m.register r = none := by
  obtain ⟨j, rfl⟩ := Nat.exists_eq_add_of_le' hr
  rfl

theorem State.sharedRegister_phase (s : State) (j : Nat) : s.sharedRegister (128 + j) = s.phase[j]? := by
  unfold State.sharedRegister
  rw [if_pos (by omega), Nat.add_sub_cancel_left]

theorem State.sharedRegister_reserved (s : State) {r : Nat} (h : 71 ≤ r) (hr : r < 128 ∨ 128 + s.phase.length ≤ r) :
    s.sharedRegister r = none := by
  rcases hr with hr | hr
  · obtain ⟨j, rfl⟩ := Nat.exists_eq_add_of_le' h
    unfold State.sharedRegister
    rw [if_neg (by omega)]
    rfl
  · obtain ⟨j, rfl⟩ := Nat.exists_eq_add_of_le (show 128 ≤ r by omega)
    rw [State.sharedRegister_phase, List.getElem?_eq_none (by omega)]

/-- Outside ring mode WRITE_REG of every number but RING_N, SEED and PHASE[i] is refused. -/
theorem hostStep_writeReg_other {s : State} (hn : s.rstate ≠ .running) {r : Nat} (v : Int) (hN : r ≠ 65)
    (hS : r ≠ 68) (hP : ¬ (128 ≤ r ∧ r < 128 + s.cfg.nMax)) :
    hostStep (.writeReg r v) s = .next (s.answer .illegal) := by
  rw [hostStep, hostWriteReg, State.unlessRing_not hn, if_neg hN, if_neg hS, if_neg hP]

theorem hostStep_writeReg_ringN {s : State} (hn : s.rstate ≠ .running) (v : Int) :
    hostStep (.writeReg 65 v) s =
      if 1 ≤ v ∧ v ≤ (s.cfg.nMax : Int) then .next (State.answer { s with ringN := v.toNat } .ok)
      else .next (s.answer .illegal) := by
  rw [hostStep, hostWriteReg, State.unlessRing_not hn, if_pos rfl]

theorem hostStep_writeReg_seed {s : State} (hn : s.rstate ≠ .running) (v : Int) :
    hostStep (.writeReg 68 v) s =
      if s.cfg.InRange v then .next (State.answer { s with seed := v } .ok) else .next (s.answer .illegal) := by
  rw [hostStep, hostWriteReg, State.unlessRing_not hn, if_neg (by omega), if_pos rfl]

theorem hostStep_writeReg_phase {s : State} (hn : s.rstate ≠ .running) {j : Nat} (hj : j < s.cfg.nMax) (v : Int) :
    hostStep (.writeReg (128 + j) v) s =
      if s.cfg.InRange v then .next (State.answer { s with phase := s.phase.set j v } .ok)
      else .next (s.answer .illegal) := by
  rw [hostStep, hostWriteReg, State.unlessRing_not hn, if_neg (by omega), if_neg (by omega), if_pos (by omega),
    Nat.add_sub_cancel_left]

/-- Settles O38: the eight registers by evaluation, the reserved numbers by the lemmas for them. -/
theorem instanceRegisterMap : Obligations.InstanceRegisterMap := by
  unfold Obligations.InstanceRegisterMap
  intro s k m hm
  have reads : ∀ (r : Nat) (v : Int), r < 64 → m.register r = some v →
      hostStep (.readReg k r) s = .next (s.answer (.value v)) := fun r v hr hv => by
    rw [hostStep_readReg_own hm hr, hv, regReply]
  refine ⟨⟨reads 0 _ (by decide) rfl, reads 1 _ (by decide) rfl, reads 2 _ (by decide) rfl, reads 3 _ (by decide) rfl,
    reads 4 _ (by decide) rfl, reads 5 _ (by decide) rfl, reads 6 _ (by decide) rfl, reads 7 _ (by decide) rfl⟩,
    fun r h8 h64 => ?_, fun r v h64 hn => ?_⟩
  · rw [hostStep_readReg_own hm h64, m.register_reserved h8, regReply]
  · exact hostStep_writeReg_other hn v (by omega) (by omega) (by omega)

/-- Settles O39: the seven registers by evaluation, PHASE and the reserved numbers by the lemmas for them. -/
theorem sharedRegisterMap : Obligations.SharedRegisterMap := by
  unfold Obligations.SharedRegisterMap
  intro s k
  have reads : ∀ (r : Nat) (v : Int), 64 ≤ r → s.sharedRegister r = some v →
      hostStep (.readReg k r) s = .next (s.answer (.value v)) := fun r v hr hv => by
    rw [hostStep_readReg_shared s k hr, hv, regReply]
  refine ⟨⟨reads 64 _ (by decide) rfl, reads 65 _ (by decide) rfl, reads 66 _ (by decide) rfl,
    reads 67 _ (by decide) rfl, reads 68 _ (by decide) rfl, reads 69 _ (by decide) rfl, reads 70 _ (by decide) rfl,
    fun j v hj => reads (128 + j) v (by omega) ((s.sharedRegister_phase j).trans hj)⟩, fun r h71 hr => ?_⟩
  rw [hostStep_readReg_shared s k (by omega), s.sharedRegister_reserved h71 hr, regReply]

/-- Settles O40, by the lemma for each writable register and the one for all other numbers. -/
theorem writeRegFollowsItsRule : Obligations.WriteRegFollowsItsRule := by
  unfold Obligations.WriteRegFollowsItsRule
  intro s v
  refine ⟨fun hr r _ => State.unlessRing_running hr _, fun hn hv => ?_, fun hn hv => ?_, fun hn hv => ?_,
    fun hn j hj hv => ?_, fun hn r hv hN => ?_, fun hn r hN hS hP => hostStep_writeReg_other hn v hN hS hP⟩
  · rw [hostStep_writeReg_ringN hn, if_pos hv]
  · rw [hostStep_writeReg_ringN hn, if_neg hv]
  · rw [hostStep_writeReg_seed hn, if_pos hv]
  · rw [hostStep_writeReg_phase hn hj, if_pos hv]
  · by_cases hS : r = 68
    · rw [hS, hostStep_writeReg_seed hn, if_neg hv]
    by_cases hP : 128 ≤ r ∧ r < 128 + s.cfg.nMax
    · obtain ⟨j, rfl⟩ := Nat.exists_eq_add_of_le hP.1
      rw [hostStep_writeReg_phase hn (by omega), if_neg hv]
    · exact hostStep_writeReg_other hn v hN hS hP

/-! ### Reset (10_state.md R48) -/

/-- Settles O49: every `Instance` is as `atReset` has it, and the shared fields as `resetOf` has them. -/
theorem resetLeavesTheStatedValues : Obligations.ResetLeavesTheStatedValues := by
  unfold Obligations.ResetLeavesTheStatedValues
  intro s
  refine ⟨rfl, by simp, fun k m hm => ?_, rfl, rfl, rfl, rfl, rfl, rfl, rfl, by simp,
    fun v hv => List.eq_of_mem_replicate hv, rfl⟩
  rw [State.resetInput_get hm]
  exact ⟨rfl, rfl, rfl, rfl, rfl, rfl, rfl, rfl, rfl, rfl⟩

end Sys2Proof.Machine
end

section
/-! SUPPORT. Who writes the memory and the length of an `Instance` (20_memory.md R83, 10_state.md R31). -/

namespace Sys2Proof.Machine

@[simp] theorem Instance.resume_fst_mem (m : Instance) : m.resume.1.mem = m.mem := by
  rcases m.resume_fst with e | ⟨-, -, e⟩ <;> rw [e]

@[simp] theorem Instance.resume_fst_len (m : Instance) : m.resume.1.len = m.len := by
  rcases m.resume_fst with e | ⟨-, -, e⟩ <;> rw [e]

/-- No instruction writes `L`, not even one that stores a word. -/
theorem InstrEffect.len_eq {c : Config} {m m' : Instance} {i : Instr} (he : InstrEffect c m i m') :
    m'.len = m.len := by
  cases he with
  | faulted | stored | suspended | took | gave | jumped | passed | halted => rfl

theorem EngineEffect.len_eq {c : Config} {m m' : Instance} (he : EngineEffect c m m') : m'.len = m.len := by
  cases he with
  | stopped => rfl
  | executed i rest m' hd he => exact he.len_eq

/-- A step that is neither a renewal nor its engine's moves queues and flags, and no word of memory. -/
theorem InstanceEffect.mem_cases {s s' : State} {k : Nat} {m m' : Instance} (he : InstanceEffect s s' k m m') :
    m'.mem = m.mem ∨ ∃ e t, s.nextEvent = some (e, t) ∧ (e = .engine k ∨ s.Renews e k) := by
  cases he with
  | kept | pushed | popped | collected => exact .inl rfl
  | resumed | issued => exact .inl (by simp)
  | renewed e t m' hn hr => exact .inr ⟨e, t, hn, .inr hr⟩
  | executed t m' hn ha he => exact .inr ⟨_, t, hn, .inl rfl⟩

/-- A step that is no renewal keeps `L`; the engine's own step does too. -/
theorem InstanceEffect.len_cases {s s' : State} {k : Nat} {m m' : Instance} (he : InstanceEffect s s' k m m') :
    m'.len = m.len ∨ ∃ e t, s.nextEvent = some (e, t) ∧ s.Renews e k := by
  cases he with
  | kept | pushed | popped | collected => exact .inl rfl
  | resumed | issued => exact .inl (by simp)
  | renewed e t m' hn hr => exact .inr ⟨e, t, hn, hr⟩
  | executed t m' hn ha he => exact .inl he.len_eq

/-- Settles O30: of the ways a step changes an `Instance`, its engine's and a renewal write memory, and a renewal alone
writes `L`. -/
theorem onlyItsEngineWritesAnInstancesMemory : Obligations.OnlyItsEngineWritesAnInstancesMemory := by
  unfold Obligations.OnlyItsEngineWritesAnInstancesMemory
  intro s s' k m m' h hm hm'
  have he : InstanceEffect s s' k m m' := instanceEffect h hm hm'
  exact ⟨he.mem_cases.resolve_left, he.len_cases.resolve_left⟩

end Sys2Proof.Machine
end

section
/-! SUPPORT. The two round trips of 30_encoding.md R109 and R117, the legal words of R110, and the verdicts of R112 and
R113. -/

namespace Sys2Proof

/-! ### Decoding the encoder's words (30_encoding.md R109, R117) -/

theorem decode3_instrWord (mk : Operand → Operand → Dest → Instr) (op : Opcode) (m1 m2 m3 : Mode)
    (p1 p2 p3 : Int) (rest : List Int) :
    decode3 mk (instrWord op m1 m2 m3) (p1 :: p2 :: p3 :: rest) = .ok (mk ⟨m1, p1⟩ ⟨m2, p2⟩ ⟨m3, p3⟩, rest) :=
  decode3_ok.2 ⟨m1, m2, m3, p1, p2, p3, by simp⟩

theorem decode2_instrWord (mk : Operand → Operand → Instr) (op : Opcode) (m1 m2 : Mode) (p1 p2 : Int)
    (rest : List Int) :
    decode2 mk (instrWord op m1 m2 .position) (p1 :: p2 :: rest) = .ok (mk ⟨m1, p1⟩ ⟨m2, p2⟩, rest) :=
  decode2_ok.2 ⟨m1, m2, p1, p2, by simp⟩

theorem decode1_instrWord (mk : Mode → Int → Instr) (op : Opcode) (m1 : Mode) (p1 : Int) (rest : List Int) :
    decode1 mk (instrWord op m1 .position .position) (p1 :: rest) = .ok (mk m1 p1, rest) :=
  decode1_ok.2 ⟨m1, p1, by simp⟩

theorem decode0_instrWord (i : Instr) (op : Opcode) (rest : List Int) :
    decode0 i (instrWord op .position .position .position) rest = .ok (i, rest) :=
  decode0_ok.2 (by simp)

/-- Settles O1: the word that the encoder makes has the instruction's opcode, and its format reads the modes back. -/
theorem decodeOfEncodeIsTheInstruction : Obligations.DecodeOfEncodeIsTheInstruction := by
  unfold Obligations.DecodeOfEncodeIsTheInstruction
  intro i rest
  cases i with
  | add a b d | mult a b d | lessThan a b d | equals a b d => simp [encode, decode, decode3_instrWord]
  | jumpIfTrue c t | jumpIfFalse c t => simp [encode, decode, decode2_instrWord]
  | input d | output d => simp [encode, decode, decode1_instrWord]
  | halt => simp [encode, decode, decode0_instrWord]

/-! ### Encoding what decodes (30_encoding.md R109, R117) -/

section
variable {op : Opcode} {w : Int} {ps rest : List Int} {i : Instr}

theorem nonneg_of_opcodeOf (hop : opcodeOf w = some op) : 0 ≤ w :=
  (pos_of_tmod_pos (opcodeOf_eq_some.1 hop ▸ op.code_pos)).le

theorem encode_of_decode3 {mk : Operand → Operand → Dest → Instr}
    (hmk : ∀ a b d, encode (mk a b d) = [instrWord op a.mode b.mode d.digit, a.word, b.word, d.addr])
    (hop : opcodeOf w = some op) (h : decode3 mk w ps = .ok (i, rest)) : encode i ++ rest = w :: ps := by
  obtain ⟨m1, m2, m3, p1, p2, p3, h1, h2, h3, hc, rfl, rfl⟩ := decode3_ok.1 h
  rw [hmk, word_of_digits hop h1 h2 h3 hc]
  rfl

theorem encode_of_decode2 {mk : Operand → Operand → Instr}
    (hmk : ∀ a b, encode (mk a b) = [instrWord op a.mode b.mode .position, a.word, b.word])
    (hop : opcodeOf w = some op) (h : decode2 mk w ps = .ok (i, rest)) : encode i ++ rest = w :: ps := by
  obtain ⟨m1, m2, p1, p2, h1, h2, hc, rfl, rfl⟩ := decode2_ok.1 h
  have hw := nonneg_of_opcodeOf hop
  rw [hmk, word_of_digits hop h1 h2 (modeDigit_above hw hc (by decide)) (clearAbove_mono hw hc (by decide))]
  rfl

theorem encode_of_decode1 {mk : Mode → Int → Instr}
    (hmk : ∀ m p, encode (mk m p) = [instrWord op m .position .position, p])
    (hop : opcodeOf w = some op) (h : decode1 mk w ps = .ok (i, rest)) : encode i ++ rest = w :: ps := by
  obtain ⟨m1, p1, h1, hc, rfl, rfl⟩ := decode1_ok.1 h
  have hw := nonneg_of_opcodeOf hop
  rw [hmk, word_of_digits hop h1 (modeDigit_above hw hc (by decide)) (modeDigit_above hw hc (by decide))
    (clearAbove_mono hw hc (by decide))]
  rfl

theorem encode_of_decode0 {j : Instr} (hj : encode j = [instrWord op .position .position .position])
    (hop : opcodeOf w = some op) (h : decode0 j w ps = .ok (i, rest)) : encode i ++ rest = w :: ps := by
  obtain ⟨hc, rfl, rfl⟩ := decode0_ok.1 h
  have hw := nonneg_of_opcodeOf hop
  rw [hj, word_of_digits hop (modeDigit_above hw hc (by decide)) (modeDigit_above hw hc (by decide))
    (modeDigit_above hw hc (by decide)) (clearAbove_mono hw hc (by decide))]
  rfl

end

/-- Settles O2: each format checks every digit of the word, so the word is the encoder's for the digits it read. -/
theorem encodeOfDecodeIsTheWords : Obligations.EncodeOfDecodeIsTheWords := by
  unfold Obligations.EncodeOfDecodeIsTheWords
  intro ws i rest h
  cases ws with
  | nil => simp [decode] at h
  | cons w ps =>
    cases hop : opcodeOf w with
    | none => simp [decode, hop] at h
    | some op =>
      simp only [decode, hop] at h
      cases op with
      | add | mult | lessThan | equals => exact encode_of_decode3 (fun _ _ _ => rfl) hop h
      | jumpIfTrue | jumpIfFalse => exact encode_of_decode2 (fun _ _ => rfl) hop h
      | input | output => exact encode_of_decode1 (fun _ _ => rfl) hop h
      | halt => exact encode_of_decode0 rfl hop h

/-! ### The legal words (30_encoding.md R110) -/

/-- The modes that the digit of operand `k` may stand for: an operand that the opcode lacks has digit 0. -/
def Opcode.modes (op : Opcode) (k : Nat) : List Mode :=
  if k ≤ op.operands then [.position, .immediate] else [.position]

/-- The table of 30_encoding.md R110 row by row: one word for each choice of modes. -/
theorem legalWords_eq (op : Opcode) :
    legalWords op = (op.modes 3).flatMap fun m3 => (op.modes 2).flatMap fun m2 =>
      (op.modes 1).map fun m1 => instrWord op m1 m2 m3 := by
  cases op <;> rfl

theorem Opcode.mem_modes {op : Opcode} {k : Nat} {m : Mode} : m ∈ op.modes k ↔ (op.operands < k → m = .position) := by
  unfold Opcode.modes
  split <;> rename_i hk
  · cases m <;> simp [Nat.not_lt.2 hk]
  · simp [Nat.not_le.1 hk]

theorem mem_legalWords {op : Opcode} {w : Int} :
    w ∈ legalWords op ↔ ∃ m1 m2 m3, (op.operands < 1 → m1 = .position) ∧ (op.operands < 2 → m2 = .position) ∧
      (op.operands < 3 → m3 = .position) ∧ w = instrWord op m1 m2 m3 := by
  simp only [legalWords_eq, List.mem_flatMap, List.mem_map, Opcode.mem_modes]
  constructor
  · rintro ⟨m3, h3, m2, h2, m1, h1, rfl⟩
    exact ⟨m1, m2, m3, h1, h2, h3, rfl⟩
  · rintro ⟨m1, m2, m3, h1, h2, h3, rfl⟩
    exact ⟨m3, h3, m2, h2, m1, h1, rfl⟩

theorem opcodeOf_of_mem_legalWords {op : Opcode} {w : Int} (h : w ∈ legalWords op) : opcodeOf w = some op := by
  obtain ⟨m1, m2, m3, -, -, -, rfl⟩ := mem_legalWords.1 h
  exact opcodeOf_instrWord op m1 m2 m3

/-- The first word of an instruction is a legal word of its opcode. -/
theorem head_mem_legalWords {i : Instr} {w : Int} (h : (encode i).head? = some w) : w ∈ legalWords i.opcode := by
  rw [mem_legalWords]
  cases i with
  | add a b d | mult a b d | lessThan a b d | equals a b d =>
    exact ⟨a.mode, b.mode, d.digit, by simpa [Instr.opcode, Opcode.operands, encode, eq_comm] using h⟩
  | jumpIfTrue c t | jumpIfFalse c t =>
    exact ⟨c.mode, t.mode, .position, by simpa [Instr.opcode, Opcode.operands, encode, eq_comm] using h⟩
  | input d => exact ⟨d.digit, .position, .position, by simpa [Instr.opcode, Opcode.operands, encode, eq_comm] using h⟩
  | output a => exact ⟨a.mode, .position, .position, by simpa [Instr.opcode, Opcode.operands, encode, eq_comm] using h⟩
  | halt => exact ⟨.position, .position, .position, by simpa [Instr.opcode, encode, eq_comm] using h⟩

/-- Every legal word, with three words after it, is the beginning of an instruction with its opcode. -/
theorem exists_encode_of_mem_legalWords {op : Opcode} {w : Int} (h : w ∈ legalWords op) (p1 p2 p3 : Int) :
    ∃ i rest, i.opcode = op ∧ encode i ++ rest = [w, p1, p2, p3] := by
  obtain ⟨m1, m2, m3, h1, h2, h3, rfl⟩ := mem_legalWords.1 h
  cases op with
  | add => exact ⟨.add ⟨m1, p1⟩ ⟨m2, p2⟩ ⟨m3, p3⟩, [], rfl, rfl⟩
  | mult => exact ⟨.mult ⟨m1, p1⟩ ⟨m2, p2⟩ ⟨m3, p3⟩, [], rfl, rfl⟩
  | lessThan => exact ⟨.lessThan ⟨m1, p1⟩ ⟨m2, p2⟩ ⟨m3, p3⟩, [], rfl, rfl⟩
  | equals => exact ⟨.equals ⟨m1, p1⟩ ⟨m2, p2⟩ ⟨m3, p3⟩, [], rfl, rfl⟩
  | jumpIfTrue => exact ⟨.jumpIfTrue ⟨m1, p1⟩ ⟨m2, p2⟩, [p3], rfl, by rw [h3 (by decide)]; rfl⟩
  | jumpIfFalse => exact ⟨.jumpIfFalse ⟨m1, p1⟩ ⟨m2, p2⟩, [p3], rfl, by rw [h3 (by decide)]; rfl⟩
  | input => exact ⟨.input ⟨m1, p1⟩, [p2, p3], rfl, by rw [h2 (by decide), h3 (by decide)]; rfl⟩
  | output => exact ⟨.output ⟨m1, p1⟩, [p2, p3], rfl, by rw [h2 (by decide), h3 (by decide)]; rfl⟩
  | halt => exact ⟨.halt, [p1, p2, p3], rfl, by rw [h1 (by decide), h2 (by decide), h3 (by decide)]; rfl⟩

theorem encode_ne_nil (i : Instr) : encode i ≠ [] := by cases i <;> exact List.cons_ne_nil _ _

theorem mem_legalWords_of_decode {w : Int} {ps rest : List Int} {i : Instr} (h : decode (w :: ps) = .ok (i, rest)) :
    w ∈ legalWords i.opcode := by
  have he : encode i ++ rest = w :: ps := encodeOfDecodeIsTheWords _ _ _ h
  apply head_mem_legalWords
  rw [← List.head?_append_of_ne_nil _ (encode_ne_nil i), he, List.head?_cons]

/-- A word that is no legal word is refused with a verdict on it, whatever follows. -/
theorem decode_of_not_legal {w : Int} (ps : List Int) (h : ∀ op, w ∉ legalWords op) :
    (decode (w :: ps) = .error (.illegalOpcode w) ∧ opcodeOf w = none) ∨
      decode (w :: ps) = .error (.illegalMode w) := by
  cases hd : decode (w :: ps) with
  | ok r => exact absurd (mem_legalWords_of_decode hd) (h _)
  | error e =>
    obtain ⟨hnil, -⟩ | ⟨w', ps', hws, he⟩ := decode_error hd
    · cases hnil
    · cases hws
      obtain ⟨rfl, hop⟩ | rfl | ⟨-, i, hi, -⟩ := he
      · exact .inl ⟨rfl, hop⟩
      · exact .inr rfl
      · exact absurd (head_mem_legalWords hi) (h _)

/-- Settles O3: a legal word is the head of an instruction's encoding, and what decodes is an encoding. -/
theorem legalWordsAreExactlyTheFortyFive : Obligations.LegalWordsAreExactlyTheFortyFive := by
  unfold Obligations.LegalWordsAreExactlyTheFortyFive
  refine ⟨fun op w ps hlen => ⟨?_, fun hw => ?_⟩, fun w ws h => (decode_of_not_legal ws h).imp_left And.left⟩
  · rintro ⟨i, rest, hd, rfl⟩
    exact mem_legalWords_of_decode hd
  · obtain ⟨p1, p2, p3, rfl⟩ := List.length_eq_three.1 hlen
    obtain ⟨i, rest, hi, he⟩ := exists_encode_of_mem_legalWords hw p1 p2 p3
    exact ⟨i, rest, he ▸ decodeOfEncodeIsTheInstruction i rest, hi⟩

/-! ### The two verdicts on an instruction word (30_encoding.md R112, R113) -/

theorem decode_illegalOpcode {w : Int} (h : opcodeOf w = none) (ps : List Int) :
    decode (w :: ps) = .error (.illegalOpcode w) := by
  simp only [decode, h]

theorem Opcode.code_cases (op : Opcode) : (1 ≤ op.code ∧ op.code ≤ 8) ∨ op.code = 99 := by cases op <;> decide

/-- Settles O4: an opcode's code is in 1..8 or 99, and positive, which the remainder of a negative word is not. -/
theorem negativeAndUnknownOpcodesAreIllegal : Obligations.NegativeAndUnknownOpcodesAreIllegal := by
  unfold Obligations.NegativeAndUnknownOpcodesAreIllegal
  intro w ws h
  refine decode_illegalOpcode (opcodeOf_eq_none.2 fun op hop => ?_) ws
  have hcode := op.code_cases
  have hpos : 0 < w := pos_of_tmod_pos (hop ▸ op.code_pos)
  omega

theorem decode_illegalMode {op : Opcode} {w : Int} (hop : opcodeOf w = some op) (h : w ∉ legalWords op)
    (ps : List Int) : decode (w :: ps) = .error (.illegalMode w) := by
  have hnot : ∀ op', w ∉ legalWords op' := fun op' h' => by
    obtain rfl : op = op' := Option.some.inj (hop.symm.trans (opcodeOf_of_mem_legalWords h'))
    exact h h'
  obtain ⟨-, hnone⟩ | hd := decode_of_not_legal ps hnot
  · simp [hop] at hnone
  · exact hd

/-- The digit of each operand of a legal word is 0 or 1. -/
theorem digit_of_mem_legalWords {op : Opcode} {w : Int} (h : w ∈ legalWords op) {k : Nat} (h1 : 1 ≤ k)
    (hk : k ≤ op.operands) : digit (k + 1) w ≤ 1 := by
  obtain ⟨m1, m2, m3, -, -, -, rfl⟩ := mem_legalWords.1 h
  have hmode : ∃ m, modeDigit k (instrWord op m1 m2 m3) = some m := by
    have hn : op.operands ≤ 3 := by cases op <;> decide
    obtain rfl | rfl | rfl : k = 1 ∨ k = 2 ∨ k = 3 := by omega
    · exact ⟨m1, modeDigit_one_instrWord op m1 m2 m3⟩
    · exact ⟨m2, modeDigit_two_instrWord op m1 m2 m3⟩
    · exact ⟨m3, modeDigit_three_instrWord op m1 m2 m3⟩
  obtain ⟨m, hm⟩ := hmode
  rw [modeOf_eq_some.1 hm]
  exact m.toDigit_bounds.2

theorem clearAbove_of_mem_legalWords {op : Opcode} {w : Int} (h : w ∈ legalWords op) :
    clearAbove op.operands w = true := by
  obtain ⟨m1, m2, m3, h1, h2, h3, rfl⟩ := mem_legalWords.1 h
  cases op with
  | add | mult | lessThan | equals => exact clearAbove_three_instrWord _ m1 m2 m3
  | jumpIfTrue | jumpIfFalse =>
    rw [h3 (by decide)]
    exact clearAbove_two_instrWord _ m1 m2
  | input | output =>
    rw [h2 (by decide), h3 (by decide)]
    exact clearAbove_one_instrWord _ m1
  | halt =>
    rw [h1 (by decide), h2 (by decide), h3 (by decide)]
    exact clearAbove_zero_instrWord _

/-- No digit above the last operand of a legal word is set. -/
theorem digit_above_of_mem_legalWords {op : Opcode} {w : Int} (h : w ∈ legalWords op) {k : Nat}
    (hk : op.operands + 2 ≤ k) : digit k w = 0 := by
  obtain ⟨j, rfl⟩ := Nat.exists_eq_add_of_le' (show 1 ≤ k by omega)
  have hw := nonneg_of_opcodeOf (opcodeOf_of_mem_legalWords h)
  exact modeOf_eq_some.1 (modeDigit_above hw (clearAbove_of_mem_legalWords h) (by omega))

/-- Settles O5: a legal word has none of these digits, and a word with an opcode that is no legal word is
ILLEGAL_MODE. -/
theorem badDigitsAreIllegalModes : Obligations.BadDigitsAreIllegalModes := by
  unfold Obligations.BadDigitsAreIllegalModes
  constructor
  · intro op w ws hop hbad
    refine decode_illegalMode (opcodeOf_eq_some.2 hop.symm) (fun hw => ?_) ws
    rcases hbad with ⟨k, h1, hk, h2, -⟩ | ⟨k, hk, hne⟩
    · have := digit_of_mem_legalWords hw h1 hk
      omega
    · exact hne (digit_above_of_mem_legalWords hw hk)
  · intro ws w hw
    simp only [List.mem_cons, List.not_mem_nil, or_false] at hw
    obtain rfl | rfl | rfl | rfl := hw
    · exact decode_illegalMode (op := .halt) rfl (by decide) ws
    · exact decode_illegalMode (op := .output) rfl (by decide) ws
    · exact decode_illegalMode (op := .add) rfl (by decide) ws
    · exact decode_illegalMode (op := .add) rfl (by decide) ws

/-- Settles O6, by evaluating the decoder. -/
theorem sampleWordsDecode : Obligations.SampleWordsDecode :=
  ⟨rfl, rfl, rfl, rfl, rfl, rfl, rfl, rfl, rfl, rfl, rfl, rfl⟩

namespace Machine

/-! ### Operands (30_encoding.md R106, R107) -/

/-- Settles O7, by the two modes and the bound check. -/
theorem valueOperandResolution : Obligations.ValueOperandResolution := by
  unfold Obligations.ValueOperandResolution
  intro m p
  refine ⟨m.value_immediate p, fun hp => ?_, fun hp => ?_⟩
  · rw [m.value_position, if_pos ((m.inBounds_iff p).2 hp)]
    rfl
  · rw [m.value_position, if_neg (hp ∘ (m.inBounds_iff p).1)]

theorem Instance.store_digit (m : Instance) (d e : Mode) (p v : Int) : m.store ⟨d, p⟩ v = m.store ⟨e, p⟩ v := rfl

theorem Instance.binary_digit (m : Instance) (a b : Operand) (f : Int → Int → Except Trap Int) (d e : Mode) (p : Int) :
    m.binary a b f ⟨d, p⟩ = m.binary a b f ⟨e, p⟩ := by
  simp only [Instance.binary, m.store_digit d e]

theorem Instance.takeInput_digit (m : Instance) (d e : Mode) (p : Int) : m.takeInput ⟨d, p⟩ = m.takeInput ⟨e, p⟩ := by
  simp only [Instance.takeInput, m.store_digit d e]

theorem exec_congr {i j : Instr} (h : ∀ c m, effect i c m = effect j c m) (s : State) : exec i s = exec j s := by
  rw [exec_eq, exec_eq, funext₂ h]

/-- Settles O8: the store looks at the address alone, and the effects reach their destination by the store alone. -/
theorem destinationDigitIsIgnored : Obligations.DestinationDigitIsIgnored := by
  unfold Obligations.DestinationDigitIsIgnored
  intro s a b p d e
  refine ⟨exec_congr ?_ s, exec_congr ?_ s, exec_congr ?_ s, exec_congr ?_ s, exec_congr ?_ s⟩
  · exact fun c m => m.binary_digit a b (sum c) d e p
  · exact fun c m => m.binary_digit a b (product c) d e p
  · exact fun _ m => m.takeInput_digit d e p
  · exact fun _ m => m.binary_digit a b isLess d e p
  · exact fun _ m => m.binary_digit a b isEqual d e p

end Machine

end Sys2Proof
end

section
/-! SUPPORT. What each instruction leaves unchanged (40_execution_cycle.md R149, R152). -/

namespace Sys2Proof.Machine

/-! ### The shapes of a frame -/

theorem State.setInst_onlyInst {s : State} {k : Nat} {m : Instance} (h : s.insts[k]? = some m) (m' : Instance) :
    s.OnlyInst (s.setInst k m') k m m' where
  shared := rfl
  others := fun _ hj => State.setInst_other hj m'
  before := h
  after := State.setInst_same h m'

/-- An instruction that goes on changes the current `Instance` alone, as its effect says. -/
theorem exec_onlyInst {i : Instr} {s s' : State} (h : exec i s = .next s') :
    ∃ m, s.OnlyInst s' s.cur m (m.conclude (effect i s.cfg m)) := by
  obtain ⟨m, hm, rfl⟩ := exec_next h
  exact ⟨m, State.setInst_onlyInst hm _⟩

theorem Instance.raise_faultedAs (m : Instance) (t : Trap) : m.FaultedAs (m.raise t) t.cause t.info := rfl

/-- A store in bounds changes the word at its address alone. -/
theorem Instance.setWord_frame {m : Instance} {a : Int} (h : m.inBounds a = true) (v : Int) :
    0 ≤ a ∧ a < m.len ∧ ∀ x : Nat, (x : Int) ≠ a → (m.setWord a v).mem.read x = m.mem.read x := by
  obtain ⟨h0, hlt⟩ := (m.inBounds_iff a).1 h
  exact ⟨h0, hlt, fun x hx => Memory.read_write_other _ v (by omega)⟩

/-! ### ADD, MULT, LESS_THAN and EQUALS -/

theorem Instance.binary_frame (m : Instance) (a b : Operand) (d : Dest) {f : Int → Int → Except Trap Int}
    (hf : ∀ x y t, f x y = .error t → t.cause = .overflow) {m' : Instance}
    (h : m.conclude (m.binary a b f d) = m') :
    (∃ cause info, m.FaultedAs m' cause info ∧ (cause = .readOob ∨ cause = .overflow ∨ cause = .writeOob)) ∨
      (m' = { m with mem := m'.mem, ip := m.ip + 4 } ∧ 0 ≤ d.addr ∧ d.addr < m.len ∧
        ∀ x : Nat, (x : Int) ≠ d.addr → m'.mem.read x = m.mem.read x) := by
  subst h
  rcases m.binary_cases a b f d with ⟨t, h, e⟩ | ⟨x, t, -, h, e⟩ | ⟨x, y, t, -, -, h, e⟩ | ⟨x, y, r, -, -, -, -, e⟩ |
    ⟨x, y, r, -, -, -, hd, e⟩ <;> rw [e]
  · exact .inl ⟨_, _, m.raise_faultedAs t, .inl (by rw [Instance.value_error h])⟩
  · exact .inl ⟨_, _, m.raise_faultedAs t, .inl (by rw [Instance.value_error h])⟩
  · exact .inl ⟨_, _, m.raise_faultedAs t, .inr (.inl (hf x y t h))⟩
  · exact .inl ⟨_, _, m.raise_faultedAs _, .inr (.inr rfl)⟩
  · exact .inr ⟨rfl, Instance.setWord_frame hd r⟩

/-- The four instructions have the three-operand shape, and their results fail by OVERFLOW alone. -/
theorem effect_eq_binary {a b : Operand} {d : Dest} {i : Instr}
    (hi : i = .add a b d ∨ i = .mult a b d ∨ i = .lessThan a b d ∨ i = .equals a b d) (c : Config) (m : Instance) :
    ∃ f, (∀ x y t, f x y = .error t → t.cause = .overflow) ∧ effect i c m = m.binary a b f d := by
  have hchecked : ∀ r t, checked c r = .error t → t.cause = .overflow := fun r t h => by rw [checked_error h]
  rcases hi with rfl | rfl | rfl | rfl
  · exact ⟨sum c, fun x y => hchecked (x + y), rfl⟩
  · exact ⟨product c, fun x y => hchecked (x * y), rfl⟩
  · exact ⟨isLess, fun _ _ _ h => (by cases h), rfl⟩
  · exact ⟨isEqual, fun _ _ _ h => (by cases h), rfl⟩

/-- Settles O19, by the frame of the shape that the four instructions share. -/
theorem frameOfThreeOperandInstructions : Obligations.FrameOfThreeOperandInstructions := by
  unfold Obligations.FrameOfThreeOperandInstructions
  intro s s' a b d i hi h
  obtain ⟨m, hm⟩ := exec_onlyInst h
  obtain ⟨f, hf, he⟩ := effect_eq_binary hi s.cfg m
  rw [he] at hm
  exact ⟨m, _, hm, m.binary_frame a b d hf rfl⟩

/-! ### INPUT -/

/-- Settles O20: INPUT suspends, faults at its destination, or takes the head of the queue and stores it. -/
theorem frameOfInput : Obligations.FrameOfInput := by
  unfold Obligations.FrameOfInput
  intro s s' d h
  obtain ⟨m, hm⟩ := exec_onlyInst h
  refine ⟨m, _, hm, ?_⟩
  rcases m.takeInput_cases d with ⟨hq, e⟩ | ⟨v, rest, -, -, e⟩ | ⟨v, rest, -, hd, e⟩ <;> simp only [effect, e]
  · exact .inl ⟨hq, rfl⟩
  · exact .inr (.inl (m.raise_faultedAs _))
  · exact .inr (.inr ⟨rfl, Instance.setWord_frame hd v⟩)

/-! ### OUTPUT, the jumps and HALT -/

theorem Instance.giveOutput_frame (m : Instance) (c : Config) (a : Operand) {m' : Instance}
    (h : m.conclude (m.giveOutput c a) = m') :
    (∃ cause info, m.FaultedAs m' cause info ∧ (cause = .readOob ∨ cause = .outputFull)) ∨
      ∃ x, m' = { m with oq := m.oq ++ [x], ip := m.ip + 2 } := by
  subst h
  rcases m.giveOutput_cases c a with ⟨t, h, e⟩ | ⟨x, -, -, e⟩ | ⟨x, -, -, e⟩ <;> rw [e]
  · exact .inl ⟨_, _, m.raise_faultedAs t, .inl (by rw [Instance.value_error h])⟩
  · exact .inl ⟨_, _, m.raise_faultedAs _, .inr rfl⟩
  · exact .inr ⟨x, rfl⟩

theorem Instance.branch_frame (m : Instance) (a b : Operand) (taken : Int → Bool) {m' : Instance}
    (h : m.conclude (m.branch a b taken) = m') :
    (∃ info, m.FaultedAs m' .readOob info) ∨ m' = { m with ip := m'.ip } := by
  subst h
  have hfault : ∀ {o t}, m.value o = .error t → m.FaultedAs (m.raise t) .readOob o.word := fun h => by
    rw [Instance.value_error h]
    exact m.raise_faultedAs _
  rcases m.branch_cases a b taken with ⟨t, h, e⟩ | ⟨c, t, -, h, e⟩ | ⟨c, t, -, -, e⟩ <;> rw [e]
  · exact .inl ⟨_, hfault h⟩
  · exact .inl ⟨_, hfault h⟩
  · right
    rw [Instance.conclude_ok]
    split <;> rfl

/-- Settles O21, by the frame of each effect. -/
theorem frameOfInstructionsThatStoreNothing : Obligations.FrameOfInstructionsThatStoreNothing := by
  unfold Obligations.FrameOfInstructionsThatStoreNothing
  intro s s' a b
  refine ⟨fun h => ?_, fun h => ?_, fun h => ?_⟩
  · obtain ⟨m, hm⟩ := exec_onlyInst h
    exact ⟨m, _, hm, m.giveOutput_frame s.cfg a rfl⟩
  · rcases h with h | h
    · obtain ⟨m, hm⟩ := exec_onlyInst h
      exact ⟨m, _, hm, m.branch_frame a b _ rfl⟩
    · obtain ⟨m, hm⟩ := exec_onlyInst h
      exact ⟨m, _, hm, m.branch_frame a b _ rfl⟩
  · obtain ⟨m, hm⟩ := exec_onlyInst h
    exact ⟨m, _, hm, rfl⟩

end Sys2Proof.Machine
end

section
/-! SUPPORT. The fetch and the step of an engine: the words decoded, the faults in order, and the instruction that
the step runs (40_execution_cycle.md R143 to R150). -/

namespace Sys2Proof

/-! ### A legal word that lacks operand words (40_execution_cycle.md R148) -/

section
variable {op : Opcode} {m1 m2 m3 : Mode} {ps : List Int}

theorem decode3_short (mk : Operand → Operand → Dest → Instr) (h : ps.length < 3) :
    decode3 mk (instrWord op m1 m2 m3) ps = .error (.truncated (ps.length + 1)) := by
  rcases ps with _ | ⟨p1, _ | ⟨p2, _ | ⟨p3, ps⟩⟩⟩
  case cons.cons.cons =>
    simp only [List.length_cons] at h
    omega
  all_goals simp [decode3]

theorem decode2_short (mk : Operand → Operand → Instr) (h : ps.length < 2) :
    decode2 mk (instrWord op m1 m2 .position) ps = .error (.truncated (ps.length + 1)) := by
  rcases ps with _ | ⟨p1, _ | ⟨p2, ps⟩⟩
  case cons.cons =>
    simp only [List.length_cons] at h
    omega
  all_goals simp [decode2]

theorem decode1_short (mk : Mode → Int → Instr) (h : ps.length < 1) :
    decode1 mk (instrWord op m1 .position .position) ps = .error (.truncated (ps.length + 1)) := by
  obtain rfl : ps = [] := List.eq_nil_of_length_eq_zero (by omega)
  simp [decode1]

end

/-- A legal word that is followed by fewer words than it has operands is refused with the first missing one. -/
theorem decode_truncated {op : Opcode} {w : Int} (hw : w ∈ legalWords op) {ps : List Int}
    (h : ps.length < op.operands) : decode (w :: ps) = .error (.truncated (ps.length + 1)) := by
  obtain ⟨m1, m2, m3, h1, h2, h3, rfl⟩ := mem_legalWords.1 hw
  simp only [decode, opcodeOf_instrWord]
  cases op with
  | add | mult | lessThan | equals => exact decode3_short _ h
  | jumpIfTrue | jumpIfFalse =>
    rw [h3 (by decide)]
    exact decode2_short _ h
  | input | output =>
    rw [h2 (by decide), h3 (by decide)]
    exact decode1_short _ h
  | halt => exact absurd h (Nat.not_lt_zero _)

namespace Machine

/-! ### The window (40_execution_cycle.md R145, R148) -/

/-- Settles O23: the window is as long as the words in bounds, and its words are those of memory. -/
theorem windowIsTheWordsAtIp : Obligations.WindowIsTheWordsAtIp := by
  unfold Obligations.WindowIsTheWordsAtIp
  intro m k hk
  have hl := m.window_length
  refine ⟨fun h0 hlt => ?_, fun hout => List.getElem?_eq_none ?_⟩
  · have hin : k < m.window.length := by split at hl <;> omega
    rw [Instance.window_get hin, Instance.wordAt, show (m.ip + k).toNat = m.ip.toNat + k by omega]
  · split at hl <;> omega

theorem Instance.window_eq_nil {m : Instance} (h : ¬ (0 ≤ m.ip ∧ m.ip < m.len)) : m.window = [] := by
  have hl := m.window_length
  rw [if_neg h] at hl
  exact List.eq_nil_of_length_eq_zero (by omega)

/-- With `ip` in bounds, the window begins with the word at `ip`. -/
theorem Instance.window_eq_cons {m : Instance} (h : 0 ≤ m.ip ∧ m.ip < m.len) :
    ∃ ps, m.window = m.mem.read m.ip.toNat :: ps := by
  have h0 : m.window[0]? = some (m.mem.read m.ip.toNat) :=
    (windowIsTheWordsAtIp m 0 (by decide)).1 h.1 (by simpa using h.2)
  cases hw : m.window with
  | nil => simp [hw] at h0
  | cons w ps => exact ⟨ps, by simpa [hw] using h0⟩

/-! ### The step of an engine that is active -/

section
variable {s t : State} {k : Nat} {m : Instance} (hn : s.nextEvent = some (.engine k, t)) (hm : t.insts[k]? = some m)
  (ha : m.active = true)
include hn hm ha

theorem step_of_decode_error {e : DecodeError} (he : decode m.window = .error e) :
    step s = .next (State.setInst { t with cur := k } k (m.raise (m.fetchTrap e))) := by
  rw [step_of_nextEvent hn, State.fire, State.engineStep_active hm ha, Instance.fetch_error.2 ⟨e, he, rfl⟩,
    Instance.conclude_error]

theorem step_of_decode_ok {i : Instr} {rest : List Int} (hd : decode m.window = .ok (i, rest)) :
    step s = exec i { t with cur := k } := by
  rw [step_of_nextEvent hn, State.fire, State.engineStep_active hm ha, Instance.fetch_ok.2 ⟨rest, hd⟩]
  exact (exec_some (s := { t with cur := k }) hm).symm

end

/-- Settles O22. -/
theorem stepRunsTheDecodedInstruction : Obligations.StepRunsTheDecodedInstruction := by
  unfold Obligations.StepRunsTheDecodedInstruction
  intro s t k m i rest hn hm ha hd
  exact step_of_decode_ok hn hm ha hd

/-- Settles O24: the decoder checks the word at `ip` for its opcode, then its digits, then its operand words, and each
refusal is the fault of the fetch. -/
theorem fetchFaultsInOrder : Obligations.FetchFaultsInOrder := by
  unfold Obligations.FetchFaultsInOrder
  intro s t k m hn hm ha
  have stops {e : DecodeError} (he : decode m.window = .error e) := step_of_decode_error hn hm ha he
  refine ⟨fun hout => ?_, fun hin hop => ?_, fun hin op hop hw => ?_, fun hin op hw j h1 hj hend hlast => ?_⟩
  · exact stops (e := .empty) (by rw [Instance.window_eq_nil hout, decode])
  · obtain ⟨ps, hps⟩ := Instance.window_eq_cons hin
    exact stops (by rw [hps, decode_illegalOpcode (opcodeOf_eq_none.2 hop)])
  · obtain ⟨ps, hps⟩ := Instance.window_eq_cons hin
    exact stops (by rw [hps, decode_illegalMode (opcodeOf_eq_some.2 hop) hw])
  · obtain ⟨ps, hps⟩ := Instance.window_eq_cons hin
    have hops : op.operands ≤ 3 := by cases op <;> decide
    have hlen : ps.length + 1 = j := by
      have hl := m.window_length
      rw [if_pos hin, hps, List.length_cons] at hl
      omega
    exact stops (e := .truncated j) (by rw [hps, decode_truncated hw (by omega), hlen])

/-! ### Suspension (40_execution_cycle.md R160 to R163) -/

/-- Of all that an engine's step can do, only INPUT facing an empty queue leaves STATE SUSPENDED_ON_INPUT. -/
theorem InstrEffect.suspends {c : Config} {m m' : Instance} {i : Instr} (he : InstrEffect c m i m')
    (hr : m.state = .running) (hs : m'.state = .suspendedOnInput) :
    (∃ d, i = .input d) ∧ m.iq = [] ∧ m' = m.suspend := by
  cases he with
  | suspended d hq => exact ⟨⟨d, rfl⟩, hq, rfl⟩
  | faulted | halted => cases hs
  | stored | took | gave | jumped | passed =>
    have hsame : m.state = .suspendedOnInput := hs
    simp [hr] at hsame

/-- Settles O26: the step is the engine's, a faulting fetch does not suspend, and of the instructions INPUT alone
does. -/
theorem onlyAnInputFacingAnEmptyQueueSuspends : Obligations.OnlyAnInputFacingAnEmptyQueueSuspends := by
  unfold Obligations.OnlyAnInputFacingAnEmptyQueueSuspends
  intro s t s' k m m' hn hm ha hr hstep hm' hs
  obtain ⟨-, hinsts, -⟩ := State.nextEvent_fields hn
  rw [step_of_nextEvent hn] at hstep
  obtain ⟨m₀, hm₀, he⟩ := State.engineStep_effect (k := k) hstep
  obtain rfl := Option.some.inj (hm.symm.trans hm₀)
  rcases he with ⟨hidle, -⟩ | ⟨-, n, he, rfl⟩
  · simp [ha] at hidle
  obtain rfl : n = m' := Option.some.inj ((State.setInst_same (s := { t with cur := k }) hm n).symm.trans hm')
  cases he with
  | stopped => cases hs
  | executed i rest n hd he =>
    obtain ⟨⟨d, rfl⟩, hq, rfl⟩ := he.suspends hr hs
    exact ⟨⟨d, rest, hd⟩, hq, rfl, fun j hj => by rw [State.setInst_other hj, hinsts], rfl⟩

/-- What RESUME makes of an `Instance` that is suspended (40_execution_cycle.md R141). -/
def Instance.start (m : Instance) : Instance := { m with state := .running, active := true }

theorem Instance.resume_suspended {m : Instance} (hs : m.state = .suspendedOnInput) (ha : m.active = false) :
    m.resume = (m.start, .started) := by
  simp [Instance.resume, Instance.start, hs, ha]

/-- Suspending undoes what RESUME did. -/
theorem Instance.suspend_start {m : Instance} (hs : m.state = .suspendedOnInput) (ha : m.active = false) :
    m.start.suspend = m := by
  obtain ⟨mem, len, ip, iq, oq, halted, state, active, fc, fi, fo⟩ := m
  subst hs ha
  rfl

/-- RESUME outside ring mode acts on its `Instance` by its table (40_execution_cycle.md R141). -/
theorem hostStep_resume {s : State} {k : Nat} {m : Instance} (hr : s.rstate ≠ .running) (hm : s.insts[k]? = some m) :
    hostStep (.resume k) s = .next ((s.setInst k m.resume.1).answer m.resume.2) := by
  rw [hostStep, hostResume, State.unlessRing_not hr, State.onInst_some hm]

theorem step_of_resume {s : State} {k : Nat} {m : Instance} {later : List Event}
    (hp : s.pending = .host (.resume k) :: later) (hr : s.rstate ≠ .running) (hm : s.insts[k]? = some m) :
    step s = .next ((State.setInst { s with pending := later } k m.resume.1).answer m.resume.2) := by
  rw [step_of_nextEvent (State.nextEvent_pending hp)]
  exact hostStep_resume (s := { s with pending := later }) hr hm

theorem step_of_input_empty {s : State} {k : Nat} {m : Instance} {d : Dest} {rest : List Int} {later : List Event}
    (hp : s.pending = .engine k :: later) (hm : s.insts[k]? = some m) (ha : m.active = true) (hq : m.iq = [])
    (hd : decode m.window = .ok (.input d, rest)) :
    step s = .next (State.setInst { s with pending := later, cur := k } k m.suspend) := by
  rw [step_of_decode_ok (State.nextEvent_pending hp) hm ha hd, exec_some (m := m) hm, effect, Instance.takeInput, hq,
    Instance.conclude_ok]

/-- Settles O27: RESUME makes it RUNNING and ACTIVE, its window is the same, and INPUT suspends it again. -/
theorem retriedInputSuspendsAgainUnchanged : Obligations.RetriedInputSuspendsAgainUnchanged := by
  unfold Obligations.RetriedInputSuspendsAgainUnchanged
  intro s k m d rest later hr hm hs ha hq hd hp
  have hresume := step_of_resume hp hr hm
  rw [Instance.resume_suspended hs ha] at hresume
  have hstart := State.setInst_same (s := { s with pending := .engine k :: later }) hm m.start
  have hsuspend := step_of_input_empty (s := State.answer (State.setInst _ k m.start) .started) (m := m.start) rfl hstart
    rfl hq hd
  rw [Instance.suspend_start hs ha] at hsuspend
  have hsame : s.insts.set k m = s.insts := congrArg State.insts (State.setInst_self hm)
  exact ⟨_, _, hresume, rfl, hsuspend, by simp [State.setInst, State.answer, hsame]⟩

end Machine

end Sys2Proof
end

section
/-! SUPPORT. What the step of an engine depends on (40_execution_cycle.md R168). -/

namespace Sys2Proof.Machine

/-- The `Instance` with other values waiting in its output queue. -/
def Instance.withOq (m : Instance) (q : List Int) : Instance := { m with oq := q }

section
variable (m : Instance) (q : List Int)

@[simp] theorem Instance.withOq_active : (m.withOq q).active = m.active := rfl
@[simp] theorem Instance.withOq_fetch : (m.withOq q).fetch = m.fetch := rfl
@[simp] theorem Instance.withOq_value (o : Operand) : (m.withOq q).value o = m.value o := rfl
@[simp] theorem Instance.withOq_raise (t : Trap) : (m.withOq q).raise t = (m.raise t).withOq q := rfl
@[simp] theorem Instance.withOq_inBounds (a : Int) : (m.withOq q).inBounds a = m.inBounds a := rfl

theorem Instance.withOq_store (d : Dest) (v : Int) :
    (m.withOq q).store d v = (·.withOq q) <$> m.store d v := by
  rcases m.store_cases d v with ⟨hd, e⟩ | ⟨hd, e⟩ <;> rw [e]
  · exact Instance.store_in (m := m.withOq q) hd v
  · exact Instance.store_out (m := m.withOq q) hd v

theorem Instance.withOq_binary (a b : Operand) (f : Int → Int → Except Trap Int) (d : Dest) :
    (m.withOq q).binary a b f d = (·.withOq q) <$> m.binary a b f d := by
  have hadvance : ∀ n : Instance, (n.withOq q).advance 4 = (n.advance 4).withOq q := fun _ => rfl
  simp only [Instance.binary, Instance.withOq_value, Instance.withOq_store, map_bind, bind_map_left, map_pure,
    hadvance]

theorem Instance.withOq_branch (a b : Operand) (taken : Int → Bool) :
    (m.withOq q).branch a b taken = (·.withOq q) <$> m.branch a b taken := by
  have hjump : ∀ t, (m.withOq q).jump t = (m.jump t).withOq q := fun _ => rfl
  have hadvance : (m.withOq q).advance 3 = (m.advance 3).withOq q := rfl
  simp only [Instance.branch, Instance.withOq_value, map_bind, map_pure, hjump, hadvance, apply_ite (Instance.withOq · q)]

theorem Instance.withOq_takeInput (d : Dest) :
    (m.withOq q).takeInput d = (·.withOq q) <$> m.takeInput d := by
  have hiq : (m.withOq q).iq = m.iq := rfl
  have hadvance : ∀ n : Instance, (n.withOq q).popInput.advance 2 = (n.popInput.advance 2).withOq q := fun _ => rfl
  unfold Instance.takeInput
  rw [hiq]
  cases m.iq with
  | nil => rfl
  | cons v rest => simp only [Instance.withOq_store, map_bind, bind_map_left, map_pure, hadvance]

theorem Instance.withOq_conclude (r : Except Trap Instance) :
    (m.withOq q).conclude ((·.withOq q) <$> r) = (m.conclude r).withOq q := by
  cases r <;> rfl

/-- An instruction but OUTPUT does not look at the output queue. -/
theorem effect_withOq {i : Instr} (hi : ∀ a, i ≠ .output a) (c : Config) :
    effect i c (m.withOq q) = (·.withOq q) <$> effect i c m := by
  cases i with
  | add a b d | mult a b d | lessThan a b d | equals a b d => exact m.withOq_binary q a b _ d
  | jumpIfTrue a b | jumpIfFalse a b => exact m.withOq_branch q a b _
  | input d => exact m.withOq_takeInput q d
  | output a => exact absurd rfl (hi a)
  | halt => rfl

/-- OUTPUT looks at the length of the queue alone. -/
theorem Instance.conclude_giveOutput_withOq (hq : q.length = m.oq.length) (c : Config) (a : Operand) :
    ∃ out, (m.conclude (m.giveOutput c a)).oq = m.oq ++ out ∧
      (m.withOq q).conclude ((m.withOq q).giveOutput c a) = (m.conclude (m.giveOutput c a)).withOq (q ++ out) := by
  have hlen : (m.withOq q).oq.length = m.oq.length := hq
  simp only [Instance.giveOutput, Instance.withOq_value, hlen]
  cases m.value a with
  | error t => exact ⟨[], by simp [bind, Except.bind]⟩
  | ok x =>
    simp only [bind, Except.bind]
    split
    · exact ⟨[], by simp⟩
    · exact ⟨[x], rfl, rfl⟩

theorem conclude_effect_withOq (hq : q.length = m.oq.length) (i : Instr) (c : Config) :
    ∃ out, (m.conclude (effect i c m)).oq = m.oq ++ out ∧
      (m.withOq q).conclude (effect i c (m.withOq q)) = (m.conclude (effect i c m)).withOq (q ++ out) := by
  by_cases hi : ∃ a, i = .output a
  · obtain ⟨a, rfl⟩ := hi
    exact m.conclude_giveOutput_withOq q hq c a
  · have hi : ∀ a, i ≠ .output a := fun a h => hi ⟨a, h⟩
    refine ⟨[], ?_, ?_⟩
    · rcases (instrEffect i c m).oq_cases with h | ⟨a, v, h, -⟩
      · rw [h, List.append_nil]
      · exact absurd h (hi a)
    · rw [effect_withOq m q hi, Instance.withOq_conclude, List.append_nil]

end

/-- Settles O33: the fetch does not look at the output queue, and an instruction looks at its length alone. -/
theorem engineStepIsDeterminedByItsInstance : Obligations.EngineStepIsDeterminedByItsInstance := by
  unfold Obligations.EngineStepIsDeterminedByItsInstance
  intro s t s' k m q hm hm' hq hcfg h
  change t.insts[k]? = some (m.withOq q) at hm'
  have after : ∀ n, (State.setInst { t with cur := k } k n).insts[k]? = some n := State.setInst_same hm'
  obtain ⟨n, hn, hc⟩ := State.engineStep_cases h
  obtain rfl := Option.some.inj (hm.symm.trans hn)
  rcases hc with ⟨ha, rfl⟩ | ⟨ha, e, hf, rfl⟩ | ⟨ha, i, hf, rfl⟩
  · exact ⟨t, m, [], State.engineStep_inactive hm' ha, hm, by simp, by rw [List.append_nil]; exact hm'⟩
  · refine ⟨_, m.raise e, [], State.engineStep_active hm' ha, State.setInst_same hm _, by simp, ?_⟩
    rw [after, Instance.withOq_fetch, hf, List.append_nil]
    rfl
  · obtain ⟨out, hout, he⟩ := conclude_effect_withOq m q hq i s.cfg
    refine ⟨_, _, out, State.engineStep_active hm' ha, State.setInst_same hm _, hout, ?_⟩
    rw [after, Instance.withOq_fetch, hf, ← hcfg]
    exact congrArg some he

end Sys2Proof.Machine
end

section
/-! SUPPORT. No step stops but for an event that cannot be presented, and the round robin passes over no active
engine (40_execution_cycle.md R143, R166). -/

namespace Sys2Proof.Machine

/-! ### Operations that go on -/

/-- The outcome is a next state, no stop of the model. -/
def Completes (o : Host.Outcome State Fault Refusal) : Prop := ∃ s, o = .next s

theorem completes_next (s : State) : Completes (.next s) := ⟨s, rfl⟩

theorem completes_ite {p : Prop} [Decidable p] {x y : Host.Outcome State Fault Refusal} (hx : Completes x)
    (hy : Completes y) : Completes (if p then x else y) := by
  split
  · exact hx
  · exact hy

theorem State.onInst_completes {s : State} {k : Nat} {f : Instance → Host.Outcome State Fault Refusal}
    (hk : k < s.insts.length) (hf : ∀ m, Completes (f m)) : Completes (s.onInst k f) := by
  rw [State.onInst_some (List.getElem?_eq_getElem hk)]
  exact hf _

theorem State.unlessRing_completes (s : State) {o : Host.Outcome State Fault Refusal} (h : Completes o) :
    Completes (s.unlessRing o) :=
  completes_ite (completes_next _) h

theorem hostLoadProgram_completes {s : State} {ws : List Int} (hw : ∀ w ∈ ws, s.cfg.InRange w) :
    Completes (hostLoadProgram ws s) := by
  have hfind : ws.find? (fun w => decide (¬ s.cfg.InRange w)) = none :=
    List.find?_eq_none.2 fun w hmem => by simpa using hw w hmem
  rw [hostLoadProgram, hfind]
  exact s.unlessRing_completes (completes_ite (completes_next _) (completes_next _))

theorem hostPushInput_completes {s : State} {k : Nat} {v : Int} (hk : k < s.insts.length) (hv : s.cfg.InRange v) :
    Completes (hostPushInput k v s) := by
  refine s.unlessRing_completes (State.onInst_completes hk fun m => ?_)
  rw [if_pos hv]
  exact completes_ite (completes_next _) (completes_next _)

theorem hostPopOutput_completes {s : State} {k : Nat} (hk : k < s.insts.length) : Completes (hostPopOutput k s) := by
  refine s.unlessRing_completes (State.onInst_completes hk fun m => ?_)
  cases m.oq with
  | nil => exact completes_next _
  | cons v rest => exact completes_next _

theorem hostReadReg_completes {s : State} {k r : Nat} (hk : r < 64 → k < s.insts.length) :
    Completes (hostReadReg k r s) := by
  unfold hostReadReg
  split
  · exact State.onInst_completes (hk ‹_›) fun m => completes_next _
  · exact completes_next _

theorem hostWriteReg_completes (s : State) (r : Nat) (v : Int) : Completes (hostWriteReg r v s) :=
  s.unlessRing_completes <| completes_ite (completes_ite (completes_next _) (completes_next _)) <|
    completes_ite (completes_ite (completes_next _) (completes_next _)) <|
    completes_ite (completes_ite (completes_next _) (completes_next _)) (completes_next _)

theorem hostStep_completes {s : State} (hs : s.insts.length = s.cfg.nMax) {op : HostOp}
    (hp : (Event.host op).Presentable s.cfg) : Completes (hostStep op s) := by
  cases op with
  | loadProgram ws => exact hostLoadProgram_completes hp
  | instantiate k =>
    exact s.unlessRing_completes <| State.onInst_completes (hs ▸ hp) fun m =>
      completes_ite (completes_next _) (completes_next _)
  | pushInput k v => exact hostPushInput_completes (hs ▸ hp.1) hp.2
  | popOutput k => exact hostPopOutput_completes (hs ▸ hp)
  | resume k => exact s.unlessRing_completes <| State.onInst_completes (hs ▸ hp) fun m => completes_next _
  | readReg k r => exact hostReadReg_completes fun hr => hs ▸ hp hr
  | readMem k a =>
    exact s.unlessRing_completes <| State.onInst_completes (hs ▸ hp) fun m =>
      completes_ite (completes_next _) (completes_ite (completes_next _) (completes_next _))
  | writeReg r v => exact hostWriteReg_completes s r v
  | ringStart => exact s.unlessRing_completes (completes_ite (completes_next _) (completes_next _))

/-- No instruction ends in a stop: its faults are next states (60_exceptions.md R301). -/
theorem State.engineStep_completes {s : State} {k : Nat} (hk : k < s.insts.length) : Completes (s.engineStep k) := by
  have hm : s.insts[k]? = some s.insts[k] := List.getElem?_eq_getElem hk
  cases ha : s.insts[k].active with
  | true => exact ⟨_, State.engineStep_active hm ha⟩
  | false => exact ⟨_, State.engineStep_inactive hm ha⟩

theorem State.schedulerStep_completes {s : State} (hk : s.ringCur < s.insts.length) : Completes s.schedulerStep := by
  refine completes_ite ?_ (completes_next _)
  cases s.rphase with
  | issue =>
    exact State.onInst_completes hk fun m =>
      completes_ite (completes_next _) (completes_ite (completes_next _) (completes_next _))
  | collect =>
    exact State.onInst_completes hk fun m =>
      completes_ite (completes_next _) (completes_ite (completes_next _) (completes_next _))

/-- The event of an agent is that of an engine of the block or the scheduler's. -/
theorem State.agentEvent_presentable {s : State} (hs : s.insts.length = s.cfg.nMax) (k : Nat) :
    (s.agentEvent k).Presentable s.cfg := by
  unfold State.agentEvent
  split
  · exact lt_of_lt_of_eq ‹_› hs
  · trivial

theorem State.fire_completes {s : State} (hs : s.Ok) {e : Event} (he : e.Presentable s.cfg) : Completes (s.fire e) := by
  cases e with
  | host op => exact hostStep_completes hs.instCount he
  | engine k => exact State.engineStep_completes (hs.instCount ▸ he)
  | scheduler => exact State.schedulerStep_completes (hs.instCount ▸ hs.ringCurLegal)
  | reset => exact completes_next _

/-- Settles O54: what the round robin chooses can be presented, and every event that can be presented goes on. -/
theorem everyPresentableStepCompletes : Obligations.EveryPresentableStepCompletes := by
  unfold Obligations.EveryPresentableStepCompletes
  intro s hs hp
  cases hn : s.nextEvent with
  | none => exact ⟨s, by rw [step, hn]⟩
  | some et =>
    obtain ⟨e, t⟩ := et
    obtain ⟨hcfg, -⟩ := State.nextEvent_fields hn
    rw [step_of_nextEvent hn]
    refine State.fire_completes (hs.nextEvent hn) ?_
    rw [hcfg]
    rcases State.nextEvent_cases hn with ⟨rest, hpend, -⟩ | ⟨-, k, -, rfl, -⟩
    · exact hp e (by simp [hpend])
    · exact State.agentEvent_presentable hs.instCount k

/-! ### The round robin (40_execution_cycle.md R166) -/

theorem State.waits_lt (s : State) (k : Nat) : s.waits k < s.insts.length + 1 := Nat.mod_lt _ (Nat.succ_pos _)

theorem State.turn_add_waits {s : State} {k : Nat} (hk : k < s.insts.length + 1) :
    (s.turn + s.waits k) % (s.insts.length + 1) = k := by
  have hlt : s.turn % (s.insts.length + 1) < s.insts.length + 1 := Nat.mod_lt _ (Nat.succ_pos _)
  have hdiv := Nat.div_add_mod s.turn (s.insts.length + 1)
  have hsum : s.turn + (k + (s.insts.length + 1) - s.turn % (s.insts.length + 1)) =
      k + (s.insts.length + 1) * (s.turn / (s.insts.length + 1) + 1) := by
    rw [Nat.mul_add, Nat.mul_one]
    omega
  rw [State.waits, Nat.add_mod_mod, hsum, Nat.add_mul_mod_self_left, Nat.mod_eq_of_lt hk]

/-- The place of agent `k` in the rota is the only one. -/
theorem State.waits_eq {s : State} {k n : Nat} (hn : n < s.insts.length + 1)
    (h : (s.turn + n) % (s.insts.length + 1) = k) : s.waits k = n := by
  have hk : k < s.insts.length + 1 := h ▸ Nat.mod_lt _ (Nat.succ_pos _)
  have hmod : s.turn + s.waits k ≡ s.turn + n [MOD s.insts.length + 1] := (State.turn_add_waits hk).trans h.symm
  exact (Nat.ModEq.add_left_cancel' _ hmod).eq_of_lt_of_lt (s.waits_lt k) hn

/-- Once the agent at place `n` of the rota has moved, one that stands after it is at least one place nearer. -/
theorem State.waits_after {s : State} {k n : Nat} (hk : k < s.insts.length + 1) (hn : n < s.waits k) :
    State.waits { s with turn := (s.turn + n) % (s.insts.length + 1) + 1 } k < s.waits k := by
  have hlt := s.waits_lt k
  have hplace : State.waits { s with turn := (s.turn + n) % (s.insts.length + 1) + 1 } k = s.waits k - n - 1 := by
    refine State.waits_eq (show _ < s.insts.length + 1 by omega) ?_
    calc ((s.turn + n) % (s.insts.length + 1) + 1 + (s.waits k - n - 1)) % (s.insts.length + 1)
        = ((s.turn + n) % (s.insts.length + 1) + (s.waits k - n)) % (s.insts.length + 1) := by
          congr 1
          omega
      _ = (s.turn + n + (s.waits k - n)) % (s.insts.length + 1) := Nat.mod_add_mod _ _ _
      _ = (s.turn + s.waits k) % (s.insts.length + 1) := by
          congr 1
          omega
      _ = k := State.turn_add_waits hk
  omega

theorem State.rota_length (s : State) : s.rota.length = s.insts.length + 1 := by simp [State.rota]

theorem State.rota_getElem (s : State) (n : Nat) (h : n < s.rota.length) :
    s.rota[n] = (s.turn + n) % (s.insts.length + 1) := by simp [State.rota]

/-- The agent that moves is one that the round robin asks no later than one that can move. -/
theorem State.rota_find?_of_ready {s : State} {k : Nat} (hk : k < s.insts.length + 1) (hr : s.agentReady k = true) :
    ∃ n, n ≤ s.waits k ∧ s.rota.find? s.agentReady = some ((s.turn + n) % (s.insts.length + 1)) := by
  have hplace : s.waits k < s.rota.length := s.rota_length ▸ s.waits_lt k
  have hat : s.rota[s.waits k] = k := by rw [State.rota_getElem, State.turn_add_waits hk]
  cases hf : s.rota.find? s.agentReady with
  | none => exact absurd hr (List.find?_eq_none.1 hf k (hat ▸ List.getElem_mem hplace))
  | some j =>
    obtain ⟨-, n, hn, rfl, hbefore⟩ := List.find?_eq_some_iff_getElem.1 hf
    refine ⟨n, Nat.le_of_not_lt fun hlt => ?_, by rw [State.rota_getElem]⟩
    have hnot := hbefore (s.waits k) hlt
    simp [hat, hr] at hnot

theorem State.nextEvent_of_rota {s : State} {j : Nat} (hp : s.pending = [])
    (hj : s.rota.find? s.agentReady = some j) : s.nextEvent = some (s.agentEvent j, { s with turn := j + 1 }) := by
  simp [State.nextEvent, hp, hj]

/-- Settles O57: the agent chosen is asked no later than engine `k`; if it is another one, engine `k` is nearer once
the round robin goes on after it. -/
theorem anActiveInstanceIsNotPassedOver : Obligations.AnActiveInstanceIsNotPassedOver := by
  unfold Obligations.AnActiveInstanceIsNotPassedOver
  intro s k m hp hm ha
  have hk : k < s.insts.length := (List.getElem?_eq_some_iff.1 hm).1
  have hready : s.agentReady k = true := by
    rw [State.agentReady, if_pos hk, State.engineReady, hm]
    exact ha
  obtain ⟨n, hle, hfind⟩ := State.rota_find?_of_ready (Nat.lt_succ_of_lt hk) hready
  refine ⟨_, _, State.nextEvent_of_rota hp hfind, hp, rfl, ?_⟩
  rcases Nat.lt_or_eq_of_le hle with hlt | rfl
  · exact .inr (State.waits_after (Nat.lt_succ_of_lt hk) hlt)
  · left
    rw [State.turn_add_waits (Nat.lt_succ_of_lt hk), State.agentEvent, if_pos hk]

end Sys2Proof.Machine
end

section
/-! SUPPORT. ADD and MULT (41_arithmetic.md R180 to R183), by the rule of the shape that the four instructions with
three operands share. -/

namespace Sys2Proof.Machine

/-! ### The three-operand shape, case by case (40_execution_cycle.md R150 orders 5, 7, 8) -/

section
variable {m : Instance} {a b : Operand} {d : Dest} {f : Int → Int → Except Trap Int} {x y r : Int} {t : Trap}

theorem Instance.binary_of_first_error (ha : m.value a = .error t) : m.binary a b f d = .error t := by
  rw [Instance.binary, ha]
  rfl

theorem Instance.binary_of_second_error (ha : m.value a = .ok x) (hb : m.value b = .error t) :
    m.binary a b f d = .error t := by
  rw [Instance.binary, ha, hb]
  rfl

theorem Instance.binary_of_values (ha : m.value a = .ok x) (hb : m.value b = .ok y) :
    m.binary a b f d = (f x y).bind fun r => (m.store d r).map fun m' => m'.advance 4 := by
  rw [Instance.binary, ha, hb]
  rfl

theorem Instance.binary_of_result_error (ha : m.value a = .ok x) (hb : m.value b = .ok y) (hf : f x y = .error t) :
    m.binary a b f d = .error t := by
  rw [Instance.binary_of_values ha hb, hf]
  rfl

theorem Instance.binary_of_result (ha : m.value a = .ok x) (hb : m.value b = .ok y) (hf : f x y = .ok r) :
    m.binary a b f d = (m.store d r).map fun m' => m'.advance 4 := by
  rw [Instance.binary_of_values ha hb, hf]
  rfl

theorem Instance.binary_out (ha : m.value a = .ok x) (hb : m.value b = .ok y) (hf : f x y = .ok r)
    (hd : ¬ (0 ≤ d.addr ∧ d.addr < m.len)) : m.binary a b f d = .error ⟨.writeOob, d.addr⟩ := by
  rw [Instance.binary_of_result ha hb hf, Instance.store_out ((m.inBounds_false_iff _).2 hd), Except.map]

theorem Instance.binary_in (ha : m.value a = .ok x) (hb : m.value b = .ok y) (hf : f x y = .ok r)
    (hd : 0 ≤ d.addr ∧ d.addr < m.len) : m.binary a b f d = .ok ((m.setWord d.addr r).advance 4) := by
  rw [Instance.binary_of_result ha hb hf, Instance.store_in ((m.inBounds_iff _).2 hd), Except.map]

end

/-- An instruction of the three-operand shape follows the rule for `r` when its computation `f` gives `r x y` where the
rule lets it complete, and OVERFLOW where the rule asks for it. -/
theorem threeOperandRule_of_binary {i : Operand → Operand → Dest → Instr} {mayOverflow : Bool} {r : Int → Int → Int}
    (f : Config → Int → Int → Except Trap Int) (hi : ∀ a b d c m, effect (i a b d) c m = m.binary a b (f c) d)
    (hok : ∀ c x y, (mayOverflow = true → c.InRange (r x y)) → f c x y = .ok (r x y))
    (hover : ∀ c x y, mayOverflow = true → ¬ c.InRange (r x y) → f c x y = .error ⟨.overflow, 0⟩) :
    ThreeOperandRule i mayOverflow r := by
  intro s m a b d hm
  rw [exec_some hm, hi]
  refine ⟨fun t ha => ?_, fun x t ha hb => ?_, fun x y ha hb ho hr => ?_, fun x y ha hb hr hd => ?_,
    fun x y ha hb hr hd => ⟨?_, fun hwf => Memory.read_write_same hwf _ _⟩⟩
  · rw [Instance.binary_of_first_error ha, Instance.conclude_error]
  · rw [Instance.binary_of_second_error ha hb, Instance.conclude_error]
  · rw [Instance.binary_of_result_error ha hb (hover s.cfg x y ho hr), Instance.conclude_error]
  · rw [Instance.binary_out ha hb (hok s.cfg x y hr) hd, Instance.conclude_error]
  · rw [Instance.binary_in ha hb (hok s.cfg x y hr) hd, Instance.conclude_ok]
    rfl

/-! ### ADD and MULT -/

/-- Settles O9: ADD has the three-operand shape, and its computation is the check of the exact sum. -/
theorem addFollowsItsRule : Obligations.AddFollowsItsRule := by
  unfold Obligations.AddFollowsItsRule
  exact ⟨legalWordsAreExactlyTheFortyFive.1 .add, threeOperandRule_of_binary sum (fun _ _ _ _ _ => rfl)
    (fun _ _ _ hr => checked_in (hr rfl)) (fun _ _ _ _ hr => checked_out hr)⟩

/-- Settles O10: MULT has the three-operand shape, and its computation is the check of the exact product. -/
theorem multFollowsItsRule : Obligations.MultFollowsItsRule := by
  unfold Obligations.MultFollowsItsRule
  exact ⟨legalWordsAreExactlyTheFortyFive.1 .mult, threeOperandRule_of_binary product (fun _ _ _ _ _ => rfl)
    (fun _ _ _ hr => checked_in (hr rfl)) (fun _ _ _ _ hr => checked_out hr)⟩

end Sys2Proof.Machine
end

section
/-! SUPPORT. INPUT and OUTPUT (42_io.md R190 to R192): what each does to its instance, one lemma for each case of its
rule. -/

namespace Sys2Proof.Machine

section
variable {m : Instance} {c : Config} {a : Operand} {d : Dest} {x v : Int} {rest : List Int} {t : Trap}

/-! ### INPUT (42_io.md R190, R191) -/

theorem Instance.takeInput_empty (hq : m.iq = []) : m.takeInput d = .ok m.suspend := by
  rw [Instance.takeInput, hq]

theorem Instance.takeInput_of_value (hq : m.iq = v :: rest) :
    m.takeInput d = (m.store d v).map fun m' => m'.popInput.advance 2 := by
  rw [Instance.takeInput, hq]
  rfl

theorem Instance.takeInput_out (hq : m.iq = v :: rest) (hd : ¬ (0 ≤ d.addr ∧ d.addr < m.len)) :
    m.takeInput d = .error ⟨.writeOob, d.addr⟩ := by
  rw [Instance.takeInput_of_value hq, Instance.store_out ((m.inBounds_false_iff _).2 hd), Except.map]

theorem Instance.takeInput_in (hq : m.iq = v :: rest) (hd : 0 ≤ d.addr ∧ d.addr < m.len) :
    m.takeInput d = .ok { m with mem := m.mem.write d.addr.toNat v, iq := rest, ip := m.ip + 2 } := by
  have hrest : m.iq.tail = rest := by rw [hq, List.tail_cons]
  rw [Instance.takeInput_of_value hq, Instance.store_in ((m.inBounds_iff _).2 hd), ← hrest]
  rfl

/-! ### OUTPUT (42_io.md R192) -/

theorem Instance.giveOutput_of_error (ha : m.value a = .error t) : m.giveOutput c a = .error t := by
  rw [Instance.giveOutput, ha]
  rfl

theorem Instance.giveOutput_of_value (ha : m.value a = .ok x) :
    m.giveOutput c a =
      if m.oq.length = c.outDepth then .error ⟨.outputFull, x⟩ else .ok ((m.pushOutput x).advance 2) := by
  rw [Instance.giveOutput, ha]
  rfl

theorem Instance.giveOutput_full (ha : m.value a = .ok x) (hl : m.oq.length = c.outDepth) :
    m.giveOutput c a = .error ⟨.outputFull, x⟩ := by
  rw [Instance.giveOutput_of_value ha, if_pos hl]

theorem Instance.giveOutput_room (ha : m.value a = .ok x) (hl : m.oq.length ≠ c.outDepth) :
    m.giveOutput c a = .ok { m with oq := m.oq ++ [x], ip := m.ip + 2 } := by
  rw [Instance.giveOutput_of_value ha, if_neg hl]
  rfl

end

/-! ### The two rules -/

/-- Settles O13: the queue is looked at first, then the destination, and only then is the oldest value taken. -/
theorem inputFollowsItsRule : Obligations.InputFollowsItsRule := by
  unfold Obligations.InputFollowsItsRule
  refine ⟨legalWordsAreExactlyTheFortyFive.1 .input, fun s m d hm => ?_⟩
  rw [exec_some hm, effect]
  refine ⟨fun hq => ?_, fun v rest hq hd => ?_, fun v rest hq hd => ⟨?_, fun hwf => Memory.read_write_same hwf _ _⟩⟩
  · rw [Instance.takeInput_empty hq, Instance.conclude_ok, Instance.suspend]
  · rw [Instance.takeInput_out hq hd, Instance.conclude_error]
  · rw [Instance.takeInput_in hq hd, Instance.conclude_ok]

/-- Settles O14: the operand is resolved first, and its value is appended only when the queue has room. -/
theorem outputFollowsItsRule : Obligations.OutputFollowsItsRule := by
  unfold Obligations.OutputFollowsItsRule
  refine ⟨legalWordsAreExactlyTheFortyFive.1 .output, fun s m a hm => ?_⟩
  rw [exec_some hm, effect]
  refine ⟨fun t ha => ?_, fun x ha hl => ?_, fun x ha hl => ?_⟩
  · rw [Instance.giveOutput_of_error ha, Instance.conclude_error]
  · rw [Instance.giveOutput_full ha hl, Instance.conclude_error]
  · rw [Instance.giveOutput_room ha hl, Instance.conclude_ok]

end Sys2Proof.Machine
end

section
/-! SUPPORT. JUMP_IF_TRUE and JUMP_IF_FALSE (43_jumps.md R200 to R204), by the rule of the shape that the two share. -/

namespace Sys2Proof.Machine

section
variable {m : Instance} {cond target : Operand} {taken : Int → Bool} {c x : Int} {t : Trap}

/-! ### The conditional jump, case by case (43_jumps.md R203) -/

theorem Instance.branch_of_cond_error (hc : m.value cond = .error t) : m.branch cond target taken = .error t := by
  rw [Instance.branch, hc]
  rfl

theorem Instance.branch_of_target_error (hc : m.value cond = .ok c) (ht : m.value target = .error t) :
    m.branch cond target taken = .error t := by
  rw [Instance.branch, hc, ht]
  rfl

theorem Instance.branch_of_values (hc : m.value cond = .ok c) (ht : m.value target = .ok x) :
    m.branch cond target taken = .ok (if taken c then m.jump x else m.advance 3) := by
  rw [Instance.branch, hc, ht]
  rfl

end

/-- An instruction of the conditional-jump shape follows the rule for the conditions on which its effect jumps. -/
theorem jumpRule_of_branch {i : Operand → Operand → Instr} {taken : Int → Prop} [DecidablePred taken]
    (hi : ∀ x t c m, effect (i x t) c m = m.branch x t (fun v => decide (taken v))) : JumpRule i taken := by
  intro s m cond target hm
  rw [exec_some hm, hi]
  refine ⟨fun t hc => ?_, fun c t hc ht => ?_, fun c t hc ht htaken => ?_, fun c t hc ht hpassed => ?_⟩
  · rw [Instance.branch_of_cond_error hc, Instance.conclude_error]
  · rw [Instance.branch_of_target_error hc ht, Instance.conclude_error]
  · rw [Instance.branch_of_values hc ht, if_pos (decide_eq_true htaken), Instance.conclude_ok, Instance.jump]
  · rw [Instance.branch_of_values hc ht, if_neg (by simpa using hpassed), Instance.conclude_ok, Instance.advance]

/-! ### JUMP_IF_TRUE and JUMP_IF_FALSE -/

/-- Settles O15: JUMP_IF_TRUE has the conditional-jump shape, and it jumps on a nonzero condition. -/
theorem jumpIfTrueFollowsItsRule : Obligations.JumpIfTrueFollowsItsRule := by
  unfold Obligations.JumpIfTrueFollowsItsRule
  exact ⟨legalWordsAreExactlyTheFortyFive.1 .jumpIfTrue, jumpRule_of_branch fun _ _ _ _ => rfl⟩

/-- Settles O16: JUMP_IF_FALSE has the conditional-jump shape, and it jumps on a zero condition. -/
theorem jumpIfFalseFollowsItsRule : Obligations.JumpIfFalseFollowsItsRule := by
  unfold Obligations.JumpIfFalseFollowsItsRule
  exact ⟨legalWordsAreExactlyTheFortyFive.1 .jumpIfFalse, jumpRule_of_branch fun _ _ _ _ => rfl⟩

/-! ### A target out of bounds (43_jumps.md R204) -/

theorem Instance.fetch_out {m : Instance} (h : ¬ (0 ≤ m.ip ∧ m.ip < m.len)) : m.fetch = .error ⟨.fetchOob, m.ip⟩ :=
  Instance.fetch_error.2 ⟨.empty, by rw [Instance.window_eq_nil h, decode], rfl⟩

/-- The step of an active instance whose `ip` is out of bounds raises FETCH_OOB (40_execution_cycle.md R145). -/
theorem State.engineStep_out {s : State} {k : Nat} {m : Instance} (hm : s.insts[k]? = some m) (ha : m.active = true)
    (h : ¬ (0 ≤ m.ip ∧ m.ip < m.len)) :
    s.engineStep k = .next (State.setInst { s with cur := k } k (m.raise ⟨.fetchOob, m.ip⟩)) := by
  rw [State.engineStep_active hm ha, Instance.fetch_out h, Instance.conclude_error]

/-- Under the rule of a conditional jump, one that is taken completes whatever its target, and the fetch after it
checks the target. -/
theorem jumpRule_target_out {i : Operand → Operand → Instr} {taken : Int → Prop} (hrule : JumpRule i taken)
    {s : State} {m : Instance} {cond target : Operand} {c t : Int} (hm : s.insts[s.cur]? = some m)
    (ha : m.active = true) (hc : m.value cond = .ok c) (ht : m.value target = .ok t) (hout : ¬ (0 ≤ t ∧ t < m.len))
    (htaken : taken c) :
    ∃ u, exec (i cond target) s = .next u ∧ u.insts[s.cur]? = some { m with ip := t } ∧
      ∃ v, u.engineStep s.cur = .next v ∧ v.insts[s.cur]? = some
      { m with ip := t, state := .faulted, active := false, faultCause := .fetchOob, faultIp := t, faultInfo := t } := by
  obtain ⟨-, -, hjump, -⟩ := hrule s m cond target hm
  have hu := State.setInst_same hm { m with ip := t }
  exact ⟨_, hjump c t hc ht htaken, hu, _, State.engineStep_out hu ha hout, State.setInst_same hu _⟩

/-- Settles O18: both jumps follow the rule of a conditional jump. -/
theorem jumpTargetIsCheckedAtTheNextFetch : Obligations.JumpTargetIsCheckedAtTheNextFetch := by
  unfold Obligations.JumpTargetIsCheckedAtTheNextFetch
  intro s m c cond target t hm ha hc ht hout
  exact ⟨jumpRule_target_out jumpIfTrueFollowsItsRule.2 hm ha hc ht hout,
    jumpRule_target_out jumpIfFalseFollowsItsRule.2 hm ha hc ht hout⟩

end Sys2Proof.Machine
end

section
/-! SUPPORT. LESS_THAN and EQUALS (44_compare.md R210 to R212), by the rule of the three-operand shape: a comparison
always has a result, so OVERFLOW does not arise. -/

namespace Sys2Proof.Machine

theorem truth_decide (p : Prop) [Decidable p] : truth (decide p) = if p then 1 else 0 := by
  simp only [truth_eq, decide_eq_true_eq]

theorem isLess_eq (x y : Int) : isLess x y = .ok (if x < y then 1 else 0) := congrArg Except.ok (truth_decide _)

theorem isEqual_eq (x y : Int) : isEqual x y = .ok (if x = y then 1 else 0) := congrArg Except.ok (truth_decide _)

/-- An instruction of the three-operand shape whose computation `f` answers `r x y` for all values follows the rule
that has no OVERFLOW (44_compare.md R211). -/
theorem threeOperandRule_of_total {i : Operand → Operand → Dest → Instr} {f : Int → Int → Except Trap Int}
    {r : Int → Int → Int} (hi : ∀ a b d c m, effect (i a b d) c m = m.binary a b f d)
    (hf : ∀ x y, f x y = .ok (r x y)) : ThreeOperandRule i false r :=
  threeOperandRule_of_binary (fun _ => f) hi (fun _ x y _ => hf x y) (fun _ _ _ h => nomatch h)

/-- Settles O11: LESS_THAN has the three-operand shape, and its computation always answers the signed comparison. -/
theorem lessThanFollowsItsRule : Obligations.LessThanFollowsItsRule := by
  unfold Obligations.LessThanFollowsItsRule
  exact ⟨legalWordsAreExactlyTheFortyFive.1 .lessThan, threeOperandRule_of_total (fun _ _ _ _ _ => rfl) isLess_eq⟩

/-- Settles O12: EQUALS has the three-operand shape, and its computation always answers the test for equality. -/
theorem equalsFollowsItsRule : Obligations.EqualsFollowsItsRule := by
  unfold Obligations.EqualsFollowsItsRule
  exact ⟨legalWordsAreExactlyTheFortyFive.1 .equals, threeOperandRule_of_total (fun _ _ _ _ _ => rfl) isEqual_eq⟩

end Sys2Proof.Machine
end

section
/-! SUPPORT. HALT (45_halt.md R220): what it writes, and that RESUME is IGNORED after it. -/

namespace Sys2Proof.Machine

/-- RESUME of what has halted is IGNORED and changes nothing, whether or not it is active (40_execution_cycle.md
R141). -/
theorem Instance.resume_of_halted {m : Instance} (h : m.state = .halted) : m.resume = (m, .ignored) := by
  rcases m.resume_cases with ⟨-, hs | hs, -⟩ | ⟨-, hresume⟩
  · cases h.symm.trans hs
  · cases h.symm.trans hs
  · exact hresume

/-- Settles O17: HALT's effect is `Instance.stop` and cannot fault, and it leaves the instance halted. -/
theorem haltFollowsItsRule : Obligations.HaltFollowsItsRule := by
  unfold Obligations.HaltFollowsItsRule
  refine ⟨legalWordsAreExactlyTheFortyFive.1 .halt, fun s m hm => ⟨?_, Instance.resume_of_halted m.stop_state⟩⟩
  rw [exec_some hm, effect, Instance.conclude_ok, Instance.stop]

end Sys2Proof.Machine
end

section
/-! SUPPORT. The rule of each host operation on one instance (60_exceptions.md R320 to R331): what it answers, and what
it leaves alone. -/

namespace Sys2Proof.Machine

/-! ### Ring mode (60_exceptions.md R328) -/

/-- Every host operation but READ_REG is turned away in ring mode. -/
theorem hostStep_busy {s : State} (hr : s.rstate = .running) {op : HostOp} (hop : ∀ k r, op ≠ .readReg k r) :
    hostStep op s = .next (s.answer .busy) := by
  cases op with
  | loadProgram | instantiate | pushInput | popOutput | resume | readMem | writeReg | ringStart =>
    exact State.unlessRing_running hr _
  | readReg k r => exact absurd rfl (hop k r)

theorem regReply_ne_busy (v : Option Int) : regReply v ≠ .busy := by
  cases v <;> simp [regReply]

/-- READ_REG answers what the register map has for the number. -/
theorem hostStep_readReg_answers {s : State} {k : Nat} (hk : k < s.insts.length) (r : Nat) :
    ∃ v, hostStep (.readReg k r) s = .next (s.answer (regReply v)) := by
  by_cases hr : r < 64
  · exact ⟨_, hostStep_readReg_own (List.getElem?_eq_getElem hk) hr⟩
  · exact ⟨_, hostStep_readReg_shared s k (by omega)⟩

/-- Settles O41: ring mode is looked at before anything else, and the register map has no BUSY. -/
theorem ringModeAnswersBusy : Obligations.RingModeAnswersBusy := by
  unfold Obligations.RingModeAnswersBusy
  intro s hr
  refine ⟨fun op hop => hostStep_busy hr hop, fun k r hk => ?_⟩
  obtain ⟨v, hv⟩ := hostStep_readReg_answers hk r
  exact ⟨_, regReply_ne_busy v, hv⟩

/-! ### RESUME, PUSH_INPUT and POP_OUTPUT (60_exceptions.md R320 to R322) -/

section
variable {s : State} {k : Nat} {m : Instance} (hn : s.rstate ≠ .running) (hm : s.insts[k]? = some m)
include hn hm

/-- Outside ring mode RESUME of what is active, halted or faulted is IGNORED. -/
theorem hostStep_resume_ignored (h : m.resume = (m, .ignored)) :
    hostStep (.resume k) s = .next (s.answer .ignored) := by
  rw [hostStep_resume hn hm, h, State.setInst_self hm]

theorem hostStep_pushInput {v : Int} (hv : s.cfg.InRange v) :
    hostStep (.pushInput k v) s =
      if m.iq.length = s.cfg.inDepth then .next (s.answer .full)
      else .next ((s.setInst k (m.pushInput v)).answer .ok) := by
  rw [hostStep, hostPushInput, State.unlessRing_not hn, State.onInst_some hm, if_pos hv]

theorem hostStep_popOutput_empty (hq : m.oq = []) : hostStep (.popOutput k) s = .next (s.answer .noValue) := by
  rw [hostStep, hostPopOutput, State.unlessRing_not hn, State.onInst_some hm, hq]

theorem hostStep_popOutput_cons {v : Int} {rest : List Int} (hq : m.oq = v :: rest) :
    hostStep (.popOutput k) s = .next ((s.setInst k { m with oq := rest }).answer (.value v)) := by
  rw [hostStep, hostPopOutput, State.unlessRing_not hn, State.onInst_some hm, Instance.popOutput, hq, List.tail_cons]

/-! ### READ_MEM and INSTANTIATE (60_exceptions.md R326, R331) -/

theorem hostStep_readMem (a : Int) :
    hostStep (.readMem k a) s =
      if m.active then .next (s.answer .busy)
      else if m.inBounds a then .next (s.answer (.value (m.wordAt a))) else .next (s.answer .oob) := by
  rw [hostStep, hostReadMem, State.unlessRing_not hn, State.onInst_some hm]

theorem hostStep_instantiate :
    hostStep (.instantiate k) s =
      if m.active then .next (s.answer .busy)
      else .next ((s.setInst k (m.instantiate s.prog s.plen)).answer .ok) := by
  rw [hostStep, hostInstantiate, State.unlessRing_not hn, State.onInst_some hm]

end

/-- Settles O34: each row is that of `Instance.resume`'s table. -/
theorem resumeFollowsItsTable : Obligations.ResumeFollowsItsTable := by
  unfold Obligations.ResumeFollowsItsTable
  intro s k m hm
  refine ⟨fun hr => hostStep_busy hr nofun, fun hn hs ha => ?_, fun hn hs ha => ?_, fun hn hs ha => ?_,
    fun hn hs ha => ?_, fun hn hs ha => ?_⟩
  · rw [hostStep_resume hn hm, Instance.resume, ha, hs]
    rfl
  · rw [hostStep_resume hn hm, Instance.resume_suspended hs ha, Instance.start]
  all_goals exact hostStep_resume_ignored hn hm (by simp [Instance.resume, hs, ha])

/-- Settles O35: the value is checked, then the room in the queue. -/
theorem pushInputFollowsItsRule : Obligations.PushInputFollowsItsRule := by
  unfold Obligations.PushInputFollowsItsRule
  intro s k m v hm hv
  refine ⟨fun hr => hostStep_busy hr nofun, fun hn hl => ?_, fun hn hl => ?_⟩
  · rw [hostStep_pushInput hn hm hv, if_pos hl]
  · rw [hostStep_pushInput hn hm hv, if_neg hl, Instance.pushInput]

/-- Settles O36, by the two forms of the output queue. -/
theorem popOutputFollowsItsRule : Obligations.PopOutputFollowsItsRule := by
  unfold Obligations.PopOutputFollowsItsRule
  intro s k m hm
  exact ⟨fun hr => hostStep_busy hr nofun, fun hn hq => hostStep_popOutput_empty hn hm hq,
    fun v rest hn hq => hostStep_popOutput_cons hn hm hq⟩

/-- No host operation but INSTANTIATE of instance `k` and RING_START writes a word of its memory. -/
theorem HostEffect.mem_eq {s s' : State} {op : HostOp} {k : Nat} {m m' : Instance} (he : HostEffect s op s')
    (hi : op ≠ .instantiate k) (hr : op ≠ .ringStart) (hm : s.insts[k]? = some m) (hm' : s'.insts[k]? = some m') :
    m'.mem = m.mem := by
  have same : ∀ {n}, s.insts[k]? = some n → n = m := fun h => Option.some.inj (h.symm.trans hm)
  cases he with
  | answered | loaded | wroteRingN | wroteSeed | wrotePhase => rw [same hm']
  | instantiated j n _ hn ha =>
    rcases State.setInst_get (s := s) hm' with ⟨rfl, -⟩ | ⟨-, h⟩
    · exact absurd rfl hi
    · rw [same h]
  | pushed j v n _ hn | popped j n _ _ _ hn | resumed j n _ hn =>
    rcases State.setInst_get (s := s) hm' with ⟨rfl, rfl⟩ | ⟨-, h⟩
    · simp [same hn]
    · rw [same h]
  | ringStarted => exact absurd rfl hr

/-- Settles O37: READ_MEM looks at ACTIVE, then at the address; the other operations write a memory only by renewal. -/
theorem readMemFollowsItsRule : Obligations.ReadMemFollowsItsRule := by
  unfold Obligations.ReadMemFollowsItsRule
  intro s k m a hm
  refine ⟨fun h => ?_, fun hn ha hout => ?_, fun hn ha hin => ?_,
    fun op s' m' hi hr h hm' => (hostStep_cases h).mem_eq hi hr hm hm'⟩
  · by_cases hr : s.rstate = .running
    · exact hostStep_busy hr nofun
    · rw [hostStep_readMem hr hm, if_pos (h.resolve_left hr)]
  · rw [hostStep_readMem hn hm, ha, if_neg Bool.false_ne_true, (m.inBounds_false_iff a).2 hout,
      if_neg Bool.false_ne_true]
  · rw [hostStep_readMem hn hm, ha, if_neg Bool.false_ne_true, if_pos ((m.inBounds_iff a).2 hin), Instance.wordAt]

/-- Settles O43: the copy of the store reads as the store below PLEN and as the old memory from it on. -/
theorem instantiateFollowsItsRule : Obligations.InstantiateFollowsItsRule := by
  unfold Obligations.InstantiateFollowsItsRule
  intro s k m hm
  refine ⟨fun h => ?_, fun hn ha => ⟨Memory.copyBelow s.plen s.prog m.mem, ?_, fun a h => ?_, fun a h => ?_⟩⟩
  · by_cases hr : s.rstate = .running
    · exact hostStep_busy hr nofun
    · rw [hostStep_instantiate hr hm, if_pos (h.resolve_left hr)]
  · rw [hostStep_instantiate hn hm, ha]
    rfl
  · rw [Memory.read_copyBelow, if_pos h]
  · rw [Memory.read_copyBelow, if_neg (by omega)]

/-! ### LOAD_PROGRAM (60_exceptions.md R330) -/

theorem hostStep_loadProgram {s : State} (hn : s.rstate ≠ .running) {ws : List Int} (hw : ∀ w ∈ ws, s.cfg.InRange w) :
    hostStep (.loadProgram ws) s =
      if s.cfg.memWords < ws.length then .next (s.answer .tooLong)
      else .next (State.answer { s with
        prog := Memory.copyBelow ws.length (Memory.ofWords 0 ws) s.prog, plen := ws.length } .ok) := by
  have hfind : ws.find? (fun w => decide (¬ s.cfg.InRange w)) = none :=
    List.find?_eq_none.2 fun w hmem => by simpa using hw w hmem
  rw [hostStep, hostLoadProgram, State.unlessRing_not hn, hfind]

theorem Memory.read_ofWords_zero {ws : List Int} {j : Nat} {w : Int} (h : ws[j]? = some w) :
    (Memory.ofWords 0 ws).read j = w := by
  have hread := Memory.read_ofWords 0 j ws
  rwa [Nat.zero_add, List.getD_eq_getElem?_getD, h, Option.getD_some] at hread

/-- Settles O42: the store is written by copying the words' memory below their number. -/
theorem loadProgramFollowsItsRule : Obligations.LoadProgramFollowsItsRule := by
  unfold Obligations.LoadProgramFollowsItsRule
  intro s ws hw
  refine ⟨fun hr => hostStep_busy hr nofun, fun hn hl => ?_, fun hn hl =>
    ⟨Memory.copyBelow ws.length (Memory.ofWords 0 ws) s.prog, ?_, fun j w hj => ?_, fun j hj => ?_⟩⟩
  · rw [hostStep_loadProgram hn hw, if_pos hl]
  · rw [hostStep_loadProgram hn hw, if_neg (by omega)]
  · have hlt : j < ws.length := (List.getElem?_eq_some_iff.1 hj).1
    rw [Memory.read_copyBelow, if_pos hlt, Memory.read_ofWords_zero hj]
  · rw [Memory.read_copyBelow, if_neg (by omega)]

/-! ### The order of events (60_exceptions.md R324) -/

/-- Settles O58: what is coming is taken before the round robin is asked. -/
theorem anyEventMayComeNext : Obligations.AnyEventMayComeNext := by
  unfold Obligations.AnyEventMayComeNext
  intro s e rest hp
  exact step_of_nextEvent (State.nextEvent_pending hp)

end Sys2Proof.Machine
end

section
/-! SUPPORT. The step of an engine as one function of its instance: the faults it takes (60_exceptions.md R301), and
why the engines of two instances do not meet (R360). -/

namespace Sys2Proof.Machine

/-! ### A fault (60_exceptions.md R301) -/

theorem InstrEffect.faults {c : Config} {m m' : Instance} {i : Instr} (he : InstrEffect c m i m')
    (hr : m.state = .running) (hf : m'.state = .faulted) : ∃ t : Trap, t.cause ≠ .noFault ∧ m' = m.raise t := by
  cases he with
  | faulted i t hcause => exact ⟨t, by rcases hcause with e | e | e | e <;> simp [e], rfl⟩
  | suspended | halted => cases hf
  | stored | took | gave | jumped | passed =>
    have hsame : m.state = .faulted := hf
    simp [hr] at hsame

theorem Instance.fetchTrap_cause (m : Instance) (e : DecodeError) : (m.fetchTrap e).cause ≠ .noFault := by
  cases e <;> simp [Instance.fetchTrap]

/-- A running instance that its engine's step leaves FAULTED has taken a fault with a cause. -/
theorem EngineEffect.faults {c : Config} {m m' : Instance} (he : EngineEffect c m m') (hr : m.state = .running)
    (hf : m'.state = .faulted) : ∃ t : Trap, t.cause ≠ .noFault ∧ m' = m.raise t := by
  cases he with
  | stopped e he => exact ⟨_, m.fetchTrap_cause e, rfl⟩
  | executed i rest m' hd he => exact he.faults hr hf

/-- The step of an active engine, as the next event, sets its instance by one of its effects. -/
theorem step_engineEffect {s t s' : State} {k : Nat} {m : Instance} (hn : s.nextEvent = some (.engine k, t))
    (hm : t.insts[k]? = some m) (ha : m.active = true) (h : step s = .next s') :
    ∃ m', EngineEffect t.cfg m m' ∧ s' = State.setInst { t with cur := k } k m' := by
  rw [step_of_nextEvent hn] at h
  obtain ⟨n, hm', he⟩ := State.engineStep_effect (k := k) h
  obtain rfl := Option.some.inj (hm.symm.trans hm')
  exact (he.resolve_left fun hidle => by simp [ha] at hidle).2

/-- Settles O25: what is left FAULTED has taken a fault, `Instance.raise` says what that writes, and it clears
ACTIVE. -/
theorem faultsArePrecise : Obligations.FaultsArePrecise := by
  unfold Obligations.FaultsArePrecise
  intro s t s' k m m' hn hm ha hr hstep hm' hf
  obtain ⟨-, hinsts, -⟩ := State.nextEvent_fields hn
  obtain ⟨n, he, rfl⟩ := step_engineEffect hn hm ha hstep
  obtain rfl := Option.some.inj ((State.setInst_same (s := { t with cur := k }) hm n).symm.trans hm')
  obtain ⟨trap, hcause, rfl⟩ := he.faults hr hf
  exact ⟨m.raise_faultedAs trap, hcause, fun j hj => by rw [State.setInst_other hj, hinsts], rfl,
    State.engineStep_inactive hm' rfl⟩

/-! ### The engine's step as a function (40_execution_cycle.md R143) -/

/-- What the step of its engine makes of an instance: nothing while it is not active, else the effect of the
instruction fetched, or the fault. -/
def Instance.stepped (c : Config) (m : Instance) : Instance :=
  if m.active then m.conclude (m.fetch.bind fun i => effect i c m) else m

/-- An engine's step sets its instance to what `Instance.stepped` says, and `cur`. -/
theorem State.engineStep_eq {s : State} {k : Nat} {m : Instance} (hm : s.insts[k]? = some m) :
    ∃ x, s.engineStep k = .next { s.setInst k (m.stepped s.cfg) with cur := x } := by
  unfold Instance.stepped
  cases ha : m.active with
  | false =>
    refine ⟨s.cur, ?_⟩
    rw [State.engineStep_inactive hm ha, if_neg (by simp), State.setInst_self hm]
  | true =>
    refine ⟨k, ?_⟩
    rw [State.engineStep_active hm ha, if_pos rfl]
    cases m.fetch <;> rfl

theorem State.engineStep_next {s s' : State} {k : Nat} (h : s.engineStep k = .next s') :
    ∃ m x, s.insts[k]? = some m ∧ s' = { s.setInst k (m.stepped s.cfg) with cur := x } := by
  obtain ⟨m, hm, -⟩ := State.onInst_next h
  obtain ⟨x, hx⟩ := State.engineStep_eq hm
  exact ⟨m, x, hm, by simpa using h.symm.trans hx⟩

/-- Settles O32: each engine's step sets its own instance by that instance and the parameters alone. -/
theorem engineStepsOfDifferentInstancesCommute : Obligations.EngineStepsOfDifferentInstancesCommute := by
  unfold Obligations.EngineStepsOfDifferentInstancesCommute
  intro s a b i j hij ha hb
  obtain ⟨m, x, hm, rfl⟩ := State.engineStep_next ha
  obtain ⟨n, y, hn, rfl⟩ := State.engineStep_next hb
  have hn : s.insts[j]? = some n := (State.setInst_other (Ne.symm hij) _).symm.trans hn
  obtain ⟨z, hz⟩ := State.engineStep_eq hn
  obtain ⟨w, hw⟩ := State.engineStep_eq (s := { s.setInst j (n.stepped s.cfg) with cur := z }) (m := m)
    ((State.setInst_other hij _).trans hm)
  have hcomm : (s.insts.set j (n.stepped s.cfg)).set i (m.stepped s.cfg) =
      (s.insts.set i (m.stepped s.cfg)).set j (n.stepped s.cfg) := List.set_comm _ _ (Ne.symm hij)
  exact ⟨_, _, hz, hw, hcomm, by simp [State.setInst, hcomm]⟩

end Sys2Proof.Machine
end

section
/-! SUPPORT. RING_START and the visits of the scheduler (60_exceptions.md R341 to R352), each as one equation, and what
they leave alone. -/

namespace Sys2Proof.Machine

/-! ### RING_START (60_exceptions.md R341) -/

/-- The block as a RING_START that goes ahead leaves it, but for the answer. -/
def State.ringStarted (s : State) : State :=
  { s with
    insts := s.insts.mapIdx s.ringMember, carried := s.seed, ringCur := 0, rfault := .noFault, ringFaultInst := 0,
    rstate := .running, rphase := .issue }

theorem hostStep_ringStart {s : State} (hn : s.rstate ≠ .running) :
    hostStep .ringStart s =
      if s.ringStartLegal then .next (s.ringStarted.answer .ok) else .next (s.answer .illegal) := by
  rw [hostStep, hostRingStart, State.unlessRing_not hn, State.ringStarted]

/-- RING_START answers OK only when it goes ahead. -/
theorem hostStep_ringStart_ok {s s' : State} (h : hostStep .ringStart s = .next s') (hok : s'.reply = some .ok) :
    s' = s.ringStarted.answer .ok := by
  by_cases hr : s.rstate = .running
  · rw [hostStep_busy (op := .ringStart) hr nofun] at h
    obtain rfl : s.answer .busy = s' := by simpa using h
    simp at hok
  · rw [hostStep_ringStart hr] at h
    split at h
    · simpa using h.symm
    · obtain rfl : s.answer .illegal = s' := by simpa using h
      simp at hok

theorem State.ringStarted_get (s : State) (j : Nat) : s.ringStarted.insts[j]? = (s.insts[j]?).map (s.ringMember j) := by
  simp [State.ringStarted]

theorem State.ringMember_inside {s : State} {j : Nat} (hj : j < s.ringN) (m : Instance) :
    s.ringMember j m = (m.instantiate s.prog s.plen).pushInput (s.phase.getD j 0) := if_pos hj

theorem State.ringMember_outside {s : State} {j : Nat} (hj : s.ringN ≤ j) (m : Instance) : s.ringMember j m = m :=
  if_neg (by omega)

theorem State.ringStarted_outside {s : State} {j : Nat} (hj : s.ringN ≤ j) :
    s.ringStarted.insts[j]? = s.insts[j]? := by
  rw [State.ringStarted_get, funext (State.ringMember_outside hj), Option.map_id']

/-- Settles O44: RING_START goes ahead exactly when it is legal, and then acts on each member by `State.ringMember`. -/
theorem ringStartFollowsItsRule : Obligations.RingStartFollowsItsRule := by
  unfold Obligations.RingStartFollowsItsRule
  intro s
  refine ⟨fun hr => hostStep_busy hr nofun, fun hn hbad => ?_, fun hn hN hidle => ⟨s.ringStarted.insts, ?_,
    fun j m v hj hm hv => ?_, fun j hj => State.ringStarted_outside hj⟩⟩
  · rw [hostStep_ringStart hn, if_neg fun hlegal => ?_]
    obtain ⟨hN, hidle⟩ := s.ringStartLegal_iff.1 hlegal
    rcases hbad with hbad | ⟨j, m, hj, hm, ha⟩
    · exact hbad hN
    · simp [hidle j m hj hm] at ha
  · rw [hostStep_ringStart hn, if_pos (s.ringStartLegal_iff.2 ⟨hN, hidle⟩)]
    rfl
  · rw [State.ringStarted_get, hm, Option.map_some, State.ringMember_inside hj, List.getD_eq_getElem?_getD, hv,
      Option.getD_some]
    rfl

/-! ### Resuming a member (60_exceptions.md R344) -/

theorem Instance.resume_of_startable {m : Instance} (ha : m.active = false)
    (hs : m.state = .running ∨ m.state = .suspendedOnInput) : m.resume = (m.start, .started) := by
  rcases hs with hs | hs
  · simp [Instance.resume, Instance.start, ha, hs]
  · exact Instance.resume_suspended hs ha

/-! ### The scheduler's step, case by case (60_exceptions.md R344) -/

theorem State.schedulerStep_idle {s : State} (hr : s.rstate ≠ .running) : s.schedulerStep = .next s := by
  rw [State.schedulerStep, if_neg hr]

section
variable {s : State} {m : Instance} (hr : s.rstate = .running) (hm : s.insts[s.ringCur]? = some m)
include hr hm

theorem State.schedulerStep_issue (hp : s.rphase = .issue) :
    s.schedulerStep =
      if m.state = .halted then .next { s with rphase := .collect }
      else if m.iq.length = s.cfg.inDepth then
        .next { s with rstate := .faulted, rfault := .inputFull, ringFaultInst := s.ringCur }
      else .next { s.setInst s.ringCur (m.pushInput s.carried).resume.1 with rphase := .collect } := by
  have hstep : s.schedulerStep = s.ringIssue := by rw [State.schedulerStep, if_pos hr, hp]
  rw [hstep, State.ringIssue, State.onInst_some hm]

theorem State.schedulerStep_collect (hp : s.rphase = .collect) :
    s.schedulerStep =
      if m.active then .next s
      else if m.state = .faulted then
        .next { s with rstate := .faulted, rfault := .instanceFault, ringFaultInst := s.ringCur }
      else .next (s.ringPop m).ringAdvance := by
  have hstep : s.schedulerStep = s.ringCollect := by rw [State.schedulerStep, if_pos hr, hp]
  rw [hstep, State.ringCollect, State.onInst_some hm]

end

/-! ### The end of a visit (60_exceptions.md R344, R345, R348) -/

@[simp] theorem State.ringPop_ringN (s : State) (m : Instance) : (s.ringPop m).ringN = s.ringN := by
  rcases s.ringPop_cases m with ⟨-, e⟩ | ⟨v, rest, -, e⟩ <;> rw [e]
  rfl

@[simp] theorem State.ringPop_ringCur (s : State) (m : Instance) : (s.ringPop m).ringCur = s.ringCur := by
  rcases s.ringPop_cases m with ⟨-, e⟩ | ⟨v, rest, -, e⟩ <;> rw [e]
  rfl

@[simp] theorem State.ringPop_rfault (s : State) (m : Instance) : (s.ringPop m).rfault = s.rfault := by
  rcases s.ringPop_cases m with ⟨-, e⟩ | ⟨v, rest, -, e⟩ <;> rw [e]
  rfl

theorem State.ringPop_insts (s : State) (m : Instance) :
    (s.ringPop m).insts = s.insts ∨ (s.ringPop m).insts = s.insts.set s.ringCur m.popOutput := by
  rcases s.ringPop_cases m with ⟨-, e⟩ | ⟨v, rest, -, e⟩ <;> rw [e]
  · exact .inl rfl
  · exact .inr rfl

/-- Collecting an output touches no other instance than the one visited. -/
theorem State.ringPop_other {s : State} {j : Nat} (hj : j ≠ s.ringCur) (m : Instance) :
    (s.ringPop m).insts[j]? = s.insts[j]? := by
  rcases s.ringPop_insts m with e | e <;> rw [e]
  exact List.getElem?_set_ne (Ne.symm hj)

/-- Collecting an output leaves the member visited as it was or without its oldest output. -/
theorem State.ringPop_visited {s : State} {m n : Instance} (hm : s.insts[s.ringCur]? = some m)
    (hn : (s.ringPop m).insts[s.ringCur]? = some n) : n = m ∨ n = m.popOutput := by
  rcases s.ringPop_insts m with e | e <;> rw [e] at hn
  · exact .inl (Option.some.inj (hn.symm.trans hm))
  · exact .inr (Option.some.inj (hn.symm.trans (State.setInst_same hm _)))

/-- Whether every member is HALTED depends on the members' STATE alone. -/
theorem State.ringAllHalted_congr {s t : State} (hN : t.ringN = s.ringN)
    (h : ∀ j, j < s.ringN → (t.insts[j]?).map Instance.state = (s.insts[j]?).map Instance.state) :
    t.ringAllHalted = s.ringAllHalted := by
  have hall (u : State) : u.ringAllHalted =
      ((u.insts.take u.ringN).map Instance.state).all fun x => decide (x = .halted) := by
    rw [State.ringAllHalted, List.all_map]
    rfl
  have hmap : (t.insts.take s.ringN).map Instance.state = (s.insts.take s.ringN).map Instance.state := by
    refine List.ext_getElem? fun j => ?_
    rw [List.getElem?_map, List.getElem?_map, List.getElem?_take, List.getElem?_take]
    split
    · exact h j ‹_›
    · rfl
  rw [hall, hall, hN, hmap]

/-- Collecting an output changes no STATE. -/
theorem State.ringPop_ringAllHalted {s : State} {m : Instance} (hm : s.insts[s.ringCur]? = some m) :
    (s.ringPop m).ringAllHalted = s.ringAllHalted := by
  refine State.ringAllHalted_congr (s.ringPop_ringN m) fun j _ => ?_
  by_cases hj : j = s.ringCur
  · subst hj
    rcases s.ringPop_insts m with e | e <;> rw [e]
    rw [List.getElem?_set_self (List.getElem?_eq_some_iff.1 hm).1, hm]
    rfl
  · rw [State.ringPop_other hj]

@[simp] theorem State.ringAdvance_insts (s : State) : s.ringAdvance.insts = s.insts := by
  rcases s.ringAdvance_cases with ⟨-, e⟩ | ⟨-, e⟩ <;> rw [e]

theorem State.ringAdvance_done {s : State} (h : s.ringAllHalted = true) : s.ringAdvance = { s with rstate := .done } :=
  if_pos h

theorem State.ringAdvance_next {s : State} (h : s.ringAllHalted ≠ true) :
    s.ringAdvance = { s with ringCur := (s.ringCur + 1) % s.ringN, rphase := .issue } :=
  if_neg h

/-- Settles O45: each case is one of the two equations of the scheduler's step; what COLLECT pops changes no STATE, so
that DONE is decided on the members as they were. -/
theorem ringVisitFollowsItsRule : Obligations.RingVisitFollowsItsRule := by
  unfold Obligations.RingVisitFollowsItsRule
  intro s m hr hm
  refine ⟨fun hp => ⟨fun hh => ?_, fun hh hl => ?_, fun ha hs hl => ?_⟩,
    fun hp => ⟨fun ha => ?_, fun ha hf => ?_, fun ha hf => ⟨s.ringPop m, fun hq => ?_, fun v rest hq => ?_,
      fun hall => ?_, fun ⟨j, n, hj, hn, hne⟩ => ?_⟩⟩⟩
  · rw [State.schedulerStep_issue hr hm hp, if_pos hh]
  · rw [State.schedulerStep_issue hr hm hp, if_neg hh, if_pos hl]
  · have hh : m.state ≠ .halted := by rcases hs with hs | hs <;> simp [hs]
    rw [State.schedulerStep_issue hr hm hp, if_neg hh, if_neg hl,
      Instance.resume_of_startable (m := m.pushInput _) ha hs]
    rfl
  · rw [State.schedulerStep_collect hr hm hp, if_pos ha]
  · rw [State.schedulerStep_collect hr hm hp, ha, if_neg Bool.false_ne_true, if_pos hf]
  · rw [State.ringPop, hq]
  · rw [State.ringPop, hq, Instance.popOutput, hq, List.tail_cons]
  · rw [State.schedulerStep_collect hr hm hp, ha, if_neg Bool.false_ne_true, if_neg hf, State.ringAdvance_done]
    rw [State.ringPop_ringAllHalted hm]
    exact s.ringAllHalted_iff.2 hall
  · rw [State.schedulerStep_collect hr hm hp, ha, if_neg Bool.false_ne_true, if_neg hf, State.ringAdvance_next,
      State.ringPop_ringCur, State.ringPop_ringN]
    rw [State.ringPop_ringAllHalted hm]
    exact fun hall => hne (s.ringAllHalted_iff.1 hall j n hj hn)

/-! ### The end of the ring (60_exceptions.md R345) -/

theorem HostEffect.not_done {s s' : State} {op : HostOp} (he : HostEffect s op s') (h : s.rstate ≠ .done) :
    s'.rstate ≠ .done := by
  cases he with
  | answered | loaded | instantiated | pushed | popped | resumed | wroteRingN | wroteSeed | wrotePhase => exact h
  | ringStarted => simp

/-- The scheduler makes the ring DONE at a COLLECT, when every member is HALTED. -/
theorem SchedulerEffect.done {s s' : State} (he : SchedulerEffect s s') (h : s.rstate ≠ .done)
    (h' : s'.rstate = .done) : s.rstate = .running ∧ s'.ringN = s.ringN ∧ s'.ringAllHalted = true := by
  cases he with
  | waited | skipped | issued => exact absurd h' h
  | full | stopped => cases h'
  | collected m hr hp hm ha hf =>
    rcases (s.ringPop m).ringAdvance_cases with ⟨hall, e⟩ | ⟨-, e⟩
    · rw [e]
      exact ⟨hr, s.ringPop_ringN m, hall⟩
    · rw [e] at h'
      simp [hr] at h'

/-- Settles O46: no host operation, engine or reset makes RSTATE DONE, and the scheduler does when every member is
HALTED. -/
theorem ringIsDoneOnlyWhenAllHalted : Obligations.RingIsDoneOnlyWhenAllHalted := by
  unfold Obligations.RingIsDoneOnlyWhenAllHalted
  intro s s' h hnot hdone
  rcases step_cases h with ⟨-, rfl⟩ | ⟨e, t, hn, hc⟩
  · exact absurd hdone hnot
  obtain ⟨-, -, -, -, hrs, -, hrn, -⟩ := State.nextEvent_fields hn
  rw [← hrs] at hnot ⊢
  rcases hc with ⟨op, -, he⟩ | ⟨k, -, he⟩ | ⟨rfl, he⟩ | ⟨-, rfl⟩
  · exact absurd hdone (he.not_done hnot)
  · obtain ⟨m, x, -, rfl⟩ := State.engineStep_next he
    exact absurd hdone hnot
  · obtain ⟨hr, hN, hall⟩ := he.done hnot hdone
    exact ⟨⟨t, hn⟩, hr, hN.trans hrn, s'.ringAllHalted_iff.1 hall⟩
  · cases hdone

/-! ### Instances outside the ring (60_exceptions.md R352) -/

/-- The scheduler touches the member it visits and no other. -/
theorem SchedulerEffect.other {s s' : State} (he : SchedulerEffect s s') {k : Nat}
    (hk : s.rstate = .running → k ≠ s.ringCur) : s'.insts[k]? = s.insts[k]? := by
  cases he with
  | waited | skipped | full | stopped => rfl
  | issued m hr => exact State.setInst_other (hk hr) _
  | collected m hr => rw [State.ringAdvance_insts, State.ringPop_other (hk hr)]

theorem HostEffect.ringStart_outside {s s' : State} (he : HostEffect s .ringStart s') {k : Nat} (hk : s.ringN ≤ k) :
    s'.insts[k]? = s.insts[k]? := by
  cases he with
  | answered => rfl
  | ringStarted => exact State.ringStarted_outside hk

/-- Settles O47: the scheduler visits members alone, and RING_START renews members alone. -/
theorem instancesOutsideTheRingAreUntouched : Obligations.InstancesOutsideTheRingAreUntouched := by
  unfold Obligations.InstancesOutsideTheRingAreUntouched
  intro s s' k hk hcur h
  rcases h with h | h
  · refine (State.schedulerStep_cases h).other fun hr => ?_
    have := hcur hr
    omega
  · exact (hostStep_cases h).ringStart_outside hk

end Sys2Proof.Machine
end

section
/-! SUPPORT. The invariant of a ring run (60_exceptions.md R349): RING_START establishes it, and each visit and each
engine's step keeps it, so that ISSUE never meets a full input queue. -/

namespace Sys2Proof.Machine

/-! ### Members -/

theorem Instance.Waiting.visited {m : Instance} (h : m.Waiting) (hs : m.state ≠ .running) : m.Visited := by
  intro _
  rcases h.2 with h | ⟨h, -⟩ | h
  · exact .inl h
  · exact absurd h hs
  · exact .inr (.inr h)

/-- A member whose run has ended without a fault waits for its next visit. -/
theorem Instance.Visited.waiting {m : Instance} (h : m.Visited) (ha : m.active = false) (hf : m.state ≠ .faulted) :
    m.Waiting := by
  rcases h ha with h | h | h
  · exact ⟨ha, .inl h⟩
  · exact absurd h hf
  · exact ⟨ha, .inr (.inr h)⟩

theorem Instance.Waiting.popOutput {m : Instance} (h : m.Waiting) : m.popOutput.Waiting := h

/-- A member that waits has at most one value in its input queue, unless it is halted (60_exceptions.md R349). -/
theorem Instance.Waiting.iq_length_le_one {m : Instance} (h : m.Waiting) (hh : m.state ≠ .halted) :
    m.iq.length ≤ 1 := by
  rcases h.2 with hs | ⟨-, hq⟩ | ⟨-, hq⟩
  · exact absurd hs hh
  · exact Nat.le_of_eq hq
  · simp [hq]

/-- A member that waits and has not halted is started by RESUME, with whatever has been queued. -/
theorem Instance.Waiting.issued_visited {m : Instance} (h : m.Waiting) (hh : m.state ≠ .halted) (v : Int) :
    (m.pushInput v).resume.1.Visited := by
  have hs : m.state = .running ∨ m.state = .suspendedOnInput := by
    rcases h.2 with hs | ⟨hs, -⟩ | ⟨hs, -⟩
    · exact absurd hs hh
    · exact .inl hs
    · exact .inr hs
  rw [Instance.resume_of_startable (m := m.pushInput v) h.1 hs]
  exact fun ha => nomatch ha

/-- A member as RING_START leaves it has not been visited and has its phase queued. -/
theorem State.ringMember_waiting {s : State} {j : Nat} (hj : j < s.ringN) (m : Instance) :
    (s.ringMember j m).Waiting := by
  rw [State.ringMember_inside hj]
  exact ⟨rfl, .inr (.inl ⟨rfl, rfl⟩)⟩

theorem InstrEffect.visited {c : Config} {m m' : Instance} {i : Instr} (he : InstrEffect c m i m')
    (ha : m.active = true) : m'.Visited := by
  intro ha'
  cases he with
  | faulted => exact .inr (.inl rfl)
  | suspended d hq => exact .inr (.inr ⟨rfl, hq⟩)
  | halted => exact .inl rfl
  | stored | took | gave | jumped | passed =>
    have hsame : m.active = false := ha'
    simp [ha] at hsame

/-- When its engine's step ends the run of an instance, it has halted, faulted, or found its input queue empty. -/
theorem EngineEffect.visited {c : Config} {m m' : Instance} (he : EngineEffect c m m') (ha : m.active = true) :
    m'.Visited := by
  cases he with
  | stopped => exact fun _ => .inr (.inl rfl)
  | executed i rest m' hd he => exact he.visited ha

/-! ### The block -/

section
variable {s s' : State}

theorem State.RingOk.nextEvent (h : s.RingOk) {e : Event} {t : State} (hn : s.nextEvent = some (e, t)) : t.RingOk := by
  rw [State.nextEvent_same hn]
  exact { h with }

/-- Outside ring mode the invariant asks for RFAULT alone. -/
theorem State.ringOk_of_not_running (hf : s.rfault ≠ .inputFull) (hr : s.rstate ≠ .running) : s.RingOk where
  neverFull := hf
  members := fun h => absurd h hr

/-- Between visits every member waits. -/
theorem State.ringOk_of_waiting (hf : s.rfault ≠ .inputFull) (hp : s.rphase = .issue)
    (h : ∀ j m, j < s.ringN → s.insts[j]? = some m → m.Waiting) : s.RingOk where
  neverFull := hf
  members := fun _ j m hj hm => by
    rw [if_neg (by simp [hp])]
    exact h j m hj hm

/-- During a visit every member but the one visited waits. -/
theorem State.ringOk_of_visiting (hf : s.rfault ≠ .inputFull) (hp : s.rphase = .collect)
    (hcur : ∀ m, s.insts[s.ringCur]? = some m → m.Visited)
    (h : ∀ j m, j < s.ringN → j ≠ s.ringCur → s.insts[j]? = some m → m.Waiting) : s.RingOk where
  neverFull := hf
  members := fun _ j m hj hm => by
    by_cases hj' : j = s.ringCur
    · rw [if_pos ⟨hj', hp⟩]
      exact hcur m (hj' ▸ hm)
    · rw [if_neg fun hc => hj' hc.1]
      exact h j m hj hj' hm

theorem State.RingOk.waiting (h : s.RingOk) (hr : s.rstate = .running) {j : Nat} {m : Instance} (hj : j < s.ringN)
    (hm : s.insts[j]? = some m) (hc : j ≠ s.ringCur ∨ s.rphase = .issue) : m.Waiting := by
  have hmem := h.members hr j m hj hm
  rwa [if_neg (by rcases hc with hc | hc <;> simp [hc])] at hmem

theorem State.RingOk.visited (h : s.RingOk) (hr : s.rstate = .running) (hp : s.rphase = .collect) {m : Instance}
    (hN : s.ringCur < s.ringN) (hm : s.insts[s.ringCur]? = some m) : m.Visited := by
  have hmem := h.members hr _ m hN hm
  rwa [if_pos ⟨rfl, hp⟩] at hmem

/-- An active member is the one being visited. -/
theorem State.RingOk.of_active (h : s.RingOk) (hr : s.rstate = .running) {j : Nat} {m : Instance} (hj : j < s.ringN)
    (hm : s.insts[j]? = some m) (ha : m.active = true) : j = s.ringCur ∧ s.rphase = .collect := by
  by_contra hc
  have hmem := h.members hr j m hj hm
  rw [if_neg hc] at hmem
  simp [hmem.1] at ha

/-! ### Every step keeps the invariant -/

theorem HostEffect.ringOk {op : HostOp} (he : HostEffect s op s') (h : s.RingOk) : s'.RingOk := by
  cases he with
  | answered => exact { h with }
  | loaded _ hn | instantiated _ _ hn | pushed _ _ _ hn | popped _ _ _ _ hn | resumed _ _ hn | wroteRingN _ hn
  | wroteSeed _ hn | wrotePhase _ _ hn => exact State.ringOk_of_not_running h.neverFull hn
  | ringStarted =>
    refine State.ringOk_of_waiting (by simp) rfl fun j m hj hm => ?_
    obtain ⟨n, -, rfl⟩ := Option.map_eq_some_iff.1 ((s.ringStarted_get j).symm.trans hm)
    exact State.ringMember_waiting hj n

theorem State.RingOk.engineStep (h : s.RingOk) {k : Nat} (he : s.engineStep k = .next s') : s'.RingOk := by
  obtain ⟨m, hm, ⟨-, rfl⟩ | ⟨ha, m', heff, rfl⟩⟩ := State.engineStep_effect he
  · exact h
  · refine ⟨h.neverFull, fun hr j n hj hn => ?_⟩
    rcases State.setInst_get hn with ⟨rfl, rfl⟩ | ⟨-, hn⟩
    · exact (if_pos (h.of_active hr hj hm ha)).mpr (heff.visited ha)
    · exact h.members hr j n hj hn

/-- The end of a visit leaves all members waiting. -/
theorem State.RingOk.collected (h : s.RingOk) (hr : s.rstate = .running) (hp : s.rphase = .collect)
    (hN : s.ringCur < s.ringN) {m : Instance} (hm : s.insts[s.ringCur]? = some m) (ha : m.active = false)
    (hf : m.state ≠ .faulted) : (s.ringPop m).ringAdvance.RingOk := by
  have hfull : (s.ringPop m).rfault ≠ .inputFull := by
    rw [State.ringPop_rfault]
    exact h.neverFull
  have hwait : m.Waiting := (h.visited hr hp hN hm).waiting ha hf
  rcases (s.ringPop m).ringAdvance_cases with ⟨-, e⟩ | ⟨-, e⟩ <;> rw [e]
  · exact State.ringOk_of_not_running hfull (by simp)
  · refine State.ringOk_of_waiting hfull rfl fun j n hj hn => ?_
    by_cases hj' : j = s.ringCur
    · rcases State.ringPop_visited hm (hj' ▸ hn) with rfl | rfl
      · exact hwait
      · exact hwait.popOutput
    · exact h.waiting hr (s.ringPop_ringN m ▸ hj) ((State.ringPop_other hj' m).symm.trans hn) (.inl hj')

theorem SchedulerEffect.ringOk (he : SchedulerEffect s s') (h : s.RingOk) (hs : s.Ok) : s'.RingOk := by
  cases he with
  | waited => exact h
  | skipped m hr hp hm hh =>
    have hwait := h.waiting hr (hs.ringCurMember hr) hm (.inr hp)
    refine State.ringOk_of_visiting h.neverFull rfl (fun n hn => ?_)
      fun j n hj _ hn => h.waiting hr hj hn (.inr hp)
    obtain rfl := Option.some.inj (hm.symm.trans hn)
    exact hwait.visited (by simp [hh])
  | full m hr hp hm hh hl =>
    have hle := (h.waiting hr (hs.ringCurMember hr) hm (.inr hp)).iq_length_le_one hh
    have hroom := hs.legal.two_le_inDepth
    omega
  | issued m hr hp hm hh hl =>
    have hwait := h.waiting hr (hs.ringCurMember hr) hm (.inr hp)
    refine State.ringOk_of_visiting h.neverFull rfl (fun n hn => ?_) fun j n hj hne hn => ?_
    · obtain rfl := Option.some.inj ((State.setInst_same hm _).symm.trans hn)
      exact hwait.issued_visited hh s.carried
    · exact h.waiting hr hj ((State.setInst_other hne _).symm.trans hn) (.inr hp)
  | stopped => exact State.ringOk_of_not_running (by simp) (by simp)
  | collected m hr hp hm ha hf => exact h.collected hr hp (hs.ringCurMember hr) hm ha hf

end

/-- Settles O53: each kind of event keeps the invariant; at ISSUE it leaves at most one value in the member's queue,
which holds two. -/
theorem theRingNeverMeetsAFullInputQueue : Obligations.TheRingNeverMeetsAFullInputQueue := by
  unfold Obligations.TheRingNeverMeetsAFullInputQueue
  intro s s' hs h hstep
  rcases step_cases hstep with ⟨-, rfl⟩ | ⟨e, t, hn, hc⟩
  · exact h
  have ht := h.nextEvent hn
  rcases hc with ⟨op, -, he⟩ | ⟨k, -, he⟩ | ⟨-, he⟩ | ⟨-, rfl⟩
  · exact he.ringOk ht
  · exact ht.engineStep he
  · exact he.ringOk ht (hs.nextEvent hn)
  · exact State.ringOk_of_not_running (by simp) (by simp)

end Sys2Proof.Machine
end

section
/-! SUPPORT. Ring runs that are alike (60_exceptions.md R347): what an engine does to an instance depends on the words
below `L` alone, and what the scheduler does on the ring's registers and its members. -/

namespace Sys2Proof.Machine

/-! ### Alike instances: what is read -/

section
variable {m n : Instance}

theorem Instance.Alike.eq_withMem (h : m.Alike n) : n = { m with mem := n.mem } := h.2.2.1

theorem Instance.Alike.len_eq (h : m.Alike n) : n.len = m.len := (congrArg Instance.len h.eq_withMem :)
theorem Instance.Alike.ip_eq (h : m.Alike n) : n.ip = m.ip := (congrArg Instance.ip h.eq_withMem :)
theorem Instance.Alike.iq_eq (h : m.Alike n) : n.iq = m.iq := (congrArg Instance.iq h.eq_withMem :)
theorem Instance.Alike.oq_eq (h : m.Alike n) : n.oq = m.oq := (congrArg Instance.oq h.eq_withMem :)
theorem Instance.Alike.state_eq (h : m.Alike n) : n.state = m.state := (congrArg Instance.state h.eq_withMem :)
theorem Instance.Alike.active_eq (h : m.Alike n) : n.active = m.active := (congrArg Instance.active h.eq_withMem :)

theorem Instance.Alike.inBounds_eq (h : m.Alike n) (a : Int) : n.inBounds a = m.inBounds a := by
  rw [Instance.inBounds, Instance.inBounds, h.len_eq]

theorem Instance.Alike.wordAt_eq (h : m.Alike n) {a : Int} (ha : m.inBounds a = true) : n.wordAt a = m.wordAt a := by
  obtain ⟨h0, hlt⟩ := (m.inBounds_iff a).1 ha
  exact h.2.2.2 a.toNat (by omega)

theorem Instance.Alike.value_eq (h : m.Alike n) (o : Operand) : n.value o = m.value o := by
  obtain ⟨mode, p⟩ := o
  cases mode with
  | immediate => rfl
  | position =>
    rw [Instance.value_position, Instance.value_position, h.inBounds_eq]
    split
    · rw [h.wordAt_eq ‹_›]
    · rfl

theorem Instance.Alike.window_eq (h : m.Alike n) : n.window = m.window := by
  rw [Instance.window, Instance.window, h.ip_eq, funext h.inBounds_eq]
  exact List.map_congr_left fun a ha => h.wordAt_eq (List.mem_takeWhile_imp ha)

theorem Instance.Alike.fetch_eq (h : m.Alike n) : n.fetch = m.fetch := by
  have htrap : n.fetchTrap = m.fetchTrap := by
    funext e
    cases e <;> simp only [Instance.fetchTrap, h.ip_eq]
  rw [Instance.fetch, Instance.fetch, h.window_eq, htrap]

/-! ### Alike instances: what is written -/

/-- An update that neither looks at the memory nor writes it or `L` keeps instances alike. -/
theorem Instance.Alike.update (h : m.Alike n) {f : Instance → Instance}
    (hmem : ∀ x p, f { x with mem := p } = { f x with mem := p }) (hlen : (f m).len = m.len) :
    (f m).Alike (f n) := by
  obtain ⟨hm, hn, he, hread⟩ := h
  have hfm : (f m).mem = m.mem := (congrArg Instance.mem (hmem m m.mem) :)
  have hfn : f n = { f m with mem := n.mem } := by
    rw [he]
    exact hmem m n.mem
  refine ⟨hfm ▸ hm, ?_, ?_, fun a ha => ?_⟩
  · rw [hfn]
    exact hn
  · rw [hfn]
  · rw [hfn, hfm]
    exact hread a (hlen ▸ ha)

theorem Instance.Alike.setWord (h : m.Alike n) (a v : Int) : (m.setWord a v).Alike (n.setWord a v) := by
  obtain ⟨hm, hn, he, hread⟩ := h
  refine ⟨Memory.wf_write hm _ v, Memory.wf_write hn _ v, ?_, fun x hx => ?_⟩
  · exact congrArg (fun y : Instance => { y with mem := n.mem.write a.toNat v }) he
  · by_cases hxa : x = a.toNat
    · rw [Instance.setWord_mem, Instance.setWord_mem, hxa, Memory.read_write_same hn, Memory.read_write_same hm]
    · rw [Instance.setWord_mem, Instance.setWord_mem, Memory.read_write_other _ _ hxa, Memory.read_write_other _ _ hxa]
      exact hread x hx

theorem Instance.Alike.advance (h : m.Alike n) (k : Int) : (m.advance k).Alike (n.advance k) :=
  h.update (f := (·.advance k)) (fun _ _ => rfl) rfl

theorem Instance.Alike.jump (h : m.Alike n) (t : Int) : (m.jump t).Alike (n.jump t) :=
  h.update (f := (·.jump t)) (fun _ _ => rfl) rfl

theorem Instance.Alike.raise (h : m.Alike n) (t : Trap) : (m.raise t).Alike (n.raise t) :=
  h.update (f := (·.raise t)) (fun _ _ => rfl) rfl

theorem Instance.Alike.suspend (h : m.Alike n) : m.suspend.Alike n.suspend := h.update (fun _ _ => rfl) rfl

theorem Instance.Alike.stop (h : m.Alike n) : m.stop.Alike n.stop := h.update (fun _ _ => rfl) rfl

theorem Instance.Alike.pushInput (h : m.Alike n) (v : Int) : (m.pushInput v).Alike (n.pushInput v) :=
  h.update (f := (·.pushInput v)) (fun _ _ => rfl) rfl

theorem Instance.Alike.pushOutput (h : m.Alike n) (v : Int) : (m.pushOutput v).Alike (n.pushOutput v) :=
  h.update (f := (·.pushOutput v)) (fun _ _ => rfl) rfl

theorem Instance.Alike.popInput (h : m.Alike n) : m.popInput.Alike n.popInput := h.update (fun _ _ => rfl) rfl

theorem Instance.Alike.popOutput (h : m.Alike n) : m.popOutput.Alike n.popOutput := h.update (fun _ _ => rfl) rfl

theorem Instance.Alike.resume (h : m.Alike n) : m.resume.1.Alike n.resume.1 := by
  refine h.update (f := fun x => x.resume.1) (fun x p => ?_) (by simp)
  obtain ⟨mem, len, ip, iq, oq, halted, state, active, fc, fi, fo⟩ := x
  cases active <;> cases state <;> rfl

/-! ### Alike instances: the step of an engine -/

/-- Two results of an instruction: alike instances, or the same fault. -/
def AlikeResults : Except Trap Instance → Except Trap Instance → Prop
  | .ok m, .ok n => m.Alike n
  | .error t, .error u => u = t
  | _, _ => False

theorem AlikeResults.error (t : Trap) : AlikeResults (.error t) (.error t) := rfl

theorem AlikeResults.map {r q : Except Trap Instance} (h : AlikeResults r q) {f : Instance → Instance}
    (hf : ∀ {m n : Instance}, m.Alike n → (f m).Alike (f n)) : AlikeResults (r.map f) (q.map f) := by
  match r, q, h with
  | .ok _, .ok _, h => exact hf h
  | .error _, .error _, h => exact h

theorem Instance.Alike.conclude (h : m.Alike n) {r q : Except Trap Instance} (hr : AlikeResults r q) :
    (m.conclude r).Alike (n.conclude q) := by
  match r, q, hr with
  | .ok _, .ok _, hr => exact hr
  | .error t, .error _, rfl => exact h.raise t

theorem Instance.Alike.store (h : m.Alike n) (d : Dest) (v : Int) : AlikeResults (m.store d v) (n.store d v) := by
  have hin := h.inBounds_eq d.addr
  rcases m.store_cases d v with ⟨hd, e⟩ | ⟨hd, e⟩ <;> rw [e]
  · rw [Instance.store_in (hin.trans hd)]
    exact h.setWord d.addr v
  · rw [Instance.store_out (hin.trans hd)]
    exact .error _

theorem Instance.Alike.binary (h : m.Alike n) (a b : Operand) (f : Int → Int → Except Trap Int) (d : Dest) :
    AlikeResults (m.binary a b f d) (n.binary a b f d) := by
  have hna := h.value_eq a
  have hnb := h.value_eq b
  cases ha : m.value a with
  | error t =>
    rw [Instance.binary_of_first_error ha, Instance.binary_of_first_error (hna.trans ha)]
    exact .error t
  | ok x =>
    cases hb : m.value b with
    | error t =>
      rw [Instance.binary_of_second_error ha hb, Instance.binary_of_second_error (hna.trans ha) (hnb.trans hb)]
      exact .error t
    | ok y =>
      rw [Instance.binary_of_values ha hb, Instance.binary_of_values (hna.trans ha) (hnb.trans hb)]
      cases f x y with
      | error t => exact .error t
      | ok r => exact (h.store d r).map fun h => h.advance 4

theorem Instance.Alike.branch (h : m.Alike n) (a b : Operand) (taken : Int → Bool) :
    AlikeResults (m.branch a b taken) (n.branch a b taken) := by
  have hna := h.value_eq a
  have hnb := h.value_eq b
  cases ha : m.value a with
  | error t =>
    rw [Instance.branch_of_cond_error ha, Instance.branch_of_cond_error (hna.trans ha)]
    exact .error t
  | ok c =>
    cases hb : m.value b with
    | error t =>
      rw [Instance.branch_of_target_error ha hb, Instance.branch_of_target_error (hna.trans ha) (hnb.trans hb)]
      exact .error t
    | ok t =>
      rw [Instance.branch_of_values ha hb, Instance.branch_of_values (hna.trans ha) (hnb.trans hb)]
      split
      · exact h.jump t
      · exact h.advance 3

theorem Instance.Alike.takeInput (h : m.Alike n) (d : Dest) : AlikeResults (m.takeInput d) (n.takeInput d) := by
  cases hq : m.iq with
  | nil =>
    rw [Instance.takeInput_empty hq, Instance.takeInput_empty (h.iq_eq.trans hq)]
    exact h.suspend
  | cons v rest =>
    rw [Instance.takeInput_of_value hq, Instance.takeInput_of_value (h.iq_eq.trans hq)]
    exact (h.store d v).map fun h => h.popInput.advance 2

theorem Instance.Alike.giveOutput (h : m.Alike n) (c : Config) (a : Operand) :
    AlikeResults (m.giveOutput c a) (n.giveOutput c a) := by
  have hna := h.value_eq a
  cases ha : m.value a with
  | error t =>
    rw [Instance.giveOutput_of_error ha, Instance.giveOutput_of_error (hna.trans ha)]
    exact .error t
  | ok x =>
    rw [Instance.giveOutput_of_value ha, Instance.giveOutput_of_value (hna.trans ha), h.oq_eq]
    split
    · exact .error _
    · exact (h.pushOutput x).advance 2

theorem Instance.Alike.effect (h : m.Alike n) (i : Instr) (c : Config) :
    AlikeResults (effect i c m) (effect i c n) := by
  cases i with
  | add a b d | mult a b d | lessThan a b d | equals a b d => exact h.binary a b _ d
  | jumpIfTrue a b | jumpIfFalse a b => exact h.branch a b _
  | input d => exact h.takeInput d
  | output a => exact h.giveOutput c a
  | halt => exact h.stop

theorem Instance.Alike.stepped (h : m.Alike n) (c : Config) : (m.stepped c).Alike (n.stepped c) := by
  rw [Instance.stepped, Instance.stepped, h.active_eq, h.fetch_eq]
  split
  · refine h.conclude ?_
    cases m.fetch with
    | error t => exact .error t
    | ok i => exact h.effect i c
  · exact h

end

/-! ### RING_START (60_exceptions.md R341) -/

/-- Instantiation from stores that read alike below PLEN leaves alike instances, whatever they were. -/
theorem Instance.instantiate_alike {m n : Instance} {p q : Memory} {l : Nat} (hp : p.wf) (hq : q.wf) (hm : m.mem.wf)
    (hn : n.mem.wf) (hread : ∀ a, a < l → p.read a = q.read a) : (m.instantiate p l).Alike (n.instantiate q l) := by
  refine ⟨Memory.wf_copyBelow hp hm l, Memory.wf_copyBelow hq hn l, rfl, fun a ha => ?_⟩
  have ha : a < l := ha
  rw [Instance.instantiate_mem, Instance.instantiate_mem, Memory.read_copyBelow, Memory.read_copyBelow, if_pos ha,
    if_pos ha, hread a ha]

theorem State.Ok.getElem?_member {s : State} (h : s.Ok) {j : Nat} (hj : j < s.ringN) :
    ∃ m, s.insts[j]? = some m ∧ m.Ok s.cfg := by
  have hlt : j < s.insts.length := h.instCount ▸ Nat.lt_of_lt_of_le hj h.ringNLegal.2
  exact ⟨_, List.getElem?_eq_getElem hlt, h.instOk _ (List.getElem_mem hlt)⟩

theorem State.ringStarted_alike {s t : State} (hs : s.Ok) (ht : t.Ok) (hcfg : s.cfg = t.cfg) (hplen : s.plen = t.plen)
    (hprog : ∀ a, a < s.plen → s.prog.read a = t.prog.read a) (hN : s.ringN = t.ringN) (hseed : s.seed = t.seed)
    (hphase : s.phase = t.phase) : (s.ringStarted.answer .ok).RingAlike (t.ringStarted.answer .ok) where
  cfg := hcfg.symm
  rstate := rfl
  rfault := rfl
  ringN := hN.symm
  ringCur := rfl
  carried := hseed.symm
  ringFaultInst := rfl
  rphase := rfl
  members := fun j hj => by
    have hj : j < s.ringN := hj
    have hj' : j < t.ringN := hN ▸ hj
    obtain ⟨m, hm, hmok⟩ := hs.getElem?_member hj
    obtain ⟨n, hn, hnok⟩ := ht.getElem?_member hj'
    refine ⟨s.ringMember j m, t.ringMember j n, ?_, ?_, ?_⟩
    · rw [State.answer_insts, State.ringStarted_get, hm, Option.map_some]
    · rw [State.answer_insts, State.ringStarted_get, hn, Option.map_some]
    · rw [State.ringMember_inside hj, State.ringMember_inside hj', ← hplen, ← hphase]
      exact (Instance.instantiate_alike hs.progWf ht.progWf hmok.memWf hnok.memWf hprog).pushInput _

/-! ### Alike blocks -/

section
variable {s t : State}

theorem State.RingAlike.setInst (h : s.RingAlike t) {k : Nat} (hk : k < s.ringN) {m n : Instance} (hmn : m.Alike n) :
    (s.setInst k m).RingAlike (t.setInst k n) :=
  { h with
    members := fun j hj => by
      obtain ⟨m₀, n₀, hm, hn, halike⟩ := h.members j hj
      by_cases hjk : j = k
      · subst hjk
        exact ⟨m, n, State.setInst_same hm m, State.setInst_same hn n, hmn⟩
      · exact ⟨m₀, n₀, (State.setInst_other hjk m).trans hm, (State.setInst_other hjk n).trans hn, halike⟩ }

theorem State.RingAlike.engineStep (h : s.RingAlike t) {k : Nat} (hk : k < s.ringN) {s' : State}
    (he : s.engineStep k = .next s') : ∃ t', t.engineStep k = .next t' ∧ s'.RingAlike t' := by
  obtain ⟨m₀, n, hm₀, hn, hmn⟩ := h.members k hk
  obtain ⟨m, x, hm, rfl⟩ := State.engineStep_next he
  obtain rfl := Option.some.inj (hm₀.symm.trans hm)
  obtain ⟨y, hy⟩ := State.engineStep_eq hn
  have hstepped : (s.setInst k (m₀.stepped s.cfg)).RingAlike (t.setInst k (n.stepped t.cfg)) :=
    h.setInst hk (h.cfg ▸ hmn.stepped s.cfg)
  exact ⟨_, hy, { hstepped with }⟩

theorem State.RingAlike.ringPop (h : s.RingAlike t) (hN : s.ringCur < s.ringN) {m n : Instance} (hmn : m.Alike n) :
    (s.ringPop m).RingAlike (t.ringPop n) := by
  rw [State.ringPop, State.ringPop, hmn.oq_eq, h.ringCur]
  cases m.oq with
  | nil => exact h
  | cons v rest => exact { h.setInst hN hmn.popOutput with carried := rfl }

theorem State.RingAlike.ringAllHalted_eq (h : s.RingAlike t) : t.ringAllHalted = s.ringAllHalted := by
  refine State.ringAllHalted_congr h.ringN fun j hj => ?_
  obtain ⟨m, n, hm, hn, hmn⟩ := h.members j hj
  rw [hm, hn, Option.map_some, Option.map_some, hmn.state_eq]

theorem State.RingAlike.ringAdvance (h : s.RingAlike t) : s.ringAdvance.RingAlike t.ringAdvance := by
  rw [State.ringAdvance, State.ringAdvance, h.ringAllHalted_eq]
  split
  · exact { h with rstate := rfl }
  · exact { h with
      ringCur := by simp only [h.ringCur, h.ringN]
      rphase := rfl }

/-- The ring stops with the same fault on the same member. -/
theorem State.RingAlike.ringFaulted (h : s.RingAlike t) (f : RingFault) :
    State.RingAlike { s with rstate := .faulted, rfault := f, ringFaultInst := s.ringCur }
      { t with rstate := .faulted, rfault := f, ringFaultInst := t.ringCur } :=
  { h with rstate := rfl, rfault := rfl, ringFaultInst := h.ringCur }

end

/-- Two outcomes: alike blocks. -/
def AlikeOutcomes (o p : Host.Outcome State Fault Refusal) : Prop :=
  ∀ s', o = .next s' → ∃ t', p = .next t' ∧ s'.RingAlike t'

theorem AlikeOutcomes.next {s t : State} (h : s.RingAlike t) : AlikeOutcomes (.next s) (.next t) := by
  rintro s' ⟨⟩
  exact ⟨t, rfl, h⟩

theorem State.RingAlike.schedulerStep {s t : State} (h : s.RingAlike t)
    (hN : s.rstate = .running → s.ringCur < s.ringN) : AlikeOutcomes s.schedulerStep t.schedulerStep := by
  by_cases hr : s.rstate = .running
  case neg =>
    rw [State.schedulerStep_idle hr, State.schedulerStep_idle (h.rstate ▸ hr)]
    exact .next h
  have hN := hN hr
  have hr' : t.rstate = .running := h.rstate.trans hr
  obtain ⟨m, n, hm, hn, hmn⟩ := h.members s.ringCur hN
  have hn : t.insts[t.ringCur]? = some n := h.ringCur ▸ hn
  cases hp : s.rphase with
  | issue =>
    have hissued : (s.setInst s.ringCur (m.pushInput s.carried).resume.1).RingAlike
        (t.setInst t.ringCur (n.pushInput t.carried).resume.1) := by
      rw [h.ringCur, h.carried]
      exact h.setInst hN (hmn.pushInput s.carried).resume
    have hfull : (n.iq.length = t.cfg.inDepth) = (m.iq.length = s.cfg.inDepth) := by rw [hmn.iq_eq, h.cfg]
    rw [State.schedulerStep_issue hr hm hp, State.schedulerStep_issue hr' hn (h.rphase.trans hp), hmn.state_eq]
    simp only [hfull]
    split
    · exact .next { h with rphase := rfl }
    split
    · exact .next (h.ringFaulted .inputFull)
    · exact .next { hissued with rphase := rfl }
  | collect =>
    rw [State.schedulerStep_collect hr hm hp, State.schedulerStep_collect hr' hn (h.rphase.trans hp), hmn.active_eq,
      hmn.state_eq]
    split
    · exact .next h
    split
    · exact .next (h.ringFaulted .instanceFault)
    · exact .next (h.ringPop hN hmn).ringAdvance

/-- Settles O48: RING_START makes the members alike from the store and the registers it reads, and neither an engine
nor the scheduler looks at anything in which alike blocks differ. -/
theorem ringRunsAreDeterministic : Obligations.RingRunsAreDeterministic := by
  unfold Obligations.RingRunsAreDeterministic
  refine ⟨fun s t s' hs ht hcfg hplen hprog hN hseed hphase hn hidle h hok => ?_, fun s t s' e h hcur he hstep => ?_⟩
  · obtain rfl := hostStep_ringStart_ok h hok
    refine ⟨_, ?_, State.ringStarted_alike hs ht hcfg hplen hprog hN hseed hphase⟩
    rw [hostStep_ringStart hn, if_pos (t.ringStartLegal_iff.2 ⟨ht.ringNLegal, hidle⟩)]
  · rcases he with rfl | ⟨j, hj, rfl⟩
    · exact h.schedulerStep hcur s' hstep
    · exact h.engineStep hj hstep

end Sys2Proof.Machine
end

section
/-! SUPPORT. RESUME of an `Instance` that was never instantiated (70_reset_and_hazards.md R382): with `L` 0 no address
is in bounds, so the engine's first fetch faults. -/

namespace Sys2Proof.Machine

/-- Nothing is in bounds of an `Instance` whose length is 0 (20_memory.md R72). -/
theorem Instance.not_inBounds_of_len_zero {m : Instance} (h : m.len = 0) (a : Int) : ¬ (0 ≤ a ∧ a < m.len) := by
  rw [h]
  omega

/-- A step of the engine of an active `Instance` whose `ip` is out of bounds raises FETCH_OOB (40_execution_cycle.md
R145). -/
theorem step_of_fetch_out {s : State} {k : Nat} {m : Instance} {later : List Event}
    (hp : s.pending = .engine k :: later) (hm : s.insts[k]? = some m) (ha : m.active = true)
    (hout : ¬ (0 ≤ m.ip ∧ m.ip < m.len)) :
    step s = .next (State.setInst { s with pending := later, cur := k } k (m.raise ⟨.fetchOob, m.ip⟩)) := by
  rw [step_of_nextEvent (State.nextEvent_pending hp)]
  exact State.engineStep_out (s := { s with pending := later }) hm ha hout

/-- Settles O50: RESUME starts the `Instance` with `ip` 0 and `L` 0, so the fetch is out of bounds. -/
theorem resumeAfterResetFaultsAtTheFetch : Obligations.ResumeAfterResetFaultsAtTheFetch := by
  unfold Obligations.ResumeAfterResetFaultsAtTheFetch
  intro c k hk
  have hreset : (State.resetOf c).insts[k]? = some Instance.atReset := List.getElem?_replicate_of_lt hk
  have hresume := step_of_resume (s := { State.resetOf c with pending := [.host (.resume k), .engine k] }) rfl
    nofun hreset
  rw [Instance.resume_of_startable rfl (.inl rfl)] at hresume
  have hstarted := State.setInst_same (s := { State.resetOf c with pending := [.engine k] }) hreset
    Instance.atReset.start
  have hfault := step_of_fetch_out (s := State.answer (State.setInst _ k Instance.atReset.start) .started) rfl hstarted
    rfl (Instance.not_inBounds_of_len_zero rfl _)
  exact ⟨_, _, _, hresume, rfl, hfault, State.setInst_same hstarted _, rfl, rfl, rfl, rfl, rfl⟩

end Sys2Proof.Machine
end

section
/-! SUPPORT. The model's own stops: an `Instance` that the block does not have (60_exceptions.md R360, log entry 8), and
a value that is no word (92_eei_decisions.md D33, log entry 9). -/

namespace Sys2Proof.Machine

/-! ### An `Instance` that the block does not have -/

theorem exec_none {s : State} (h : s.insts[s.cur]? = none) (i : Instr) : exec i s = .fault (.noSuchInstance s.cur) := by
  rw [exec_eq]
  exact State.onInst_none h _

theorem State.engineStep_none {s : State} {k : Nat} (h : s.insts[k]? = none) :
    s.engineStep k = .fault (.noSuchInstance k) := State.onInst_none h _

/-- Outside ring mode an operation on an `Instance` looks the `Instance` up before anything else. -/
theorem State.unlessRing_onInst_none {s : State} {k : Nat} (hn : s.rstate ≠ .running) (h : s.insts[k]? = none)
    (f : Instance → Host.Outcome State Fault Refusal) :
    s.unlessRing (s.onInst k f) = .fault (.noSuchInstance k) := by
  rw [State.unlessRing_not hn, State.onInst_none h]

theorem hostStep_readReg_none {s : State} {k r : Nat} (h : s.insts[k]? = none) (hr : r < 64) :
    hostStep (.readReg k r) s = .fault (.noSuchInstance k) := by
  rw [hostStep, hostReadReg, if_pos hr, State.onInst_none h]

/-! ### A value that is no word -/

theorem hostStep_pushInput_notAWord {s : State} {k : Nat} {m : Instance} {v : Int} (hn : s.rstate ≠ .running)
    (hm : s.insts[k]? = some m) (hv : ¬ s.cfg.InRange v) : hostStep (.pushInput k v) s = .refused (.notAWord v) := by
  rw [hostStep, hostPushInput, State.unlessRing_not hn, State.onInst_some hm, if_neg hv]

/-- LOAD_PROGRAM names the first of its values that is no word. -/
theorem hostStep_loadProgram_notAWord {s : State} {ws : List Int} {w : Int} (hn : s.rstate ≠ .running)
    (hw : ws.find? (fun w => decide (¬ s.cfg.InRange w)) = some w) :
    hostStep (.loadProgram ws) s = .refused (.notAWord w) := by
  rw [hostStep, hostLoadProgram, State.unlessRing_not hn, hw]

/-- Settles O55: what acts on an `Instance` looks it up first, and PUSH_INPUT and LOAD_PROGRAM look at their values
before they store anything; the word that LOAD_PROGRAM refuses is the one its search finds. -/
theorem unknownInstancesAndNonWordsStop : Obligations.UnknownInstancesAndNonWordsStop := by
  unfold Obligations.UnknownInstancesAndNonWordsStop
  refine ⟨fun i s h => exec_none h i, fun s k h => State.engineStep_none h, fun s k v a hn h => ?_,
    fun s k r h hr => hostStep_readReg_none h hr, fun s k m v hn hm hv => hostStep_pushInput_notAWord hn hm hv,
    fun s ws hn hex => ?_⟩
  · have hstop := State.unlessRing_onInst_none hn h
    exact ⟨hstop _, hstop _, hstop _, hstop _, hstop _⟩
  · obtain ⟨w, hw⟩ : ∃ w, ws.find? (fun w => decide (¬ s.cfg.InRange w)) = some w := by
      rw [← Option.isSome_iff_exists, List.find?_isSome]
      simpa only [decide_eq_true_eq] using hex
    have hout : ¬ s.cfg.InRange w := of_decide_eq_true (List.find?_some (p := fun w => decide (¬ s.cfg.InRange w)) hw)
    exact ⟨w, List.mem_of_find?_eq_some hw, hout, hostStep_loadProgram_notAWord hn hw⟩

end Sys2Proof.Machine
end
